-- ==== Sys2Proof/Word.lean ====
section
/-! DEFINITION. The word types of the core (R9, R10, R21, R37): bytes, 16-bit words, 12-bit addresses, nibbles and
register numbers. Every value is an unsigned integer (R10). -/

namespace Sys2Proof

/-- An 8-bit value: a general register, a timer, a memory cell (R21, R33, R37). -/
abbrev Byte := BitVec 8

/-- A 16-bit value: the pc, I, a stack entry, an instruction word (R28, R29, R31, R92). -/
abbrev Word := BitVec 16

/-- The 12-bit address field NNN (R96). -/
abbrev Addr := BitVec 12

/-- A 4-bit field of an instruction word (R9, R96). -/
abbrev Nibble := BitVec 4

/-- The number of a general register, V0 to VF (R21). -/
abbrev Reg := Fin 16

/-- The number of a key, 0x0 to 0xF (R39). -/
abbrev Key := Fin 16

/-- `zext_16` of a 12-bit address (R10, R97). -/
def zext16 (a : Addr) : Word := a.setWidth 16

end Sys2Proof
end

