-- ==== Sys2Proof/Syntax.lean ====
section
/-! DEFINITION. The 35 instructions (R100), one constructor per row of spec/opcode_table.json, in the table's order. -/

namespace Sys2Proof

/-- "The canonical closed-variant intermediate representation consumed by execution" (R13): exactly 35 variants (R100).
The operands are the fields of R96: `x`, `y` register numbers, `nn` an 8-bit immediate, `nnn` a 12-bit address, `n` a
4-bit row count. -/
inductive Instr where
  /-- 00E0 CLS (R201) -/
  | cls
  /-- 00EE RET (R132) -/
  | ret
  /-- 0NNN SYS NNN (R131) -/
  | sys (nnn : Addr)
  /-- 1NNN JP NNN (R133) -/
  | jp (nnn : Addr)
  /-- 2NNN CALL NNN (R134) -/
  | call (nnn : Addr)
  /-- 3XNN SE Vx, NN (R135) -/
  | seImm (x : Reg) (nn : Byte)
  /-- 4XNN SNE Vx, NN (R136) -/
  | sneImm (x : Reg) (nn : Byte)
  /-- 5XY0 SE Vx, Vy (R137) -/
  | seReg (x y : Reg)
  /-- 6XNN LD Vx, NN (R151) -/
  | ldImm (x : Reg) (nn : Byte)
  /-- 7XNN ADD Vx, NN (R152) -/
  | addImm (x : Reg) (nn : Byte)
  /-- 8XY0 LD Vx, Vy (R153) -/
  | ldReg (x y : Reg)
  /-- 8XY1 OR Vx, Vy (R154) -/
  | or (x y : Reg)
  /-- 8XY2 AND Vx, Vy (R155) -/
  | and (x y : Reg)
  /-- 8XY3 XOR Vx, Vy (R156) -/
  | xor (x y : Reg)
  /-- 8XY4 ADD Vx, Vy (R157) -/
  | addReg (x y : Reg)
  /-- 8XY5 SUB Vx, Vy (R158) -/
  | sub (x y : Reg)
  /-- 8XY6 SHR Vx {, Vy} (R159); `y` is decoded but not read -/
  | shr (x y : Reg)
  /-- 8XY7 SUBN Vx, Vy (R160) -/
  | subn (x y : Reg)
  /-- 8XYE SHL Vx {, Vy} (R161); `y` is decoded but not read -/
  | shl (x y : Reg)
  /-- 9XY0 SNE Vx, Vy (R138) -/
  | sneReg (x y : Reg)
  /-- ANNN LD I, NNN (R181) -/
  | ldI (nnn : Addr)
  /-- BNNN JP V0, NNN (R139) -/
  | jpV0 (nnn : Addr)
  /-- CXNN RND Vx, NN (R162) -/
  | rnd (x : Reg) (nn : Byte)
  /-- DXYN DRW Vx, Vy, N (R202) -/
  | drw (x y : Reg) (n : Nibble)
  /-- EX9E SKP Vx (R221) -/
  | skp (x : Reg)
  /-- EXA1 SKNP Vx (R222) -/
  | sknp (x : Reg)
  /-- FX07 LD Vx, DT (R223) -/
  | ldXDt (x : Reg)
  /-- FX0A LD Vx, K (R224) -/
  | ldXK (x : Reg)
  /-- FX15 LD DT, Vx (R225) -/
  | ldDtX (x : Reg)
  /-- FX18 LD ST, Vx (R226) -/
  | ldStX (x : Reg)
  /-- FX1E ADD I, Vx (R182) -/
  | addIX (x : Reg)
  /-- FX29 LD F, Vx (R183) -/
  | ldFX (x : Reg)
  /-- FX33 LD B, Vx (R184) -/
  | ldBX (x : Reg)
  /-- FX55 LD [I], Vx (R185) -/
  | ldMemX (x : Reg)
  /-- FX65 LD Vx, [I] (R186) -/
  | ldXMem (x : Reg)
deriving DecidableEq, Repr

end Sys2Proof
end

