-- ==== Sys2Proof/WellFormed.lean ====
section
/-! DEFINITION. Which terms of `Instr` stand for an instruction word. Every field is as wide as its bits (R95, R96), so
one check remains: SYS never has the address of a clear-screen or return word (R99, R102, R104). -/

namespace Sys2Proof

/-- "Words 0x00E0 and 0x00EE are spelled CLS and RET, never SYS" (R104); every other term is an instruction. -/
def Instr.wellFormed (i : Instr) : Bool :=
  match i with
  | .sys nnn => nnn != 0x0E0#12 && nnn != 0x0EE#12
  | .cls | .ret | .jp _ | .call _ | .seImm _ _ | .sneImm _ _ | .seReg _ _ | .ldImm _ _ | .addImm _ _ | .ldReg _ _
  | .or _ _ | .and _ _ | .xor _ _ | .addReg _ _ | .sub _ _ | .shr _ _ | .subn _ _ | .shl _ _ | .sneReg _ _ | .ldI _
  | .jpV0 _ | .rnd _ _ | .drw _ _ _ | .skp _ | .sknp _ | .ldXDt _ | .ldXK _ | .ldDtX _ | .ldStX _ | .addIX _
  | .ldFX _ | .ldBX _ | .ldMemX _ | .ldXMem _ => true

end Sys2Proof
end

