-- ==== Sys2Proof/Decode.lean ====
section
/-! DEFINITION. The opcode decoder (R93 to R96), the classifier (R99) over the bytes of memory (R65), and after them the
encoder written from the table of R100. -/

namespace Sys2Proof

/-! ### The fields of a word (R96) -/

/-- `op`, w[15:12], the major opcode. -/
def opOf (w : Word) : Nibble := w.extractLsb' 12 4

/-- w[11:8] as a number. -/
def xField (w : Word) : Nibble := w.extractLsb' 8 4

/-- w[7:4] as a number. -/
def yField (w : Word) : Nibble := w.extractLsb' 4 4

/-- `N`, w[3:0]: sprite height or sub-opcode. -/
def nOf (w : Word) : Nibble := w.extractLsb' 0 4

/-- `NN`, w[7:0]: immediate byte or sub-opcode. -/
def nnOf (w : Word) : Byte := w.extractLsb' 0 8

/-- `NNN`, w[11:0]: address. -/
def nnnOf (w : Word) : Addr := w.extractLsb' 0 12

/-- The register a nibble names (R97: any of the 16 values is legal). -/
def regOf (b : Nibble) : Reg := ⟨b.toNat, b.isLt⟩

/-- `X`, the first register index. -/
def xOf (w : Word) : Reg := regOf (xField w)

/-- `Y`, the second register index. -/
def yOf (w : Word) : Reg := regOf (yField w)

/-! ### The classifier -/

/-- Why bytes do not decode. -/
inductive DecodeReject where
  /-- The word matches none of the 35 instructions: DecodeError (R99, R101). Raised by `classify`; the cycle that fetches
  such a word halts. Safe: the spec's own error. -/
  | illegalWord (w : Word)
  /-- Fewer than two bytes: every instruction is exactly two bytes (R92). Raised by `decode` on short lists only; the
  fetch always hands over two bytes. Safe. -/
  | truncated
deriving DecidableEq, Repr

/-- `Classify(w)` (R99): ordered match, first hit wins. -/
def classify (w : Word) : Except DecodeReject Instr :=
  if w = 0x00E0#16 then .ok .cls
  else if w = 0x00EE#16 then .ok .ret
  else if opOf w = 0x0#4 then .ok (.sys (nnnOf w))
  else if opOf w = 0x1#4 then .ok (.jp (nnnOf w))
  else if opOf w = 0x2#4 then .ok (.call (nnnOf w))
  else if opOf w = 0x3#4 then .ok (.seImm (xOf w) (nnOf w))
  else if opOf w = 0x4#4 then .ok (.sneImm (xOf w) (nnOf w))
  else if opOf w = 0x5#4 ∧ nOf w = 0x0#4 then .ok (.seReg (xOf w) (yOf w))
  else if opOf w = 0x6#4 then .ok (.ldImm (xOf w) (nnOf w))
  else if opOf w = 0x7#4 then .ok (.addImm (xOf w) (nnOf w))
  else if opOf w = 0x8#4 ∧ nOf w = 0x0#4 then .ok (.ldReg (xOf w) (yOf w))
  else if opOf w = 0x8#4 ∧ nOf w = 0x1#4 then .ok (.or (xOf w) (yOf w))
  else if opOf w = 0x8#4 ∧ nOf w = 0x2#4 then .ok (.and (xOf w) (yOf w))
  else if opOf w = 0x8#4 ∧ nOf w = 0x3#4 then .ok (.xor (xOf w) (yOf w))
  else if opOf w = 0x8#4 ∧ nOf w = 0x4#4 then .ok (.addReg (xOf w) (yOf w))
  else if opOf w = 0x8#4 ∧ nOf w = 0x5#4 then .ok (.sub (xOf w) (yOf w))
  else if opOf w = 0x8#4 ∧ nOf w = 0x6#4 then .ok (.shr (xOf w) (yOf w))
  else if opOf w = 0x8#4 ∧ nOf w = 0x7#4 then .ok (.subn (xOf w) (yOf w))
  else if opOf w = 0x8#4 ∧ nOf w = 0xE#4 then .ok (.shl (xOf w) (yOf w))
  else if opOf w = 0x9#4 ∧ nOf w = 0x0#4 then .ok (.sneReg (xOf w) (yOf w))
  else if opOf w = 0xA#4 then .ok (.ldI (nnnOf w))
  else if opOf w = 0xB#4 then .ok (.jpV0 (nnnOf w))
  else if opOf w = 0xC#4 then .ok (.rnd (xOf w) (nnOf w))
  else if opOf w = 0xD#4 then .ok (.drw (xOf w) (yOf w) (nOf w))
  else if opOf w = 0xE#4 ∧ nnOf w = 0x9E#8 then .ok (.skp (xOf w))
  else if opOf w = 0xE#4 ∧ nnOf w = 0xA1#8 then .ok (.sknp (xOf w))
  else if opOf w = 0xF#4 ∧ nnOf w = 0x07#8 then .ok (.ldXDt (xOf w))
  else if opOf w = 0xF#4 ∧ nnOf w = 0x0A#8 then .ok (.ldXK (xOf w))
  else if opOf w = 0xF#4 ∧ nnOf w = 0x15#8 then .ok (.ldDtX (xOf w))
  else if opOf w = 0xF#4 ∧ nnOf w = 0x18#8 then .ok (.ldStX (xOf w))
  else if opOf w = 0xF#4 ∧ nnOf w = 0x1E#8 then .ok (.addIX (xOf w))
  else if opOf w = 0xF#4 ∧ nnOf w = 0x29#8 then .ok (.ldFX (xOf w))
  else if opOf w = 0xF#4 ∧ nnOf w = 0x33#8 then .ok (.ldBX (xOf w))
  else if opOf w = 0xF#4 ∧ nnOf w = 0x55#8 then .ok (.ldMemX (xOf w))
  else if opOf w = 0xF#4 ∧ nnOf w = 0x65#8 then .ok (.ldXMem (xOf w))
  else .error (.illegalWord w)

/-- The 16-bit word of two bytes, high byte first (R65, R91: `hi ++ lo`). -/
def wordOf (hi lo : Byte) : Word := hi ++ lo

/-- The instruction at the head of a list of bytes, and the bytes after it (R65, R92, R99). -/
def decode (bytes : List Byte) : Except DecodeReject (Instr × List Byte) :=
  match bytes with
  | hi :: lo :: rest => (classify (wordOf hi lo)).map fun i => (i, rest)
  | [_] => .error .truncated
  | [] => .error .truncated

/-- The high byte w[15:8], which stands at the lower address (R65). -/
def hiByte (w : Word) : Byte := w.extractLsb' 8 8

/-- The low byte w[7:0] (R65). -/
def loByte (w : Word) : Byte := w.extractLsb' 0 8

/-! ### The encoder -/

/-- The nibble of a register number. -/
def nibbleOf (r : Reg) : Nibble := BitVec.ofFin r

/-- Format A of R98: op, NNN. -/
def formA (op : Nibble) (nnn : Addr) : Word := op ++ nnn

/-- Format XNN of R98: op, X, NN. The X format of EXNN and FXNN has the same layout. -/
def formXNN (op : Nibble) (x : Reg) (nn : Byte) : Word := op ++ (nibbleOf x ++ nn)

/-- Formats XY and XYN of R98: op, X, Y, N. -/
def formXYN (op : Nibble) (x y : Reg) (n : Nibble) : Word := op ++ (nibbleOf x ++ (nibbleOf y ++ n))

/-- The word of an instruction: the pattern column of R100, with the fields of R96 filled in. -/
def encode (i : Instr) : Word :=
  match i with
  | .cls => 0x00E0#16
  | .ret => 0x00EE#16
  | .sys nnn => formA 0x0#4 nnn
  | .jp nnn => formA 0x1#4 nnn
  | .call nnn => formA 0x2#4 nnn
  | .seImm x nn => formXNN 0x3#4 x nn
  | .sneImm x nn => formXNN 0x4#4 x nn
  | .seReg x y => formXYN 0x5#4 x y 0x0#4
  | .ldImm x nn => formXNN 0x6#4 x nn
  | .addImm x nn => formXNN 0x7#4 x nn
  | .ldReg x y => formXYN 0x8#4 x y 0x0#4
  | .or x y => formXYN 0x8#4 x y 0x1#4
  | .and x y => formXYN 0x8#4 x y 0x2#4
  | .xor x y => formXYN 0x8#4 x y 0x3#4
  | .addReg x y => formXYN 0x8#4 x y 0x4#4
  | .sub x y => formXYN 0x8#4 x y 0x5#4
  | .shr x y => formXYN 0x8#4 x y 0x6#4
  | .subn x y => formXYN 0x8#4 x y 0x7#4
  | .shl x y => formXYN 0x8#4 x y 0xE#4
  | .sneReg x y => formXYN 0x9#4 x y 0x0#4
  | .ldI nnn => formA 0xA#4 nnn
  | .jpV0 nnn => formA 0xB#4 nnn
  | .rnd x nn => formXNN 0xC#4 x nn
  | .drw x y n => formXYN 0xD#4 x y n
  | .skp x => formXNN 0xE#4 x 0x9E#8
  | .sknp x => formXNN 0xE#4 x 0xA1#8
  | .ldXDt x => formXNN 0xF#4 x 0x07#8
  | .ldXK x => formXNN 0xF#4 x 0x0A#8
  | .ldDtX x => formXNN 0xF#4 x 0x15#8
  | .ldStX x => formXNN 0xF#4 x 0x18#8
  | .addIX x => formXNN 0xF#4 x 0x1E#8
  | .ldFX x => formXNN 0xF#4 x 0x29#8
  | .ldBX x => formXNN 0xF#4 x 0x33#8
  | .ldMemX x => formXNN 0xF#4 x 0x55#8
  | .ldXMem x => formXNN 0xF#4 x 0x65#8

/-- The two bytes of an instruction as memory holds them, high byte first (R65). -/
def encodeBytes (i : Instr) : List Byte := [hiByte (encode i), loByte (encode i)]

/-! ### The host's view of the decoder -/

/-- The 16-bit word whose bits spec/opcode_table.json numbers from 0, the bits above `nbits` being 0. -/
def tableWord (nbits w : Nat) : Word := BitVec.ofNat 16 (w % 2 ^ nbits)

/-- The instruction the decoder reads from the table's word: its bytes as memory holds them, given to `decode`. -/
def decodeTableWord (nbits w : Nat) : Option Instr :=
  match decode [hiByte (tableWord nbits w), loByte (tableWord nbits w)] with
  | .ok (i, _) => some i
  | .error _ => none

end Sys2Proof
end

