-- ==== Sys2Proof/Config.lean ====
section
/-! DEFINITION. What the spec leaves to the implementation or to the driver: the parameters of R8 as one record of plain
data, the elapsed time of a cycle, and the two free values (the elapsed time and the random byte of a cycle that no
queued input gives), which have no body. The parameters' default values are in Machine/Defaults.lean. -/

namespace Sys2Proof

/-- The font of R36 and D13: FONT_BASE with its bound of R8, and FONT_GLYPHS, sixteen glyphs of five rows. -/
structure Font where
  /-- FONT_BASE, a 12-bit address (R8). -/
  base : Addr
  /-- `FONT_BASE + 79 <= 0x1FF` (R8). -/
  base_le : base.toNat + 79 ≤ 0x1FF
  /-- FONT_GLYPHS: glyph d, row j, top row first (R36). -/
  glyphs : Vector (Vector Byte 5) 16
deriving DecidableEq, Repr

/-- The parameters of R8 that the model takes as an argument. -/
structure Params where
  /-- QUANTUM in seconds, a positive rational (R8, D15). -/
  quantum : Rat
  quantum_pos : 0 < quantum
  /-- FONT_BASE and FONT_GLYPHS (R8, D13). -/
  font : Font
deriving DecidableEq, Repr

/-- The argument of `cycle(elapsed)`: a non-negative rational number of seconds (R90, D15). -/
structure Elapsed where
  seconds : Rat
  nonneg : 0 ≤ seconds
deriving DecidableEq, Repr

/-- The elapsed time `num / den` seconds (0 seconds when `den` is 0); every elapsed time is one of these. -/
def Elapsed.ofFrac (num den : Nat) : Elapsed where
  seconds := (num : Rat) / (den : Rat)
  nonneg := div_nonneg (Nat.cast_nonneg num) (Nat.cast_nonneg den)

/-- FREE VALUE (R163, D22; DESIGN CHOICE, notes/assumptions/5.md): the byte at the `rnd` port in the n-th cycle when the
queue of inputs does not give it. It has no body: every byte is possible in every cycle. -/
opaque Config.freeRnd : Nat → Byte

/-- FREE VALUE (R251, R261, D15; DESIGN CHOICE, notes/assumptions/4.md): the elapsed time, as numerator and denominator of
a number of seconds, that the driver passes to the n-th cycle when the queue of inputs does not give it. It has no
body: every elapsed time is possible in every cycle. -/
opaque Config.freeElapsed : Nat → Nat × Nat

end Sys2Proof
end

