-- ==== Sys2Proof/Machine/Defaults.lean ====
section
/-! DEFINITION. The default values the spec names for the parameters of R8. No statement rests on one of them: they are
the values of State.reset's `params`, and every statement is about every value of the parameters. -/

namespace Sys2Proof.Machine

/-- FONT_BASE by default: 0x050 (R8, R36, D13; the source's example range 0x50 to 0x9F). -/
def defaultFontBase : Addr := 0x050#12

/-- FONT_GLYPHS by default: the table of R36 (D13, from general knowledge). -/
def defaultGlyphs : Vector (Vector Byte 5) 16 :=
  #v[#v[0xF0#8, 0x90#8, 0x90#8, 0x90#8, 0xF0#8],
     #v[0x20#8, 0x60#8, 0x20#8, 0x20#8, 0x70#8],
     #v[0xF0#8, 0x10#8, 0xF0#8, 0x80#8, 0xF0#8],
     #v[0xF0#8, 0x10#8, 0xF0#8, 0x10#8, 0xF0#8],
     #v[0x90#8, 0x90#8, 0xF0#8, 0x10#8, 0x10#8],
     #v[0xF0#8, 0x80#8, 0xF0#8, 0x10#8, 0xF0#8],
     #v[0xF0#8, 0x80#8, 0xF0#8, 0x90#8, 0xF0#8],
     #v[0xF0#8, 0x10#8, 0x20#8, 0x40#8, 0x40#8],
     #v[0xF0#8, 0x90#8, 0xF0#8, 0x90#8, 0xF0#8],
     #v[0xF0#8, 0x90#8, 0xF0#8, 0x10#8, 0xF0#8],
     #v[0xF0#8, 0x90#8, 0xF0#8, 0x90#8, 0x90#8],
     #v[0xE0#8, 0x90#8, 0xE0#8, 0x90#8, 0xE0#8],
     #v[0xF0#8, 0x80#8, 0x80#8, 0x80#8, 0xF0#8],
     #v[0xE0#8, 0x90#8, 0x90#8, 0x90#8, 0xE0#8],
     #v[0xF0#8, 0x80#8, 0xF0#8, 0x80#8, 0xF0#8],
     #v[0xF0#8, 0x80#8, 0xF0#8, 0x80#8, 0x80#8]]

/-- The default font. -/
def defaultFont : Font where
  base := defaultFontBase
  base_le := by decide
  glyphs := defaultGlyphs

/-- QUANTUM by default: the nominal 1/60 s (R8, D15; DESIGN CHOICE, notes/assumptions/3.md). -/
def defaultQuantum : Rat := 1 / 60

/-- The parameters State.reset holds. -/
def defaultParams : Params where
  quantum := defaultQuantum
  quantum_pos := by unfold defaultQuantum; norm_num
  font := defaultFont

end Sys2Proof.Machine
end

