-- ==== Sys2Proof/Machine/Memory.lean ====
section
/-! DEFINITION. Memory (R37, R60, R62): 4096 byte cells, each a byte or unset, held as a sorted list of the cells that
differ from their content after initialisation. -/

namespace Sys2Proof.Machine

/-- "4096 addressable bytes", addresses 0x000 to 0xFFF (R37, R60). -/
def memSize : Nat := 4096

/-- The byte of the built-in font at an address: row j of glyph d stands at FONT_BASE + 5*d + j (R36, R281). -/
def fontByte (f : Font) (a : Nat) : Option Byte :=
  if a < f.base.toNat then none
  else (f.glyphs[(a - f.base.toNat) / 5]?).bind fun glyph => glyph[(a - f.base.toNat) % 5]?

/-- What an address that the list does not hold reads as: its content after the initialisation with an empty image
(R45, R62, R281). The font's addresses hold the font, and every other cell is unset. -/
def unlisted (f : Font) (a : Nat) : Option Byte := fontByte f a

/-- The cells written since initialisation that differ from what `unlisted` gives. -/
abbrev Memory := List Host.Cell

/-- The byte the list holds for an address. -/
def Memory.listed : Memory → Nat → Option Byte
  | [], _ => none
  | (k, b) :: m, a => if a = k then some b else Memory.listed m a

/-- The content of the cell at an address below 4096: a byte, or `none` when the cell is unset (R27, R37). -/
def Memory.read (f : Font) (m : Memory) (a : Nat) : Option Byte :=
  match Memory.listed m a with
  | some b => some b
  | none => unlisted f a

/-- Insert or replace one cell in a sorted list. -/
def Memory.put : Memory → Nat → Byte → Memory
  | [], a, b => [(a, b)]
  | (k, c) :: m, a, b =>
    if a < k then (a, b) :: (k, c) :: m
    else if a = k then (a, b) :: m
    else (k, c) :: Memory.put m a b

/-- Remove an address from the list. -/
def Memory.drop : Memory → Nat → Memory
  | [], _ => []
  | (k, c) :: m, a => if a = k then Memory.drop m a else (k, c) :: Memory.drop m a

/-- Set the cell at an address, keeping the list canonical: a byte equal to what `unlisted` gives is not listed. -/
def Memory.write (f : Font) (m : Memory) (a : Nat) (b : Byte) : Memory :=
  if unlisted f a = some b then Memory.drop m a else Memory.put m a b

/-- Write bytes at ascending addresses. -/
def Memory.writeList (f : Font) (m : Memory) (a : Nat) : List Byte → Memory
  | [] => m
  | b :: bs => Memory.writeList f (Memory.write f m a b) (a + 1) bs

/-- The canonical form (DESIGN CHOICE, notes/assumptions/7.md): addresses strictly rising, inside the 4096 bytes, and
no cell equal to what an unlisted address reads as. -/
abbrev Memory.wf (f : Font) (m : Memory) : Prop :=
  m.Pairwise (fun c d => c.1 < d.1) ∧ ∀ c ∈ m, c.1 < memSize ∧ unlisted f c.1 ≠ some c.2

end Sys2Proof.Machine
end

