-- ==== Sys2Proof/Machine/State.lean ====
section
/-! DEFINITION. The state record of R20 with the errors of R241, the host's pending inputs and the parameters beside it,
the reasons a step can stop, and the state after reset. -/

namespace Sys2Proof.Machine

/-- What an `UninitializedRead` names (R27): a general register, I, or a memory address. -/
inductive Source where
  | reg (r : Reg)
  | index
  | mem (a : Nat)
deriving DecidableEq, Repr

/-- The nine error kinds of R241 with their info, less p. Each is an error of the spec's own machine, which halts on it
(R244); none is a stop of the model. -/
inductive Cause where
  /-- Code 1, raised by load only: the image's length, `none` for an unreadable image (R281, R283; DESIGN CHOICE,
  notes/assumptions/13.md). -/
  | romLoadError (length : Option Nat)
  /-- Code 2: the fetched word matches none of the 35 instructions (R99). -/
  | decodeError (w : Word)
  /-- Code 3: CALL with SP = 15 (R134). -/
  | stackOverflow
  /-- Code 4: RET with SP = 0 (R132). -/
  | stackUnderflow
  /-- Code 5: LD F,Vx with Vx > 15 (R183). -/
  | invalidDigit (value : Byte)
  /-- Code 6: an access at an address at or above 4096 (R66, R67). -/
  | memoryBoundsFault (address : Nat)
  /-- Code 7: a read of an unset register, I or memory byte (R27). -/
  | uninitializedRead (what : Source)
  /-- Code 8: SKP or SKNP with Vx > 15 (R221, R222). -/
  | keyIndexFault (value : Byte)
  /-- Code 9: ADD I,Vx with I + Vx > 0xFFFF (R182). -/
  | indexOverflow (sum : Nat)
deriving DecidableEq, Repr

/-- An error value (R241): its kind and info, and p, the fetch address of the instruction in whose cycle it was raised
(`none` for RomLoadError). -/
structure Error where
  cause : Cause
  p : Option Word
deriving DecidableEq, Repr

/-- `status` (R40): whether the machine has stopped on an error. -/
inductive Status where
  | running
  | halted (e : Error)
deriving DecidableEq, Repr

/-- The 16 key states; true means the key is down (R39). -/
abbrev Keypad := Vector Bool 16

/-- The display grid, row by row: 32 rows of 64 pixels (R38). -/
abbrev Display := Vector (Vector Bool 64) 32

/-- What the driver does for one cycle (R260, R261): the `set_keys` before it, if any, the argument of `cycle`, and the
byte at the `rnd` port, used only if the cycle executes CXNN. -/
structure CycleInput where
  keys : Option Keypad
  elapsed : Elapsed
  rnd : Byte
deriving DecidableEq, Repr

/-- Where a step of the MODEL stops. The spec's own errors are not here: they are states with `status` halted. -/
inductive Fault where
  /-- RET with SP >= 1 and `stack[SP]` unset. Raised by `execRet`. The spec says this never happens (R132) and gives it no
  effect; no state that meets the invariant of Safety.lean raises it. Safe (DESIGN CHOICE, notes/assumptions/8.md). -/
  | unsetStackEntry
deriving DecidableEq, Repr

/-- Instructions the model does not run. -/
inductive Refusal where
  /-- Raised by an arm of `exec` whose instruction has no meaning yet; no arm of this model raises it. Safe. -/
  | notModelled (mnemonic : String)
deriving DecidableEq, Repr

/-- The state record of R20, then the model's own three fields: the parameters of R8, the driver's pending inputs, and
the number of steps taken, which indexes the free values. -/
structure State where
  /-- V0 to VF, each a byte or unset (R21, R27); V[15] is the flag F (R22). -/
  v : Vector (Option Byte) 16
  /-- I, a 16-bit value or unset (R28). -/
  index : Option Word
  /-- The program counter (R29). -/
  pc : Word
  /-- The call stack's 16 entries, each a 16-bit value or unset (R31). -/
  stack : Vector (Option Word) 16
  /-- SP, the call stack's depth index (R32). -/
  sp : Fin 16
  /-- DT, the delay timer (R33). -/
  dt : Byte
  /-- ST, the sound timer (R34). -/
  st : Byte
  /-- The accumulator of the timer subsystem, in seconds (R35). -/
  acc : Rat
  /-- The 4096 bytes of memory (R37). -/
  mem : Memory
  /-- The display (R38). -/
  display : Display
  /-- The keypad (R39). -/
  keys : Keypad
  /-- Running, or halted on an error (R40). -/
  status : Status
  /-- The model's own: the parameters of R8, which no step changes (DESIGN CHOICE, notes/assumptions/3.md). -/
  params : Params
  /-- The model's own: what the driver does for the next cycles, first cycle first (DESIGN CHOICE,
  notes/assumptions/4.md). -/
  inputs : List CycleInput
  /-- The model's own: the number of steps taken (DESIGN CHOICE, notes/assumptions/12.md). -/
  tick : Nat
deriving DecidableEq, Repr

/-- The values after initialisation with an empty image, as the table of R45 gives them: V, I and the stack unset
(notes/assumptions/14.md, 15.md). -/
def State.initial : State where
  v := Vector.replicate 16 none
  index := none
  pc := 0x200#16
  stack := Vector.replicate 16 none
  sp := 0
  dt := 0#8
  st := 0#8
  acc := 0
  mem := []
  display := Vector.replicate 32 (Vector.replicate 64 false)
  keys := Vector.replicate 16 false
  status := .running
  params := defaultParams
  inputs := []
  tick := 0

/-- The machine right after reset: R45's table, with the sixteen general registers and I holding 0 where R45 leaves them
unset (the ZERO_FILL of D12 for the registers; DESIGN CHOICE, notes/assumptions/1.md). -/
def State.reset : State :=
  { State.initial with v := Vector.replicate 16 (some 0#8), index := some 0#16 }

end Sys2Proof.Machine
end

