-- ==== Sys2Proof/Machine/Ops.lean ====
section
/-! DEFINITION. The named operations over registers, memory and pc (R11), raising an error as one shared operation (R243),
the frame of an instruction's execution (R90), and the inputs of the current cycle (R260). -/

namespace Sys2Proof.Machine

/-- The three outcomes of this machine. -/
abbrev Outcome := Host.Outcome State Fault Refusal

/-- A computation inside a cycle: a value, or the error it raises. -/
abbrev Exec (α : Type) := Except Cause α

namespace State

/-! ### Registers -/

/-- `x[r]`: a read of a general register, which raises if it is unset (R11, R27). -/
def reg (r : Reg) (s : State) : Exec Byte :=
  match s.v[r] with
  | some b => .ok b
  | none => .error (.uninitializedRead (.reg r))

/-- `x[r] <- b`: the register becomes set (R11, R27). -/
def setReg (r : Reg) (b : Byte) (s : State) : State := { s with v := s.v.set r (some b) }

/-- `x[15] <- b`: the write of the flag F (R22, R23). -/
def setFlag (b : Byte) (s : State) : State := setReg 15 b s

/-- A read of I, which raises if it is unset (R27). -/
def readIndex (s : State) : Exec Word :=
  match s.index with
  | some i => .ok i
  | none => .error (.uninitializedRead .index)

/-- `I <- i` (R28). -/
def setIndex (i : Word) (s : State) : State := { s with index := some i }

/-! ### Memory -/

/-- The content of the cell at an address: a byte, or `none` when the cell is unset or does not exist. -/
def byteAt (s : State) (a : Nat) : Option Byte :=
  if memSize ≤ a then none else Memory.read s.params.font s.mem a

/-- `MemRead(a, 1)` (R66): first the bounds, then the set-ness of the cell. -/
def readByte (a : Nat) (s : State) : Exec Byte :=
  if memSize ≤ a then .error (.memoryBoundsFault a)
  else
    match s.byteAt a with
    | some b => .ok b
    | none => .error (.uninitializedRead (.mem a))

/-- The cell at an address becomes set to a byte; memory keeps its canonical form. -/
def setByte (a : Nat) (b : Byte) (s : State) : State := { s with mem := Memory.write s.params.font s.mem a b }

/-- `MemWrite(a, 1, b)` (R67): every address below 4096 is writable. -/
def writeByte (a : Nat) (b : Byte) (s : State) : Exec State :=
  if memSize ≤ a then .error (.memoryBoundsFault a)
  else .ok (s.setByte a b)

/-! ### The program counter -/

/-- `pc <- target` (R11). -/
def setPc (target : Word) (s : State) : State := { s with pc := target }

/-- The state Execute starts from: the fetch has set pc to p + 2 (R29, R91). -/
def fetched (s : State) : State := { s with pc := s.pc + 2#16 }

/-- A skip: `pc <- pc + 2` when the condition holds (R135, R140). -/
def skipIf (c : Bool) (s : State) : State := if c then { s with pc := s.pc + 2#16 } else s

/-! ### The call stack, the timers and the display -/

/-- `SP <- SP + 1`, then `stack[SP] <- pc` (R134). -/
def pushReturn (s : State) : State :=
  { s with sp := s.sp + 1, stack := s.stack.set (s.sp + 1 : Fin 16) (some s.pc) }

/-- `pc <- ra`, the entry `stack[SP]`, then `SP <- SP - 1`; the entry keeps its value (R31, R132). -/
def popReturn (ra : Word) (s : State) : State := { s with pc := ra, sp := s.sp - 1 }

/-- `DT <- b` (R33). -/
def setDelayTimer (b : Byte) (s : State) : State := { s with dt := b }

/-- `ST <- b` (R34). -/
def setSoundTimer (b : Byte) (s : State) : State := { s with st := b }

/-- The display becomes another grid (R38). -/
def setDisplay (d : Display) (s : State) : State := { s with display := d }

/-! ### Raising an error -/

/-- `raise E(info)` in the cycle that starts in this state: nothing of the cycle is kept, and only `status` changes, to
`Halted(e)` with p the fetch address (R90, R241, R243; DEDUCED, notes/assumptions/6.md). -/
def raise (c : Cause) (s : State) : State := { s with status := .halted ⟨c, some s.pc⟩ }

/-- The machine has not stopped on an error (R40). -/
def isRunning (s : State) : Bool :=
  match s.status with
  | .running => true
  | .halted _ => false

/-! ### The inputs of the current cycle -/

/-- What the driver does for the current cycle: the first queued input; when none is queued, the previous keypad
snapshot stands (R257) and the elapsed time and the random byte are free values (R163, R261). -/
def currentInput (s : State) : CycleInput :=
  match s.inputs with
  | inp :: _ => inp
  | [] =>
    { keys := none
      elapsed := Elapsed.ofFrac (Config.freeElapsed s.tick).1 (Config.freeElapsed s.tick).2
      rnd := Config.freeRnd s.tick }

/-- `draw_rnd()`: the byte at the `rnd` port in this cycle, an input and not a function of the core's state (R163). -/
def drawRnd (s : State) : Byte := s.currentInput.rnd

end State

/-- The Execute step of a cycle that starts in `s` (R90): the body runs with pc = p + 2, and an error it raises commits
nothing of the cycle (R243; DESIGN CHOICE, notes/assumptions/11.md). -/
def execute (s : State) (body : State → Exec State) : Outcome :=
  match body s.fetched with
  | .ok t => .next t
  | .error c => .next (s.raise c)

end Sys2Proof.Machine
end

