-- ==== Sys2Proof/Machine/Flags.lean ====
section
/-! DEFINITION. The values the flag F can be given (R22): carry, not-borrow, the bit shifted out, the collision. Each is 0
or 1 and is computed from the operands read at the start of the instruction (R23). -/

namespace Sys2Proof.Machine

/-- A condition as the byte 1 or 0 (R22: "each writes only 0 or 1"). -/
def flagOf (c : Bool) : Byte := if c then 1#8 else 0#8

/-- The carry of an 8-bit addition: the exact sum is over 255 (R157, R164). -/
def carryFlag (a b : Byte) : Byte := flagOf (decide (255 < a.toNat + b.toNat))

/-- The not-borrow of a - b: the unsigned comparison a >= b (R158, R160, R164). -/
def notBorrowFlag (a b : Byte) : Byte := flagOf (decide (b.toNat ≤ a.toNat))

/-- The bit a right shift moves out, bit 0 (R159). -/
def shiftRightFlag (a : Byte) : Byte := flagOf (a.getLsbD 0)

/-- The bit a left shift moves out, bit 7 (R161). -/
def shiftLeftFlag (a : Byte) : Byte := flagOf (a.getLsbD 7)

/-- The collision flag of DRW (R205). -/
def collisionFlag (hit : Bool) : Byte := flagOf hit

/-- The primary result, then the flag, written last, so that the flag is what remains when the destination is VF
(R23, R150). -/
def writeWithFlag (x : Reg) (result flag : Byte) (t : State) : State := (t.setReg x result).setFlag flag

end Sys2Proof.Machine
end

