-- ==== Sys2Proof/Machine/Operands.lean ====
section
/-! DEFINITION. The operand forms: the effective address I + k (R68, R187), the registers V0 to Vx in ascending order
(R185, R186), the decimal digits of a byte (R184), the digit and key-index operands with their range checks (R183, R221),
the keypad scan (R224) and the 8-bit results of the arithmetic family (R164). -/

namespace Sys2Proof.Machine

/-! ### Memory operands -/

/-- The only data addressing mode: I plus a small offset, exact, I read as a 16-bit unsigned value and never masked
(R68, R187). -/
def effAddr (i : Word) (k : Nat) : Nat := i.toNat + k

/-- The sixteen numbers 0 to 15 in ascending order. -/
def sixteen : List (Fin 16) := [0, 1, 2, 3, 4, 5, 6, 7, 8, 9, 10, 11, 12, 13, 14, 15]

/-- The registers V0 to Vx in ascending order (`for i in 0..X`, both ends included: R12, R185, R186). -/
def regsUpTo (x : Reg) : List Reg := sixteen.filter (fun i => i ≤ x)

/-- `MemWrite(I + i, 1, x[i])` for each register of the list, in order (R185). The arguments are read from left to
right, I before `x[i]`, and the bounds of the address are checked by MemWrite after them
(DEDUCED, notes/assumptions/9.md). -/
def storeRegs : List Reg → State → Exec State
  | [], t => .ok t
  | i :: is, t => do
    let base ← t.readIndex
    let b ← t.reg i
    let t' ← t.writeByte (effAddr base i.val) b
    storeRegs is t'

/-- `x[i] <- MemRead(I + i, 1)` for each register of the list, in order (R186). -/
def loadRegs : List Reg → State → Exec State
  | [], t => .ok t
  | i :: is, t => do
    let base ← t.readIndex
    let b ← t.readByte (effAddr base i.val)
    loadRegs is (t.setReg i b)

/-- Hundreds, tens and ones of a byte (R184). -/
def bcdHundreds (v : Byte) : Byte := BitVec.ofNat 8 (v.toNat / 100)

/-- The tens digit (R184). -/
def bcdTens (v : Byte) : Byte := BitVec.ofNat 8 (v.toNat / 10 % 10)

/-- The ones digit (R184). -/
def bcdOnes (v : Byte) : Byte := BitVec.ofNat 8 (v.toNat % 10)

/-! ### Register operands that name a digit or a key -/

/-- The digit operand of LD F,Vx: not masked, an error above 15 (R183). -/
def digitOperand (x : Reg) (t : State) : Exec Nat := do
  let d ← t.reg x
  if 15 < d.toNat then .error (.invalidDigit d) else .ok d.toNat

/-- The base address of the glyph of a digit: FONT_BASE + 5*d (R36, R183). -/
def glyphAddr (f : Font) (d : Nat) : Word := BitVec.ofNat 16 (f.base.toNat + 5 * d)

/-- The state of the key that Vx names, an error when Vx is above 15 (R221, R222). The key index is the register's
value, not its number (R97). -/
def keyOperand (x : Reg) (t : State) : Exec Bool := do
  let k ← t.reg x
  if h : k.toNat < 16 then .ok t.keys[k.toNat] else .error (.keyIndexFault k)

/-- The least key that is down, if one is (R224: "scan key indices 0-15 in ascending order"). -/
def firstKeyDown (keys : Keypad) : Option Key := sixteen.find? (fun k => keys[k])

/-! ### Results of the arithmetic family -/

/-- Addition mod 256 (R152, R157). -/
def addByte (a b : Byte) : Byte := BitVec.ofNat 8 ((a.toNat + b.toNat) % 256)

/-- Subtraction mod 256 (R158, R160). -/
def subByte (a b : Byte) : Byte := BitVec.ofInt 8 (((a.toNat : Int) - (b.toNat : Int)) % 256)

/-- The logical shift right by one: `a div 2` (R159). -/
def shiftRightByte (a : Byte) : Byte := BitVec.ofNat 8 (a.toNat / 2)

/-- The shift left by one, truncated: `(a * 2) mod 256` (R161). -/
def shiftLeftByte (a : Byte) : Byte := BitVec.ofNat 8 (a.toNat * 2 % 256)

end Sys2Proof.Machine
end

