-- ==== Sys2Proof/Machine/Alu.lean ====
section
/-! DEFINITION. Register moves, arithmetic, logic, shifts and random (R150 to R165). -/

namespace Sys2Proof.Machine

/-- LD Vx, NN (R151). -/
def execLdImm (x : Reg) (nn : Byte) (s : State) : Outcome := execute s fun t => .ok (t.setReg x nn)

/-- ADD Vx, NN: no carry is recorded (R152). -/
def execAddImm (x : Reg) (nn : Byte) (s : State) : Outcome :=
  execute s fun t => do
    let a ← t.reg x
    .ok (t.setReg x (addByte a nn))

/-- LD Vx, Vy (R153). -/
def execLdReg (x y : Reg) (s : State) : Outcome :=
  execute s fun t => do
    let b ← t.reg y
    .ok (t.setReg x b)

/-- OR Vx, Vy (R154). -/
def execOr (x y : Reg) (s : State) : Outcome :=
  execute s fun t => do
    let a ← t.reg x
    let b ← t.reg y
    .ok (t.setReg x (a ||| b))

/-- AND Vx, Vy (R155). -/
def execAnd (x y : Reg) (s : State) : Outcome :=
  execute s fun t => do
    let a ← t.reg x
    let b ← t.reg y
    .ok (t.setReg x (a &&& b))

/-- XOR Vx, Vy (R156). -/
def execXor (x y : Reg) (s : State) : Outcome :=
  execute s fun t => do
    let a ← t.reg x
    let b ← t.reg y
    .ok (t.setReg x (a ^^^ b))

/-- ADD Vx, Vy: VF := carry (R157). -/
def execAddReg (x y : Reg) (s : State) : Outcome :=
  execute s fun t => do
    let a ← t.reg x
    let b ← t.reg y
    .ok (writeWithFlag x (addByte a b) (carryFlag a b) t)

/-- SUB Vx, Vy: VF := 1 if Vx >= Vy (R158). -/
def execSub (x y : Reg) (s : State) : Outcome :=
  execute s fun t => do
    let a ← t.reg x
    let b ← t.reg y
    .ok (writeWithFlag x (subByte a b) (notBorrowFlag a b) t)

/-- SHR Vx {, Vy}: Vx in place; Vy is not read (R159, D4). -/
def execShr (x _y : Reg) (s : State) : Outcome :=
  execute s fun t => do
    let a ← t.reg x
    .ok (writeWithFlag x (shiftRightByte a) (shiftRightFlag a) t)

/-- SUBN Vx, Vy: Vx := Vy - Vx, VF := 1 if Vy >= Vx (R160). -/
def execSubn (x y : Reg) (s : State) : Outcome :=
  execute s fun t => do
    let a ← t.reg x
    let b ← t.reg y
    .ok (writeWithFlag x (subByte b a) (notBorrowFlag b a) t)

/-- SHL Vx {, Vy}: Vx in place; Vy is not read (R161, D4). -/
def execShl (x _y : Reg) (s : State) : Outcome :=
  execute s fun t => do
    let a ← t.reg x
    .ok (writeWithFlag x (shiftLeftByte a) (shiftLeftFlag a) t)

/-- RND Vx, NN: the cycle's random byte AND NN (R162, R163). -/
def execRnd (x : Reg) (nn : Byte) (s : State) : Outcome :=
  execute s fun t => .ok (t.setReg x (t.drawRnd &&& nn))

end Sys2Proof.Machine
end

