-- ==== Sys2Proof/Machine/Control.lean ====
section
/-! DEFINITION. Control flow and the system call (R130 to R142). -/

namespace Sys2Proof.Machine

/-- SYS NNN: an "explicit no-op" (R131). -/
def execSys (_nnn : Addr) (s : State) : Outcome := execute s fun t => .ok t

/-- RET: `pc <- stack[SP]`, then `SP <- SP - 1`; StackUnderflow when SP = 0 (R132). The popped entry keeps its value. -/
def execRet (s : State) : Outcome :=
  if s.sp = 0 then execute s fun _ => .error .stackUnderflow
  else
    match s.stack[s.sp] with
    | some ra => execute s fun t => .ok (t.popReturn ra)
    | none => .fault .unsetStackEntry

/-- JP NNN: "pc := addr, exactly, no further advance" (R133). -/
def execJp (nnn : Addr) (s : State) : Outcome := execute s fun t => .ok (t.setPc (zext16 nnn))

/-- CALL NNN: StackOverflow when SP = 15; else `SP <- SP + 1`, `stack[SP] <- pc` (p + 2), `pc <- NNN` (R134). -/
def execCall (nnn : Addr) (s : State) : Outcome :=
  execute s fun t =>
    if t.sp = 15 then .error .stackOverflow
    else .ok (t.pushReturn.setPc (zext16 nnn))

/-- SE Vx, NN (R135). -/
def execSeImm (x : Reg) (nn : Byte) (s : State) : Outcome :=
  execute s fun t => do
    let a ← t.reg x
    .ok (t.skipIf (a == nn))

/-- SNE Vx, NN (R136). -/
def execSneImm (x : Reg) (nn : Byte) (s : State) : Outcome :=
  execute s fun t => do
    let a ← t.reg x
    .ok (t.skipIf (a != nn))

/-- SE Vx, Vy (R137). -/
def execSeReg (x y : Reg) (s : State) : Outcome :=
  execute s fun t => do
    let a ← t.reg x
    let b ← t.reg y
    .ok (t.skipIf (a == b))

/-- SNE Vx, Vy (R138). -/
def execSneReg (x y : Reg) (s : State) : Outcome :=
  execute s fun t => do
    let a ← t.reg x
    let b ← t.reg y
    .ok (t.skipIf (a != b))

/-- JP V0, NNN: the offset register is always V0, and the sum is not reduced to 12 bits (R139). -/
def execJpV0 (nnn : Addr) (s : State) : Outcome :=
  execute s fun t => do
    let a ← t.reg 0
    .ok (t.setPc (zext16 nnn + a.setWidth 16))

end Sys2Proof.Machine
end

