-- ==== Sys2Proof/Machine/Display.lean ====
section
/-! DEFINITION. The display compositor (R38, R200 to R206): pixels, one sprite row, the rows of a sprite. -/

namespace Sys2Proof.Machine

/-- `pix(c, r)`: column c, row r (R11, R38). -/
def pix (d : Display) (c : Fin 64) (r : Fin 32) : Bool := d[r][c]

/-- Invert one pixel. -/
def flipPix (d : Display) (c : Fin 64) (r : Fin 32) : Display := d.set r (d[r].set c (!d[r][c]))

/-- Every pixel false (R201). -/
def blankDisplay : Display := Vector.replicate 32 (Vector.replicate 64 false)

/-- `(ox + c) mod 64`: columns wrap within the row (R204). -/
def spriteCol (ox : Byte) (c : Nat) : Fin 64 := ⟨(ox.toNat + c) % 64, Nat.mod_lt _ (by decide)⟩

/-- `(oy + r) mod 32`: rows wrap within the display height (R204). -/
def spriteRow (oy : Byte) (r : Nat) : Fin 32 := ⟨(oy.toNat + r) % 32, Nat.mod_lt _ (by decide)⟩

/-- The bit of a sprite row that lands c columns right of the origin: bit 7 is leftmost (R203). -/
def spriteBit (b : Byte) (c : Nat) : Bool := b.getLsbD (7 - c)

/-- The composition so far: the display, and whether a pixel that was true has been cleared. -/
structure Composite where
  display : Display
  hit : Bool
deriving DecidableEq, Repr

/-- One sprite bit XORed onto the display (the inner lines of R202). -/
def drawBit (ox oy : Byte) (r : Nat) (b : Byte) (acc : Composite) (c : Nat) : Composite :=
  if spriteBit b c then
    { display := flipPix acc.display (spriteCol ox c) (spriteRow oy r)
      hit := acc.hit || pix acc.display (spriteCol ox c) (spriteRow oy r) }
  else acc

/-- One row of eight bits, `for c in 0..7` (R202). -/
def drawRow (ox oy : Byte) (r : Nat) (b : Byte) (acc : Composite) : Composite :=
  [0, 1, 2, 3, 4, 5, 6, 7].foldl (drawBit ox oy r b) acc

/-- The rows of a list, each read from memory at I + r and drawn before the next is read (R202). I is read by the first
row, so a sprite of no rows reads neither I nor memory. -/
def drawRows (ox oy : Byte) (t : State) : List Nat → Composite → Exec Composite
  | [], acc => .ok acc
  | r :: rs, acc => do
    let base ← t.readIndex
    let b ← t.readByte (effAddr base r)
    drawRows ox oy t rs (drawRow ox oy r b acc)

end Sys2Proof.Machine
end

