-- ==== Sys2Proof/Machine/Draw.lean ====
section
/-! DEFINITION. The two display instructions (R200 to R206). -/

namespace Sys2Proof.Machine

/-- CLS: every pixel false (R201). -/
def execCls (s : State) : Outcome := execute s fun t => .ok (t.setDisplay blankDisplay)

/-- DRW Vx, Vy, N: N rows from memory at I XORed at the origin (Vx, Vy); VF := collision, written last (R202). -/
def execDrw (x y : Reg) (n : Nibble) (s : State) : Outcome :=
  execute s fun t => do
    let ox ← t.reg x
    let oy ← t.reg y
    let out ← drawRows ox oy t (List.range n.toNat) { display := t.display, hit := false }
    .ok ((t.setDisplay out.display).setFlag (collisionFlag out.hit))

end Sys2Proof.Machine
end

