-- ==== Sys2Proof/Machine/IndexMem.lean ====
section
/-! DEFINITION. The index register and memory instructions (R180 to R187). -/

namespace Sys2Proof.Machine

/-- LD I, NNN (R181). -/
def execLdI (nnn : Addr) (s : State) : Outcome := execute s fun t => .ok (t.setIndex (zext16 nnn))

/-- ADD I, Vx: the exact sum; IndexOverflow above 0xFFFF (R182). -/
def execAddIX (x : Reg) (s : State) : Outcome :=
  execute s fun t => do
    let i ← t.readIndex
    let a ← t.reg x
    if 0xFFFF < i.toNat + a.toNat then .error (.indexOverflow (i.toNat + a.toNat))
    else .ok (t.setIndex (BitVec.ofNat 16 (i.toNat + a.toNat)))

/-- LD F, Vx: I := FONT_BASE + 5 * Vx; InvalidDigit above 15 (R183). -/
def execLdFX (x : Reg) (s : State) : Outcome :=
  execute s fun t => do
    let d ← digitOperand x t
    .ok (t.setIndex (glyphAddr t.params.font d))

/-- LD B, Vx: the decimal digits of Vx at I, I + 1, I + 2 (R184). -/
def execLdBX (x : Reg) (s : State) : Outcome :=
  execute s fun t => do
    let v ← t.reg x
    let i ← t.readIndex
    let t1 ← t.writeByte (effAddr i 0) (bcdHundreds v)
    let t2 ← t1.writeByte (effAddr i 1) (bcdTens v)
    t2.writeByte (effAddr i 2) (bcdOnes v)

/-- LD [I], Vx: V0 to Vx to memory at I, ascending; I unchanged (R185). -/
def execLdMemX (x : Reg) (s : State) : Outcome := execute s fun t => storeRegs (regsUpTo x) t

/-- LD Vx, [I]: V0 to Vx from memory at I, ascending; I unchanged (R186). -/
def execLdXMem (x : Reg) (s : State) : Outcome := execute s fun t => loadRegs (regsUpTo x) t

end Sys2Proof.Machine
end

