-- ==== Sys2Proof/Machine/KeysTimers.lean ====
section
/-! DEFINITION. The keypad and timer instructions (R220 to R227) and the timer drain (R252). -/

namespace Sys2Proof.Machine

/-- SKP Vx: skip if the key Vx names is down (R221). -/
def execSkp (x : Reg) (s : State) : Outcome :=
  execute s fun t => do
    let down ← keyOperand x t
    .ok (t.skipIf down)

/-- SKNP Vx: skip if the key Vx names is up (R222). -/
def execSknp (x : Reg) (s : State) : Outcome :=
  execute s fun t => do
    let down ← keyOperand x t
    .ok (t.skipIf (!down))

/-- LD Vx, DT: the value before this cycle's drain (R223). -/
def execLdXDt (x : Reg) (s : State) : Outcome := execute s fun t => .ok (t.setReg x t.dt)

/-- LD Vx, K: the least key down; with no key down pc is rewound by 2, so the same word is fetched again (R224). -/
def execLdXK (x : Reg) (s : State) : Outcome :=
  execute s fun t =>
    match firstKeyDown t.keys with
    | some k => .ok (t.setReg x (BitVec.ofNat 8 k.val))
    | none => .ok (t.setPc (t.pc - 2#16))

/-- LD DT, Vx: `acc` is not reset (R225). -/
def execLdDtX (x : Reg) (s : State) : Outcome :=
  execute s fun t => do
    let a ← t.reg x
    .ok (t.setDelayTimer a)

/-- LD ST, Vx (R226). -/
def execLdStX (x : Reg) (s : State) : Outcome :=
  execute s fun t => do
    let a ← t.reg x
    .ok (t.setSoundTimer a)

/-- `floor(t / QUANTUM)`, the natural number of whole quanta in a time (R252). -/
def wholeQuanta (quantum t : Rat) : Nat := (t / quantum).floor.toNat

/-- A timer after q quanta: `max(0, timer - q)` (R252). -/
def drainTimer (timer : Byte) (q : Nat) : Byte := BitVec.ofNat 8 (timer.toNat - min timer.toNat q)

/-- `Drain(elapsed)` (R252): the remainder below one quantum stays in `acc`, and both timers lose the same q. -/
def State.drain (elapsed : Elapsed) (s : State) : State :=
  { s with
    acc := (s.acc + elapsed.seconds) - (wholeQuanta s.params.quantum (s.acc + elapsed.seconds) : Rat) * s.params.quantum
    dt := drainTimer s.dt (wholeQuanta s.params.quantum (s.acc + elapsed.seconds))
    st := drainTimer s.st (wholeQuanta s.params.quantum (s.acc + elapsed.seconds)) }

end Sys2Proof.Machine
end

