-- ==== Sys2Proof/Machine/HostPorts.lean ====
section
/-! DEFINITION. The ports of the driver (R260): `load`, `set_keys`, `display`, `sound_timer` and `status`. The port `cycle`
is in Machine/Cycle.lean, and the port `rnd` is `State.drawRnd`. -/

namespace Sys2Proof.Machine

/-- The most bytes an image may have: 4096 - 0x200 = 3584 (R283). -/
def maxImage : Nat := memSize - 0x200

/-- `load(image)` onto a machine at its initial values (R281, R283), `none` being an unreadable image: the bytes verbatim
from 0x200, pc = 0x200, status Running; RomLoadError, and no machine, when the image is unreadable or does not fit. -/
def load (s0 : State) (image : Option (List Byte)) : Except Error State :=
  match image with
  | none => .error ⟨.romLoadError none, none⟩
  | some bytes =>
    if maxImage < bytes.length then .error ⟨.romLoadError (some bytes.length), none⟩
    else .ok { s0 with mem := Memory.writeList s0.params.font s0.mem 0x200 bytes, pc := 0x200#16, status := .running }

/-- `Init(image)` (R280, R281): a new machine, every item at its value in R45 for these parameters, then the load. It is the
core's only reset: a running machine is never initialised in place. -/
def initMachine (params : Params) (image : Option (List Byte)) : Except Error State :=
  load { State.initial with params := params } image

/-- `set_keys(state)`: all 16 key states at once, halted or not (R244, R257). -/
def State.setKeys (keys : Keypad) (s : State) : State := { s with keys := keys }

/-- `display()`: the current grid (R258). -/
def State.displayPort (s : State) : Display := s.display

/-- `sound_timer()`: the current ST (R256). -/
def State.soundTimer (s : State) : Byte := s.st

/-- `status()`: Running or Halted(e) (R260). -/
def State.statusPort (s : State) : Status := s.status

/-- The code number of an error kind (R241, D24). -/
def Cause.code : Cause → Nat
  | .romLoadError _ => 1
  | .decodeError _ => 2
  | .stackOverflow => 3
  | .stackUnderflow => 4
  | .invalidDigit _ => 5
  | .memoryBoundsFault _ => 6
  | .uninitializedRead _ => 7
  | .keyIndexFault _ => 8
  | .indexOverflow _ => 9

/-- The driver's part before the cycle: `set_keys` if the current input has one (R257). -/
def State.deliverKeys (s : State) : State :=
  match s.currentInput.keys with
  | some keys => s.setKeys keys
  | none => s

/-- The current input is used up. -/
def State.consumeInput (s : State) : State := { s with inputs := s.inputs.tail, tick := s.tick + 1 }

end Sys2Proof.Machine
end

