-- ==== Sys2Proof/Machine/Cycle.lean ====
section
/-! DEFINITION. Fetch (R91), one cycle (R90), and the driver's loop around it (R260, R261). -/

namespace Sys2Proof.Machine

/-- The two bytes at pc and pc + 1, high byte first; each read checks its bounds, then its set-ness (R65, R91, R246). -/
def State.fetchWord (s : State) : Exec Word := do
  let hi ← s.readByte s.pc.toNat
  let lo ← s.readByte (s.pc.toNat + 1)
  .ok (wordOf hi lo)

/-- Fetch, then Classify; a word that is no instruction raises DecodeError (R90, R99). -/
def State.fetchInstr (s : State) : Exec Instr := do
  let w ← s.fetchWord
  match decode [hiByte w, loByte w] with
  | .ok (i, _) => .ok i
  | .error _ => .error (.decodeError w)

/-- Drain after Execute, in every cycle that did not raise (R90, R253). -/
def State.drainIfRunning (elapsed : Elapsed) (t : State) : State := if t.isRunning then t.drain elapsed else t

/-- Apply a change to the next state of an outcome. -/
def mapNext (g : State → State) (o : Outcome) : Outcome :=
  match o with
  | .next t => .next (g t)
  | .fault f => .fault f
  | .refused r => .refused r

/-- `cycle(elapsed)` (R90): a halted machine does nothing; else fetch, classify, execute, drain, and an error in any of
them keeps nothing of the cycle but the halt (R243, R244). -/
def cycle (elapsed : Elapsed) (s : State) : Outcome :=
  match s.status with
  | .halted _ => .next s
  | .running =>
    match s.fetchInstr with
    | .error c => .next (s.raise c)
    | .ok i => mapNext (State.drainIfRunning elapsed) (exec i s)

/-- One turn of the driver: `set_keys` if the current input has one, then `cycle` with its elapsed time; then that input
is used up (R257, R260, R261; DESIGN CHOICE, notes/assumptions/10.md). -/
def driverStep (s : State) : Outcome :=
  mapNext State.consumeInput (cycle s.currentInput.elapsed s.deliverKeys)

/-- A pc the word can be stored at and fetched from: the given one if it is at most 0xFFE (R30), else the load address. -/
def fetchablePc (pc : Word) : Word := if pc.toNat + 1 < memSize then pc else 0x200#16

/-- A state in which the fetch of the next step reads the word w: status Running, w at pc and pc + 1, high byte first
(DESIGN CHOICE, notes/assumptions/2.md). -/
def placeFetchWord (s : State) (w : Word) : State :=
  { s with
    status := .running
    pc := fetchablePc s.pc
    mem := Memory.writeList s.params.font s.mem (fetchablePc s.pc).toNat [hiByte w, loByte w] }

end Sys2Proof.Machine
end

