-- ==== Sys2Proof/Machine/Step.lean ====
section
/-! DEFINITION. The step, and the host's placing of one instruction word. -/

namespace Sys2Proof.Machine

/-- One step: one turn of the driver, which is one `cycle` of the core (R90, R261). -/
def step (s : State) : Host.Outcome State Fault Refusal := driverStep s

/-- `s` with the instruction whose bits spec/opcode_table.json numbers stored where the next step fetches. -/
def State.withFetchWord (s : State) (nbits w : Nat) : State := placeFetchWord s (tableWord nbits w)

end Sys2Proof.Machine
end

