-- ==== Sys2Proof/Safety.lean ====
section
/-! DEFINITION. The terms claims use: raising an error, the frame of an instruction, the invariant of the reachable states,
the pixels a sprite covers, runs of several steps, and the registers each instruction reads and writes. -/

namespace Sys2Proof.Machine

/-- Executing `i` in `s` raises the error `c`: the cycle commits nothing, and the machine halts with p = pc
(R243; that this is a next state is DEDUCED, notes/assumptions/6.md). -/
def Raises (i : Instr) (s : State) (c : Cause) : Prop := exec i s = .next (s.raise c)

/-- The parts of the core an instruction may write; pc is not among them. -/
structure Footprint where
  /-- The general registers it may write. -/
  regs : List Reg := []
  /-- I. -/
  index : Bool := false
  /-- The call stack and SP. -/
  callStack : Bool := false
  /-- DT. -/
  delayTimer : Bool := false
  /-- ST. -/
  soundTimer : Bool := false
  /-- The addresses of the bytes it may write. -/
  bytes : List Nat := []
  /-- The display. -/
  display : Bool := false

/-- Outside the footprint `w` and pc, nothing of `s` has changed in `t`: registers, I, the call stack, the timers and their
accumulator, every byte of memory, the display, the keypad, the status, the parameters and the pending inputs. -/
def Frame (w : Footprint) (s t : State) : Prop :=
  (∀ r : Reg, r ∉ w.regs → t.v[r] = s.v[r]) ∧
  (w.index = false → t.index = s.index) ∧
  (w.callStack = false → t.stack = s.stack ∧ t.sp = s.sp) ∧
  (w.delayTimer = false → t.dt = s.dt) ∧
  (w.soundTimer = false → t.st = s.st) ∧
  (∀ a : Nat, a ∉ w.bytes → t.byteAt a = s.byteAt a) ∧
  (w.display = false → t.display = s.display) ∧
  t.acc = s.acc ∧ t.keys = s.keys ∧ t.status = s.status ∧
  t.params = s.params ∧ t.inputs = s.inputs ∧ t.tick = s.tick

/-- What every step keeps, from any state that has it. -/
structure Inv (s : State) : Prop where
  /-- Memory is in its canonical form. -/
  mem_wf : Memory.wf s.params.font s.mem
  /-- `0 <= acc < QUANTUM` between cycles (R35). -/
  acc_nonneg : 0 ≤ s.acc
  acc_lt : s.acc < s.params.quantum
  /-- "pc never exceeds 0x10FE" (R30). -/
  pc_le : s.pc.toNat ≤ 0x10FE
  /-- "`stack[0]` is never written" (R31), and it is unset at initialisation (R45). -/
  stack_zero : s.stack[0] = none
  /-- The live entries `stack[1..SP]` hold return addresses (R32, R132), at most 0x1000 (R30). -/
  stack_live : ∀ k : Fin 16, k ≠ 0 → k ≤ s.sp → ∃ ra : Word, s.stack[k] = some ra ∧ ra.toNat ≤ 0x1000
  /-- A halt records the fetch address, which is still the pc (R243, R247). -/
  halt_precise : ∀ e : Error, s.status = .halted e → e.p = some s.pc

/-- The sprite of `n` rows at origin (ox, oy) has a 1-bit that lands on column c and row r: bit 7 of a row byte at column
ox, columns mod 64, rows mod 32 (R202, R203, R204). -/
def SpriteLit (ox oy : Byte) (n : Nat) (rows : Nat → Byte) (c : Fin 64) (r : Fin 32) : Prop :=
  ∃ k, k < n ∧ ∃ j, j < 8 ∧ (rows k).getLsbD (7 - j) = true ∧ c.val = (ox.toNat + j) % 64 ∧ r.val = (oy.toNat + k) % 32

/-- The model's end of a run: the state after `n` steps, a halted machine stepping on, or the first fault or refusal. R291
leaves the definition to the model (DESIGN CHOICE, notes/assumptions/16.md). -/
def runSteps : Nat → State → Outcome
  | 0, s => .next s
  | n + 1, s =>
    match step s with
    | .next t => runSteps n t
    | .fault f => .fault f
    | .refused r => .refused r

/-- The general registers an instruction reads (the table of R24). -/
def readsOf : Instr → List Reg
  | .seImm x _ | .sneImm x _ | .addImm x _ | .shr x _ | .shl x _ | .skp x | .sknp x | .ldDtX x | .ldStX x | .addIX x
  | .ldFX x | .ldBX x => [x]
  | .seReg x y | .sneReg x y | .or x y | .and x y | .xor x y | .addReg x y | .sub x y | .subn x y | .drw x y _ => [x, y]
  | .ldReg _ y => [y]
  | .jpV0 _ => [0]
  | .ldMemX x => regsUpTo x
  | .cls | .ret | .sys _ | .jp _ | .call _ | .ldImm _ _ | .ldI _ | .rnd _ _ | .ldXDt _ | .ldXK _ | .ldXMem _ => []

/-- The general registers an instruction writes (the table of R24). -/
def writesOf : Instr → List Reg
  | .ldImm x _ | .addImm x _ | .ldReg x _ | .or x _ | .and x _ | .xor x _ | .rnd x _ | .ldXDt x | .ldXK x => [x]
  | .addReg x _ | .sub x _ | .subn x _ | .shr x _ | .shl x _ => [x, 15]
  | .drw _ _ _ => [15]
  | .ldXMem x => regsUpTo x
  | .cls | .ret | .sys _ | .jp _ | .call _ | .seImm _ _ | .sneImm _ _ | .seReg _ _ | .sneReg _ _ | .ldI _ | .jpV0 _
  | .skp _ | .sknp _ | .ldDtX _ | .ldStX _ | .addIX _ | .ldFX _ | .ldBX _ | .ldMemX _ => []

end Sys2Proof.Machine
end

