-- ==== Sys2Proof/Certificates/Slice0/Obligations.lean ====
section
/-! DEFINITION. The statements for the provers, each from the spec's numbered rules. -/

open Sys2Proof Sys2Proof.Machine

/-! ### Encoding -/

/-- Words written out from the patterns of R100 and the classification vectors of 95_test_vectors.md Part 2 decode as
they say, high byte first. The patterns are the spec's decisions D1 to D3. -/
def Obligations.SampleWordsDecode : Prop :=
  decode [0x00, 0xE0] = .ok (.cls, []) ∧
  decode [0x00, 0xEE] = .ok (.ret, []) ∧
  decode [0x00, 0xE1] = .ok (.sys 0x0E1, []) ∧
  decode [0x5A, 0xB0] = .ok (.seReg 0xA 0xB, []) ∧
  decode [0x51, 0x21] = .error (.illegalWord 0x5121) ∧
  decode [0x81, 0x2E] = .ok (.shl 1 2, []) ∧
  decode [0x6A, 0x2B] = .ok (.ldImm 0xA 0x2B, []) ∧
  decode [0xA2, 0xF0] = .ok (.ldI 0x2F0, []) ∧
  decode [0xD0, 0x15] = .ok (.drw 0 1 5, []) ∧
  decode [0xE1, 0xA1] = .ok (.sknp 1, []) ∧
  decode [0xFF, 0x65] = .ok (.ldXMem 0xF, []) ∧
  decode [0xF1, 0x75] = .error (.illegalWord 0xF175)

/-- Decoding the bytes of any well-formed instruction gives it back, and leaves the bytes after it alone. -/
def Obligations.DecodeOfEncode : Prop :=
  ∀ (i : Instr) (rest : List Byte), i.wellFormed = true → decode (encodeBytes i ++ rest) = .ok (i, rest)

/-- A word classifies as `i` exactly when `i` is well-formed and its encoding is that word: no two instructions share
a word, and no bit of a word is dropped. -/
def Obligations.ClassifyIffEncodes : Prop :=
  ∀ (w : Word) (i : Instr), classify w = .ok i ↔ i.wellFormed = true ∧ encode i = w

/-- The illegal words are exactly the five groups of 30_encoding.md section 5, and a running machine whose fetch reads
one halts with DecodeError. -/
def Obligations.IllegalWordsAreTheListed : Prop :=
  (∀ w : Word, classify w = .error (.illegalWord w) ↔
    (opOf w = 0x5 ∧ nOf w ≠ 0) ∨
    (opOf w = 0x8 ∧ nOf w ∈ ([0x8, 0x9, 0xA, 0xB, 0xC, 0xD, 0xF] : List Nibble)) ∨
    (opOf w = 0x9 ∧ nOf w ≠ 0) ∨
    (opOf w = 0xE ∧ nnOf w ∉ ([0x9E, 0xA1] : List Byte)) ∨
    (opOf w = 0xF ∧ nnOf w ∉ ([0x07, 0x0A, 0x15, 0x18, 0x1E, 0x29, 0x33, 0x55, 0x65] : List Byte))) ∧
  (∀ (s : State) (w : Word), s.status = .running → s.fetchWord = .ok w → classify w = .error (.illegalWord w) →
    ∀ e : Elapsed, cycle e s = .next (s.raise (.decodeError w)))

/-! ### The cycle -/

/-- R90, R253, R257: a step of a running machine whose bytes at pc and pc + 1 decode to `i` delivers the driver's
keys, executes `i` and drains the timers if Execute raised nothing. The model's own choices: that a step is one turn
of the driver (notes/assumptions/10.md) which uses up one queued input (4.md), and that a fault of `exec` stops the
step (8.md). -/
def Obligations.StepRunsDecodedInstruction : Prop :=
  ∀ (s : State) (hi lo : Byte) (i : Instr),
    s.status = .running →
    s.byteAt s.pc.toNat = some hi → s.byteAt (s.pc.toNat + 1) = some lo →
    decode [hi, lo] = .ok (i, []) →
    (∀ t : State, exec i s.deliverKeys = .next t →
      step s = .next (if t.status = .running then (t.drain s.currentInput.elapsed).consumeInput else t.consumeInput)) ∧
    (∀ f : Fault, exec i s.deliverKeys = .fault f → step s = .fault f)

/-- The host's placing of a word: after it the machine is running and the next fetch reads exactly that word's
instruction, whatever the state was (notes/assumptions/2.md). -/
def Obligations.PlacedWordIsFetchedNext : Prop :=
  ∀ (s : State) (w : Nat) (i : Instr), decodeTableWord 16 w = some i →
    (s.withFetchWord 16 w).status = .running ∧ (s.withFetchWord 16 w).fetchInstr = .ok i ∧
    (s.pc.toNat ≤ 0xFFE → (s.withFetchWord 16 w).pc = s.pc ∧ (s.withFetchWord 16 w).v = s.v)

/-- The fetch (R91) reads the byte at pc as the high byte and the byte at pc + 1 as the low byte, at any pc, odd or
even, up to 0xFFE (R65); and the first of its four checks that fails is the error the cycle raises (R66, R246). The
errors are the spec's decisions D6 and D12, the unaligned fetch its D10. -/
def Obligations.FetchReadsBigEndianOrRaises : Prop :=
  ∀ (s : State) (e : Elapsed), s.status = .running →
    (∀ hi lo : Byte, s.byteAt s.pc.toNat = some hi → s.byteAt (s.pc.toNat + 1) = some lo →
      s.pc.toNat ≤ 0xFFE ∧ ∃ w : Word, s.fetchWord = .ok w ∧ w.toNat = hi.toNat * 256 + lo.toNat) ∧
    (4096 ≤ s.pc.toNat → cycle e s = .next (s.raise (.memoryBoundsFault s.pc.toNat))) ∧
    (s.pc.toNat < 4096 → s.byteAt s.pc.toNat = none →
      cycle e s = .next (s.raise (.uninitializedRead (.mem s.pc.toNat)))) ∧
    (∀ hi : Byte, s.byteAt s.pc.toNat = some hi → s.pc.toNat = 0xFFF →
      cycle e s = .next (s.raise (.memoryBoundsFault 0x1000))) ∧
    (∀ hi : Byte, s.byteAt s.pc.toNat = some hi → s.pc.toNat < 0xFFF → s.byteAt (s.pc.toNat + 1) = none →
      cycle e s = .next (s.raise (.uninitializedRead (.mem (s.pc.toNat + 1)))))

/-- Executing an instruction either leaves the status as it was, or raises: then `status` alone has changed (R243).
The all-or-nothing rule is the spec's decision D18; that a raise is a next state is notes/assumptions/6.md. -/
def Obligations.RaisingCommitsNothing : Prop :=
  (∀ (i : Instr) (s t : State), exec i s = .next t → t.status = s.status ∨ ∃ c, t = s.raise c) ∧
  (∀ (e : Elapsed) (s t : State), s.status = .running → cycle e s = .next t → t.status ≠ .running →
    ∃ c, t = s.raise c ∧ t.status = .halted ⟨c, some s.pc⟩ ∧ t.v = s.v ∧ t.index = s.index ∧ t.pc = s.pc ∧
      t.sp = s.sp ∧ t.stack = s.stack ∧ t.mem = s.mem ∧ t.display = s.display ∧ t.dt = s.dt ∧ t.st = s.st ∧
      t.acc = s.acc)

/-- A halted machine stays as it is over any number of steps, but for the keypad, which changes only by a `set_keys`
(R244, the spec's decision D18). The model's own choices: that the steps are turns of the driver which use up the
queued inputs, one each, and count `tick` (notes/assumptions/4.md, 10.md, 12.md), that a halted machine steps to a
next state (6.md), and the run of n steps (16.md). -/
def Obligations.HaltedMachineIsFrozen : Prop :=
  ∀ (n : Nat) (s : State) (e : Error), s.status = .halted e →
    ∃ t, runSteps n s = .next t ∧
      t = { s with keys := t.keys, inputs := t.inputs, tick := t.tick } ∧
      t.inputs = s.inputs.drop n ∧
      ((∀ inp ∈ s.inputs.take n, inp.keys = none) → t.keys = s.keys)

/-- R257, R244: `set_keys` before a cycle overwrites the whole keypad and changes nothing else, in a running machine
and in a halted one; with no `set_keys` the previous snapshot stands. After the step, whatever the cycle did, the
keypad is that snapshot, and a halted machine has changed in nothing else. The model's own choices: that a step is at
most one `set_keys` and one cycle (notes/assumptions/10.md), that the snapshot comes from the queue of inputs, which
the step uses up (4.md), and that a halted machine steps to a next state (6.md). -/
def Obligations.SetKeysOverwritesWholesale : Prop :=
  ∀ s : State,
    (∀ (inp : CycleInput) (rest : List CycleInput) (keys : Keypad), s.inputs = inp :: rest → inp.keys = some keys →
      (∀ k : Key, s.deliverKeys.keys[k] = keys[k]) ∧ s.deliverKeys = { s with keys := s.deliverKeys.keys } ∧
      (∀ t : State, step s = .next t → t.inputs = rest ∧ ∀ k : Key, t.keys[k] = keys[k]) ∧
      (∀ e : Error, s.status = .halted e →
        ∃ t, step s = .next t ∧ t.status = .halted e ∧ t.inputs = rest ∧ (∀ k : Key, t.keys[k] = keys[k]) ∧
          t.v = s.v ∧ t.index = s.index ∧ t.pc = s.pc ∧ t.stack = s.stack ∧ t.sp = s.sp ∧ t.dt = s.dt ∧
          t.st = s.st ∧ t.acc = s.acc ∧ t.mem = s.mem ∧ t.display = s.display)) ∧
    ((∀ inp ∈ s.inputs.take 1, inp.keys = none) →
      s.deliverKeys = s ∧ ∀ t : State, step s = .next t → t.keys = s.keys)

/-- Every step keeps the invariant. -/
def Obligations.StepKeepsInvariant : Prop := ∀ s t : State, Inv s → step s = .next t → Inv t

/-- The invariant holds at reset and at the initial values of R45. -/
def Obligations.ResetHasInvariant : Prop := Inv State.reset ∧ Inv State.initial

/-- From a state that meets the invariant every step answers a next state: there is no fault and no refusal; and the
only stop of `exec` on any state is RET reading an unset entry with SP >= 1, which the invariant rules out. The stop
is the model's choice (notes/assumptions/8.md), and so is that an error is a next state (6.md). -/
def Obligations.StepAlwaysAnswersNext : Prop :=
  (∀ s : State, Inv s → ∃ t, step s = .next t) ∧
  (∀ (i : Instr) (s : State), (∃ t, exec i s = .next t) ∨
    (i = .ret ∧ s.sp ≠ 0 ∧ s.stack[s.sp] = none ∧ exec i s = .fault .unsetStackEntry))

/-- Which instructions write which part: I only ANNN, FX1E and FX29 (R28); the call stack and SP only CALL and RET
(R31, R32); the display only CLS and DRW (R38); memory only FX33 and FX55 (R60); DT only FX15 and ST only FX18 (R254);
the keypad, the accumulator and the parameters none (R35, R39). -/
def Obligations.OnlyTheListedInstructionsWrite : Prop :=
  ∀ (i : Instr) (s t : State), exec i s = .next t →
    (t.index ≠ s.index → (∃ nnn, i = .ldI nnn) ∨ (∃ x, i = .addIX x) ∨ (∃ x, i = .ldFX x)) ∧
    ((t.stack ≠ s.stack ∨ t.sp ≠ s.sp) → i = .ret ∨ ∃ nnn, i = .call nnn) ∧
    (t.display ≠ s.display → i = .cls ∨ ∃ x y n, i = .drw x y n) ∧
    (t.mem ≠ s.mem → (∃ x, i = .ldBX x) ∨ ∃ x, i = .ldMemX x) ∧
    (t.dt ≠ s.dt → ∃ x, i = .ldDtX x) ∧
    (t.st ≠ s.st → ∃ x, i = .ldStX x) ∧
    t.keys = s.keys ∧ t.acc = s.acc ∧ t.params = s.params ∧ t.inputs = s.inputs ∧ t.tick = s.tick

/-- R24: an instruction writes no general register outside its row's writes, and a general register outside its row's
reads has no influence on what it does: whatever that register holds, set or unset, the outcome is the same but for
that register, which either is overwritten alike or keeps what it held. -/
def Obligations.RegisterReadersAndWriters : Prop :=
  (∀ (i : Instr) (s t : State) (r : Reg), exec i s = .next t → r ∉ writesOf i → t.v[r] = s.v[r]) ∧
  (∀ (i : Instr) (s t : State) (r : Reg) (b : Option Byte), r ∉ readsOf i → exec i s = .next t →
    ∃ t', exec i { s with v := s.v.set r b } = .next t' ∧ (t' = t ∨ t' = { t with v := t.v.set r b }))

/-- An unset register that the row of R24 reads first is an error: with Vx unset (for 8XY0 Vy, for BNNN V0, for FX55
V0, for FX1E with I set, for FX55 with I set) the cycle raises UninitializedRead of that register, and with I unset
UninitializedRead of I where I is read first (R27, R246). The error is the spec's decision D12, its place in the order
D17 and notes/assumptions/9.md. -/
def Obligations.UnsetReadRaises : Prop :=
  ∀ (s : State) (x y : Reg) (nn : Byte) (n : Nibble) (nnn : Addr),
    (s.v[x] = none → ∀ i ∈ [Instr.seImm x nn, .sneImm x nn, .seReg x y, .sneReg x y, .addImm x nn, .ldReg y x, .or x y,
        .and x y, .xor x y, .addReg x y, .sub x y, .shr x y, .subn x y, .shl x y, .drw x y n, .skp x, .sknp x,
        .ldDtX x, .ldStX x, .ldFX x, .ldBX x], Raises i s (.uninitializedRead (.reg x))) ∧
    (s.v[(0 : Reg)] = none → Raises (.jpV0 nnn) s (.uninitializedRead (.reg 0))) ∧
    (∀ i : Word, s.index = some i → s.v[(0 : Reg)] = none → Raises (.ldMemX x) s (.uninitializedRead (.reg 0))) ∧
    (∀ i : Word, s.index = some i → s.v[x] = none → Raises (.addIX x) s (.uninitializedRead (.reg x))) ∧
    (s.index = none → ∀ i ∈ [Instr.addIX x, .ldMemX x, .ldXMem x], Raises i s (.uninitializedRead .index)) ∧
    (∀ a : Byte, s.v[x] = some a → s.index = none → Raises (.ldBX x) s (.uninitializedRead .index))

/-- R22: after each of the six flag-writing instructions that completes, VF holds 0 or 1. -/
def Obligations.FlagWritersLeaveZeroOrOne : Prop :=
  ∀ (s t : State) (x y : Reg) (n : Nibble) (i : Instr),
    i ∈ [Instr.addReg x y, .sub x y, .subn x y, .shr x y, .shl x y, .drw x y n] →
    s.status = .running → exec i s = .next t → t.status = .running →
    t.v[(15 : Reg)] = some 0#8 ∨ t.v[(15 : Reg)] = some 1#8

/-- No instruction reads the accumulator (R35) or the sound timer (R34): changing either changes nothing else of what
the instruction does. -/
def Obligations.AccumulatorAndSoundTimerUnread : Prop :=
  ∀ (i : Instr) (s t : State) (acc : Rat) (st : Byte), exec i s = .next t →
    ∃ t', exec i { s with acc := acc, st := st } = .next t' ∧ t'.acc = acc ∧
      t' = { t with acc := t'.acc, st := t'.st } ∧
      ((∀ x, i ≠ .ldStX x) → t'.st = st)

/-! ### Initialisation -/

/-- R45, R281: a machine initialised with any parameters and an image that fits holds exactly the values of R45's
table: registers, I and stack unset, pc = 0x200, SP, timers and accumulator 0, display clear, keys up, running; the
font at FONT_BASE, the image at 0x200, every other byte unset. The values are the spec's decisions D11, D12, D13, D16
and D26. -/
def Obligations.InitialisationGivesTheTable : Prop :=
  ∀ (p : Params) (bytes : List Byte), bytes.length ≤ 3584 →
    ∃ s, initMachine p (some bytes) = .ok s ∧ s.params = p ∧ (∀ r : Reg, s.v[r] = none) ∧ s.index = none ∧
      s.pc = 0x200 ∧ (∀ k : Fin 16, s.stack[k] = none) ∧ s.sp = 0 ∧ s.dt = 0 ∧ s.st = 0 ∧ s.acc = 0 ∧
      s.status = .running ∧ (∀ k : Key, s.keys[k] = false) ∧
      (∀ (c : Fin 64) (r : Fin 32), pix s.display c r = false) ∧
      (∀ (d : Fin 16) (j : Fin 5), s.byteAt (p.font.base.toNat + 5 * d.val + j.val) = some p.font.glyphs[d][j]) ∧
      (∀ j : Nat, ∀ h : j < bytes.length, s.byteAt (0x200 + j) = some bytes[j]) ∧
      (∀ a : Nat, (a < p.font.base.toNat ∨ p.font.base.toNat + 79 < a) → (a < 0x200 ∨ 0x200 + bytes.length ≤ a) →
        s.byteAt a = none)

/-- The reset state is the machine initialised with the default parameters and an empty image, except that the sixteen
general registers and I hold 0: that is the model's choice (notes/assumptions/1.md), not the spec's. -/
def Obligations.ResetDiffersFromTableInRegistersOnly : Prop :=
  initMachine defaultParams (some []) = .ok State.initial ∧
  (∀ r : Reg, State.reset.v[r] = some 0#8) ∧ State.reset.index = some 0#16 ∧
  State.reset = { State.initial with v := State.reset.v, index := State.reset.index }

/-- R283: an image of at most 3584 bytes is placed verbatim from 0x200, and nothing else of memory changes; a longer
or an unreadable image gives RomLoadError and no machine. That the error of an unreadable image records no length is
the model's choice, not R283's (notes/assumptions/13.md). -/
def Obligations.LoadPlacesImageVerbatim : Prop :=
  ∀ s0 : State,
    (∀ bytes : List Byte, bytes.length ≤ 3584 →
      ∃ s, load s0 (some bytes) = .ok s ∧ s.pc = 0x200 ∧ s.status = .running ∧
        (∀ j : Nat, ∀ h : j < bytes.length, s.byteAt (0x200 + j) = some bytes[j]) ∧
        (∀ a : Nat, a < 0x200 ∨ 0x200 + bytes.length ≤ a → s.byteAt a = s0.byteAt a) ∧
        s = { s0 with mem := s.mem, pc := s.pc, status := s.status }) ∧
    (∀ bytes : List Byte, 3584 < bytes.length →
      load s0 (some bytes) = .error ⟨.romLoadError (some bytes.length), none⟩) ∧
    load s0 none = .error ⟨.romLoadError none, none⟩

/-- Loading an image onto a machine with the invariant, at its initial values, gives a machine with the invariant. -/
def Obligations.LoadKeepsInvariant : Prop :=
  ∀ (image : Option (List Byte)) (s0 s : State), Inv s0 → load s0 image = .ok s → Inv s

/-! ### Memory -/

/-- R66, R67, R71: a write at an address below 4096 succeeds, a read there then gives the byte written, and every
other address reads as before; at or above 4096 both raise MemoryBoundsFault; a read of an unset cell raises
UninitializedRead. The errors are the spec's decisions D6 and D12. -/
def Obligations.MemReadMemWrite : Prop :=
  ∀ (s : State) (a : Nat) (b : Byte),
    (a < 4096 → ∃ t, s.writeByte a b = .ok t ∧ t.readByte a = .ok b ∧
      (∀ a' : Nat, a' ≠ a → t.byteAt a' = s.byteAt a' ∧ t.readByte a' = s.readByte a') ∧ t = { s with mem := t.mem }) ∧
    (4096 ≤ a → s.writeByte a b = .error (.memoryBoundsFault a) ∧ s.readByte a = .error (.memoryBoundsFault a)) ∧
    (a < 4096 → s.byteAt a = none → s.readByte a = .error (.uninitializedRead (.mem a))) ∧
    (s.byteAt a = some b → a < 4096 ∧ s.readByte a = .ok b)

/-- The canonical form: two canonical memories under one font whose cells read alike are the same list. The form is
the model's own (notes/assumptions/7.md). -/
def Obligations.CanonicalMemoriesAreEqualData : Prop :=
  ∀ (f : Font) (m m' : Memory), Memory.wf f m → Memory.wf f m' →
    (∀ a : Nat, a < 4096 → Memory.read f m a = Memory.read f m' a) → m = m'

/-- R74: the two bytes written at pc and pc + 1 are the word the next fetch reads. -/
def Obligations.FetchSeesWrittenBytes : Prop :=
  ∀ (s t u : State) (w : Word), s.writeByte s.pc.toNat (hiByte w) = .ok t → t.writeByte (s.pc.toNat + 1) (loByte w) = .ok u →
    u.fetchWord = .ok w

/-! ### Timers -/

/-- R252: the drain takes the whole quanta out of `acc + elapsed`, keeps the remainder below one quantum, and lowers
each timer by that number, never below zero; nothing else changes. The quantum and the remainder are the spec's
decisions D15 and D16. -/
def Obligations.DrainTakesWholeQuanta : Prop :=
  ∀ (s : State) (e : Elapsed), 0 ≤ s.acc →
    ∃ q : Nat, s.acc + e.seconds = (s.drain e).acc + q * s.params.quantum ∧
      0 ≤ (s.drain e).acc ∧ (s.drain e).acc < s.params.quantum ∧
      (s.drain e).dt.toNat = s.dt.toNat - q ∧ (s.drain e).st.toNat = s.st.toNat - q ∧
      s.drain e = { s with acc := (s.drain e).acc, dt := (s.drain e).dt, st := (s.drain e).st }

/-- Two drains in a row are one drain of the summed time: no time is lost between cycles. -/
def Obligations.DrainsAddUp : Prop :=
  ∀ (s : State) (e₁ e₂ e : Elapsed), 0 ≤ s.acc → e.seconds = e₁.seconds + e₂.seconds →
    (s.drain e₁).drain e₂ = s.drain e

/-- R255: with `acc + elapsed` exactly five quanta and DT = 10, a cycle whose instruction neither raises nor writes DT
leaves DT = 5 and `acc` = 0; and a timer below the number of quanta ends at 0. -/
def Obligations.FiveQuantaLowerDelayTimerByFive : Prop :=
  ∀ (s t : State) (e : Elapsed) (i : Instr), s.status = .running → s.fetchInstr = .ok i → (∀ x, i ≠ .ldDtX x) →
    s.acc + e.seconds = 5 * s.params.quantum → cycle e s = .next t → t.status = .running →
    (s.dt = 10 → t.dt = 5) ∧ (s.dt.toNat ≤ 5 → t.dt = 0) ∧ t.acc = 0

/-! ### Control flow -/

/-- R131: SYS is a no-op for every address but those of CLS and RET. The encoding is the spec's decision D1. -/
def Obligations.SysIsNoOp : Prop :=
  ∀ (nnn : Addr) (s : State),
    (nnn ≠ 0x0E0 → nnn ≠ 0x0EE → classify (formA 0x0 nnn) = .ok (.sys nnn)) ∧
    ∃ t, exec (.sys nnn) s = .next t ∧ t.pc = s.pc + 2 ∧ Frame {} s t

/-- R132: RET takes pc from `stack[SP]` and lowers SP, leaving the entry; with SP = 0 it raises StackUnderflow. The
encoding is the spec's decision D1. -/
def Obligations.RetPopsReturnAddress : Prop :=
  ∀ s : State,
    classify 0x00EE = .ok .ret ∧
    (s.sp = 0 → Raises .ret s .stackUnderflow) ∧
    (∀ ra : Word, s.sp ≠ 0 → s.stack[s.sp] = some ra →
      ∃ t, exec .ret s = .next t ∧ t.pc = ra ∧ t.sp.val + 1 = s.sp.val ∧ t.stack = s.stack ∧
        Frame { callStack := true } s t)

/-- R133: JP sets pc to exactly NNN. The encoding is the spec's decision D1. -/
def Obligations.JpSetsPcExactly : Prop :=
  ∀ (nnn : Addr) (s : State),
    classify (formA 0x1 nnn) = .ok (.jp nnn) ∧
    ∃ t, exec (.jp nnn) s = .next t ∧ t.pc.toNat = nnn.toNat ∧ Frame {} s t

/-- R134: CALL pushes p + 2 one level deeper and jumps; with SP = 15 it raises StackOverflow. The encoding is the
spec's decision D1. -/
def Obligations.CallPushesReturnAddress : Prop :=
  ∀ (nnn : Addr) (s : State),
    classify (formA 0x2 nnn) = .ok (.call nnn) ∧
    (s.sp = 15 → Raises (.call nnn) s .stackOverflow) ∧
    (s.sp ≠ 15 → ∃ t, exec (.call nnn) s = .next t ∧ t.sp.val = s.sp.val + 1 ∧ t.stack[t.sp] = some (s.pc + 2) ∧
      (∀ k : Fin 16, k ≠ t.sp → t.stack[k] = s.stack[k]) ∧ t.pc.toNat = nnn.toNat ∧ Frame { callStack := true } s t)

/-- A CALL that does not overflow, then, from whatever state between has the same call stack, a RET: execution resumes
after the CALL, with the depth as before (R132, R134). -/
def Obligations.RetReturnsAfterCall : Prop :=
  ∀ (nnn : Addr) (s t u : State), s.sp ≠ 15 → exec (.call nnn) s = .next t → u.stack = t.stack → u.sp = t.sp →
    ∃ w, exec .ret u = .next w ∧ w.pc = s.pc + 2 ∧ w.sp = s.sp

/-- R135, R136: the skips on a register and an immediate add exactly 2 to pc when the condition holds. The encoding is
the spec's decision D1, the raise on an unset register its D12. -/
def Obligations.SkipsOnImmediate : Prop :=
  ∀ (x : Reg) (nn : Byte) (s : State),
    classify (formXNN 0x3 x nn) = .ok (.seImm x nn) ∧ classify (formXNN 0x4 x nn) = .ok (.sneImm x nn) ∧
    (s.v[x] = none → Raises (.seImm x nn) s (.uninitializedRead (.reg x)) ∧
      Raises (.sneImm x nn) s (.uninitializedRead (.reg x))) ∧
    (∀ a : Byte, s.v[x] = some a →
      (∃ t, exec (.seImm x nn) s = .next t ∧ t.pc = (if a = nn then s.pc + 4 else s.pc + 2) ∧ Frame {} s t) ∧
      (∃ t, exec (.sneImm x nn) s = .next t ∧ t.pc = (if a ≠ nn then s.pc + 4 else s.pc + 2) ∧ Frame {} s t))

/-- R137, R138: the skips on two registers. The encoding is the spec's decisions D1 and D3, the raise on an unset
register its D12. That Vx is the register named when both are unset is the model's reading of one line of pseudocode
(DEDUCED, notes/assumptions/9.md). -/
def Obligations.SkipsOnRegisters : Prop :=
  ∀ (x y : Reg) (s : State),
    classify (formXYN 0x5 x y 0x0) = .ok (.seReg x y) ∧ classify (formXYN 0x9 x y 0x0) = .ok (.sneReg x y) ∧
    (∀ i ∈ [Instr.seReg x y, .sneReg x y],
      (s.v[x] = none → Raises i s (.uninitializedRead (.reg x))) ∧
      (s.v[x] ≠ none → s.v[y] = none → Raises i s (.uninitializedRead (.reg y)))) ∧
    (∀ a b : Byte, s.v[x] = some a → s.v[y] = some b →
      (∃ t, exec (.seReg x y) s = .next t ∧ t.pc = (if a = b then s.pc + 4 else s.pc + 2) ∧ Frame {} s t) ∧
      (∃ t, exec (.sneReg x y) s = .next t ∧ t.pc = (if a ≠ b then s.pc + 4 else s.pc + 2) ∧ Frame {} s t))

/-- R139: JP V0 sets pc to NNN plus V0, not reduced to 12 bits. The encoding is the spec's decision D1, the raise on
an unset register its D12. -/
def Obligations.JpV0AddsRegisterZero : Prop :=
  ∀ (nnn : Addr) (s : State),
    classify (formA 0xB nnn) = .ok (.jpV0 nnn) ∧
    (s.v[(0 : Reg)] = none → Raises (.jpV0 nnn) s (.uninitializedRead (.reg 0))) ∧
    (∀ a : Byte, s.v[(0 : Reg)] = some a →
      ∃ t, exec (.jpV0 nnn) s = .next t ∧ t.pc.toNat = nnn.toNat + a.toNat ∧ Frame {} s t)

/-! ### Moves, arithmetic and logic -/

/-- R151, R153: the moves into Vx; no flag. The encoding is the spec's decision D1, the raise on an unset register its
D12. -/
def Obligations.MovesIntoRegister : Prop :=
  ∀ (x y : Reg) (nn : Byte) (s : State),
    classify (formXNN 0x6 x nn) = .ok (.ldImm x nn) ∧ classify (formXYN 0x8 x y 0x0) = .ok (.ldReg x y) ∧
    (∃ t, exec (.ldImm x nn) s = .next t ∧ t.pc = s.pc + 2 ∧ t.v[x] = some nn ∧ Frame { regs := [x] } s t) ∧
    (s.v[y] = none → Raises (.ldReg x y) s (.uninitializedRead (.reg y))) ∧
    (∀ b : Byte, s.v[y] = some b →
      ∃ t, exec (.ldReg x y) s = .next t ∧ t.pc = s.pc + 2 ∧ t.v[x] = some b ∧ Frame { regs := [x] } s t)

/-- R152: ADD Vx, NN wraps mod 256 and records no carry. The encoding is the spec's decision D1, the raise on an unset
register its D12. -/
def Obligations.AddImmediateWraps : Prop :=
  ∀ (x : Reg) (nn : Byte) (s : State),
    classify (formXNN 0x7 x nn) = .ok (.addImm x nn) ∧
    (s.v[x] = none → Raises (.addImm x nn) s (.uninitializedRead (.reg x))) ∧
    (∀ a : Byte, s.v[x] = some a →
      ∃ t r, exec (.addImm x nn) s = .next t ∧ t.pc = s.pc + 2 ∧ t.v[x] = some r ∧
        r.toNat = (a.toNat + nn.toNat) % 256 ∧ Frame { regs := [x] } s t)

/-- R154, R155, R156: OR, AND and XOR, bit by bit; VF is not reset. The encoding is the spec's decision D1, the raise
on an unset register its D12. That Vx is the register named when both are unset is the model's reading of one line of
pseudocode (DEDUCED, notes/assumptions/9.md). -/
def Obligations.BitwiseLogic : Prop :=
  ∀ (x y : Reg) (s : State),
    classify (formXYN 0x8 x y 0x1) = .ok (.or x y) ∧ classify (formXYN 0x8 x y 0x2) = .ok (.and x y) ∧
    classify (formXYN 0x8 x y 0x3) = .ok (.xor x y) ∧
    (∀ i ∈ [Instr.or x y, .and x y, .xor x y],
      (s.v[x] = none → Raises i s (.uninitializedRead (.reg x))) ∧
      (s.v[x] ≠ none → s.v[y] = none → Raises i s (.uninitializedRead (.reg y)))) ∧
    (∀ a b : Byte, s.v[x] = some a → s.v[y] = some b →
      (∃ t r, exec (.or x y) s = .next t ∧ t.pc = s.pc + 2 ∧ t.v[x] = some r ∧ Frame { regs := [x] } s t ∧
        ∀ k : Nat, r.getLsbD k = (a.getLsbD k || b.getLsbD k)) ∧
      (∃ t r, exec (.and x y) s = .next t ∧ t.pc = s.pc + 2 ∧ t.v[x] = some r ∧ Frame { regs := [x] } s t ∧
        ∀ k : Nat, r.getLsbD k = (a.getLsbD k && b.getLsbD k)) ∧
      (∃ t r, exec (.xor x y) s = .next t ∧ t.pc = s.pc + 2 ∧ t.v[x] = some r ∧ Frame { regs := [x] } s t ∧
        ∀ k : Nat, r.getLsbD k = (a.getLsbD k ^^ b.getLsbD k)))

/-- R157: ADD Vx, Vy wraps mod 256 and VF is the carry, also when X is F. The encoding is the spec's decision D1, the
raise on an unset register its D12. That Vx is the register named when both are unset is the model's reading of one
line of pseudocode (DEDUCED, notes/assumptions/9.md). -/
def Obligations.AddRegisterCarry : Prop :=
  ∀ (x y : Reg) (s : State),
    classify (formXYN 0x8 x y 0x4) = .ok (.addReg x y) ∧
    (s.v[x] = none → Raises (.addReg x y) s (.uninitializedRead (.reg x))) ∧
    (s.v[x] ≠ none → s.v[y] = none → Raises (.addReg x y) s (.uninitializedRead (.reg y))) ∧
    (∀ a b : Byte, s.v[x] = some a → s.v[y] = some b →
      ∃ t r, exec (.addReg x y) s = .next t ∧ t.pc = s.pc + 2 ∧ r.toNat = (a.toNat + b.toNat) % 256 ∧
        (x ≠ 15 → t.v[x] = some r) ∧ t.v[(15 : Reg)] = some (if a.toNat + b.toNat > 255 then 1 else 0) ∧
        Frame { regs := [x, 15] } s t)

/-- R158, R160: SUB and SUBN wrap mod 256 and VF is the not-borrow, also when X is F. The encoding is the spec's
decision D1, the raise on an unset register its D12. That Vx is the register named when both are unset is the model's
reading of one line of pseudocode (DEDUCED, notes/assumptions/9.md). -/
def Obligations.SubtractsNotBorrow : Prop :=
  ∀ (x y : Reg) (s : State),
    classify (formXYN 0x8 x y 0x5) = .ok (.sub x y) ∧ classify (formXYN 0x8 x y 0x7) = .ok (.subn x y) ∧
    (∀ i ∈ [Instr.sub x y, .subn x y],
      (s.v[x] = none → Raises i s (.uninitializedRead (.reg x))) ∧
      (s.v[x] ≠ none → s.v[y] = none → Raises i s (.uninitializedRead (.reg y)))) ∧
    (∀ a b : Byte, s.v[x] = some a → s.v[y] = some b →
      (∃ (t : State) (r : Byte), exec (.sub x y) s = .next t ∧ t.pc = s.pc + 2 ∧
        (r.toNat : Int) = ((a.toNat : Int) - b.toNat) % 256 ∧
        (x ≠ 15 → t.v[x] = some r) ∧ t.v[(15 : Reg)] = some (if a.toNat ≥ b.toNat then 1 else 0) ∧
        Frame { regs := [x, 15] } s t) ∧
      (∃ (t : State) (r : Byte), exec (.subn x y) s = .next t ∧ t.pc = s.pc + 2 ∧
        (r.toNat : Int) = ((b.toNat : Int) - a.toNat) % 256 ∧
        (x ≠ 15 → t.v[x] = some r) ∧ t.v[(15 : Reg)] = some (if b.toNat ≥ a.toNat then 1 else 0) ∧
        Frame { regs := [x, 15] } s t))

/-- R159, R161: SHR and SHL shift Vx in place by one bit, VF is the bit shifted out, and Vy is not read. That the
operand is Vx is the spec's decision D4, the encoding its D1. -/
def Obligations.ShiftsInPlace : Prop :=
  ∀ (x y : Reg) (s : State),
    classify (formXYN 0x8 x y 0x6) = .ok (.shr x y) ∧ classify (formXYN 0x8 x y 0xE) = .ok (.shl x y) ∧
    (s.v[x] = none → Raises (.shr x y) s (.uninitializedRead (.reg x)) ∧
      Raises (.shl x y) s (.uninitializedRead (.reg x))) ∧
    (∀ a : Byte, s.v[x] = some a →
      (∃ t r, exec (.shr x y) s = .next t ∧ t.pc = s.pc + 2 ∧ r.toNat = a.toNat / 2 ∧
        (x ≠ 15 → t.v[x] = some r) ∧ t.v[(15 : Reg)] = some (if a.getLsbD 0 then 1 else 0) ∧
        Frame { regs := [x, 15] } s t) ∧
      (∃ t r, exec (.shl x y) s = .next t ∧ t.pc = s.pc + 2 ∧ r.toNat = a.toNat * 2 % 256 ∧
        (x ≠ 15 → t.v[x] = some r) ∧ t.v[(15 : Reg)] = some (if a.getLsbD 7 then 1 else 0) ∧
        Frame { regs := [x, 15] } s t))

/-- R162, R163: RND writes the cycle's random byte AND NN; every bit outside the mask is 0, and the whole draw shows
when NN is 0xFF. The byte is any byte at all: it is the input's, or the free value. The encoding is the spec's
decision D1, the free byte its D22. notes/assumptions/5.md. -/
def Obligations.RandomIsMaskedDraw : Prop :=
  ∀ (x : Reg) (nn : Byte) (s : State),
    classify (formXNN 0xC x nn) = .ok (.rnd x nn) ∧
    (∃ t r, exec (.rnd x nn) s = .next t ∧ t.pc = s.pc + 2 ∧ t.v[x] = some r ∧ Frame { regs := [x] } s t ∧
      (∀ k : Nat, r.getLsbD k = (s.drawRnd.getLsbD k && nn.getLsbD k)) ∧ (nn = 0xFF → r = s.drawRnd)) ∧
    (∀ d : Byte, ∃ s' : State, s' = { s with inputs := s'.inputs } ∧ s'.drawRnd = d)

/-! ### The index register and memory -/

/-- R181: LD I writes the 12-bit address. The encoding is the spec's decision D1. -/
def Obligations.LdISetsIndex : Prop :=
  ∀ (nnn : Addr) (s : State),
    classify (formA 0xA nnn) = .ok (.ldI nnn) ∧
    ∃ t i, exec (.ldI nnn) s = .next t ∧ t.pc = s.pc + 2 ∧ t.index = some i ∧ i.toNat = nnn.toNat ∧
      Frame { index := true } s t

/-- R182: ADD I, Vx writes the exact 16-bit sum, without a flag; IndexOverflow above 0xFFFF. The overflow error is the
spec's decision D7, the encoding its D1, the raise on an unset register its D12. That I is the register named when
both are unset is the model's reading of one line of pseudocode (DEDUCED, notes/assumptions/9.md). -/
def Obligations.AddIndexExactOrOverflow : Prop :=
  ∀ (x : Reg) (s : State),
    classify (formXNN 0xF x 0x1E) = .ok (.addIX x) ∧
    (s.index = none → Raises (.addIX x) s (.uninitializedRead .index)) ∧
    (∀ i : Word, s.index = some i → s.v[x] = none → Raises (.addIX x) s (.uninitializedRead (.reg x))) ∧
    (∀ (i : Word) (a : Byte), s.index = some i → s.v[x] = some a →
      (0xFFFF < i.toNat + a.toNat → Raises (.addIX x) s (.indexOverflow (i.toNat + a.toNat))) ∧
      (i.toNat + a.toNat ≤ 0xFFFF →
        ∃ t j, exec (.addIX x) s = .next t ∧ t.pc = s.pc + 2 ∧ t.index = some j ∧ j.toNat = i.toNat + a.toNat ∧
          Frame { index := true } s t))

/-- R183: LD F, Vx sets I to FONT_BASE + 5 * Vx; InvalidDigit above 15. FONT_BASE is the parameter, whatever its
value. That the error halts is the spec's decision D9, the font's place its D13. -/
def Obligations.DigitSpriteAddress : Prop :=
  ∀ (x : Reg) (s : State),
    classify (formXNN 0xF x 0x29) = .ok (.ldFX x) ∧
    (s.v[x] = none → Raises (.ldFX x) s (.uninitializedRead (.reg x))) ∧
    (∀ d : Byte, s.v[x] = some d →
      (15 < d.toNat → Raises (.ldFX x) s (.invalidDigit d)) ∧
      (d.toNat ≤ 15 → ∃ t i, exec (.ldFX x) s = .next t ∧ t.pc = s.pc + 2 ∧ t.index = some i ∧
        i.toNat = s.params.font.base.toNat + 5 * d.toNat ∧ Frame { index := true } s t))

/-- R36: while the font's bytes are unwritten, row j of the glyph of digit d is the byte at FONT_BASE + 5*d + j. -/
def Obligations.FontGlyphBytes : Prop :=
  ∀ (s : State) (d : Fin 16) (j : Fin 5), Memory.listed s.mem (s.params.font.base.toNat + 5 * d.val + j.val) = none →
    s.byteAt (s.params.font.base.toNat + 5 * d.val + j.val) = some s.params.font.glyphs[d][j]

/-- R184: LD B writes the three decimal digits of Vx at I, I + 1 and I + 2; a write past 0xFFF raises and stores
nothing. The encoding is the spec's decision D1, the errors its D6 and D12. That the raise of I follows Vx's is R184's
order of lines, that it precedes the bounds notes/assumptions/9.md (DEDUCED). -/
def Obligations.BcdStoresThreeDigits : Prop :=
  ∀ (x : Reg) (s : State),
    classify (formXNN 0xF x 0x33) = .ok (.ldBX x) ∧
    (s.v[x] = none → Raises (.ldBX x) s (.uninitializedRead (.reg x))) ∧
    (s.v[x] ≠ none → s.index = none → Raises (.ldBX x) s (.uninitializedRead .index)) ∧
    (∀ (v : Byte) (i : Word), s.v[x] = some v → s.index = some i →
      (0xFFF < i.toNat + 2 → Raises (.ldBX x) s (.memoryBoundsFault (max i.toNat 4096))) ∧
      (i.toNat + 2 ≤ 0xFFF →
        ∃ t h m l, exec (.ldBX x) s = .next t ∧ t.pc = s.pc + 2 ∧
          t.byteAt (effAddr i 0) = some h ∧ t.byteAt (effAddr i 1) = some m ∧ t.byteAt (effAddr i 2) = some l ∧
          h.toNat = v.toNat / 100 ∧ m.toNat = v.toNat / 10 % 10 ∧ l.toNat = v.toNat % 10 ∧
          Frame { bytes := [effAddr i 0, effAddr i 1, effAddr i 2] } s t))

/-- R185: LD [I], Vx copies V0 to Vx to memory at I + 0 to I + X and leaves I; the first register or address that
fails decides the error, and nothing is stored. That I stays is the spec's decision D5, the order of the errors D17
and notes/assumptions/9.md. -/
def Obligations.StoreRegisters : Prop :=
  ∀ (x : Reg) (s : State),
    classify (formXNN 0xF x 0x55) = .ok (.ldMemX x) ∧
    (s.index = none → Raises (.ldMemX x) s (.uninitializedRead .index)) ∧
    (∀ i : Word, s.index = some i →
      (∀ k : Reg, k ≤ x → (∀ j : Reg, j < k → s.v[j] ≠ none ∧ effAddr i j.val < 4096) →
        (s.v[k] = none → Raises (.ldMemX x) s (.uninitializedRead (.reg k))) ∧
        (s.v[k] ≠ none → 4096 ≤ effAddr i k.val → Raises (.ldMemX x) s (.memoryBoundsFault (effAddr i k.val)))) ∧
      ((∀ k : Reg, k ≤ x → s.v[k] ≠ none) → effAddr i x.val < 4096 →
        ∃ t, exec (.ldMemX x) s = .next t ∧ t.pc = s.pc + 2 ∧
          (∀ k : Reg, k ≤ x → t.byteAt (effAddr i k.val) = s.v[k]) ∧
          Frame { bytes := (List.range (x.val + 1)).map (effAddr i) } s t))

/-- R186: LD Vx, [I] copies memory at I + 0 to I + X to V0 to Vx and leaves I and the registers above Vx; the first
address that fails decides the error, and no register is written. That I stays is the spec's decision D5, the errors
D6, D12 and D17. -/
def Obligations.LoadRegisters : Prop :=
  ∀ (x : Reg) (s : State),
    classify (formXNN 0xF x 0x65) = .ok (.ldXMem x) ∧
    (s.index = none → Raises (.ldXMem x) s (.uninitializedRead .index)) ∧
    (∀ i : Word, s.index = some i →
      (∀ k : Reg, k ≤ x → (∀ j : Reg, j < k → s.byteAt (effAddr i j.val) ≠ none) →
        (4096 ≤ effAddr i k.val → Raises (.ldXMem x) s (.memoryBoundsFault (effAddr i k.val))) ∧
        (effAddr i k.val < 4096 → s.byteAt (effAddr i k.val) = none →
          Raises (.ldXMem x) s (.uninitializedRead (.mem (effAddr i k.val))))) ∧
      ((∀ k : Reg, k ≤ x → s.byteAt (effAddr i k.val) ≠ none) →
        ∃ t, exec (.ldXMem x) s = .next t ∧ t.pc = s.pc + 2 ∧
          (∀ k : Reg, k ≤ x → t.v[k] = s.byteAt (effAddr i k.val)) ∧
          Frame { regs := regsUpTo x } s t))

/-! ### Display -/

/-- R201: CLS makes every pixel false. The encoding is the spec's decision D1. -/
def Obligations.ClsClearsDisplay : Prop :=
  ∀ s : State,
    classify 0x00E0 = .ok .cls ∧
    ∃ t, exec .cls s = .next t ∧ t.pc = s.pc + 2 ∧ (∀ (c : Fin 64) (r : Fin 32), pix t.display c r = false) ∧
      Frame { display := true } s t

/-- R202 to R205: DRW XORs the N rows at I onto the display at (Vx, Vy) with wrap, bit 7 leftmost, and VF is 1 exactly
when a pixel that was true is cleared. A sprite of no rows reads neither I nor memory. The bit order is the spec's
decision D14. -/
def Obligations.DrawComposites : Prop :=
  ∀ (x y : Reg) (n : Nibble) (s : State) (ox oy : Byte) (i : Word) (rows : Nat → Byte),
    classify (formXYN 0xD x y n) = .ok (.drw x y n) ∧
    (s.v[x] = some ox → s.v[y] = some oy → (0 < n.toNat → s.index = some i) →
      (∀ k : Nat, k < n.toNat → s.byteAt (effAddr i k) = some (rows k)) →
      ∃ t, exec (.drw x y n) s = .next t ∧ t.pc = s.pc + 2 ∧
        (∀ (c : Fin 64) (r : Fin 32),
          (SpriteLit ox oy n.toNat rows c r → pix t.display c r = !pix s.display c r) ∧
          (¬ SpriteLit ox oy n.toNat rows c r → pix t.display c r = pix s.display c r)) ∧
        ((∃ (c : Fin 64) (r : Fin 32), pix s.display c r = true ∧ pix t.display c r = false) →
          t.v[(15 : Reg)] = some 1#8) ∧
        ((∀ (c : Fin 64) (r : Fin 32), pix s.display c r = true → pix t.display c r = true) →
          t.v[(15 : Reg)] = some 0#8) ∧
        Frame { regs := [15], display := true } s t)

/-- The errors of DRW in their order (R202, R246): Vx, Vy, I, then row by row the bounds and the set-ness of the byte.
The order is the spec's D17 and notes/assumptions/9.md. -/
def Obligations.DrawErrorsInOrder : Prop :=
  ∀ (x y : Reg) (n : Nibble) (s : State),
    (s.v[x] = none → Raises (.drw x y n) s (.uninitializedRead (.reg x))) ∧
    (s.v[x] ≠ none → s.v[y] = none → Raises (.drw x y n) s (.uninitializedRead (.reg y))) ∧
    (s.v[x] ≠ none → s.v[y] ≠ none → 0 < n.toNat → s.index = none → Raises (.drw x y n) s (.uninitializedRead .index)) ∧
    (∀ (i : Word) (k : Nat), s.v[x] ≠ none → s.v[y] ≠ none → s.index = some i → k < n.toNat →
      (∀ j : Nat, j < k → s.byteAt (effAddr i j) ≠ none) →
      (4096 ≤ effAddr i k → Raises (.drw x y n) s (.memoryBoundsFault (effAddr i k))) ∧
      (effAddr i k < 4096 → s.byteAt (effAddr i k) = none →
        Raises (.drw x y n) s (.uninitializedRead (.mem (effAddr i k)))))

/-- R206: drawing the same sprite twice restores the display; the second draw's VF is 1 exactly when the first set a
pixel that was false. -/
def Obligations.DrawTwiceRestoresDisplay : Prop :=
  ∀ (x y : Reg) (n : Nibble) (s t : State), x ≠ 15 → y ≠ 15 → s.status = .running →
    exec (.drw x y n) s = .next t → t.status = .running →
    ∃ u, exec (.drw x y n) t = .next u ∧ u.display = s.display ∧
      ((∃ (c : Fin 64) (r : Fin 32), pix s.display c r = false ∧ pix t.display c r = true) → u.v[(15 : Reg)] = some 1#8) ∧
      ((∀ (c : Fin 64) (r : Fin 32), pix t.display c r = true → pix s.display c r = true) → u.v[(15 : Reg)] = some 0#8)

/-! ### Keypad and timer instructions -/

/-- R221, R222: SKP and SKNP test the key whose index Vx holds; KeyIndexFault above 15. The error is the spec's
decision D8. -/
def Obligations.SkipsOnKey : Prop :=
  ∀ (x : Reg) (s : State),
    classify (formXNN 0xE x 0x9E) = .ok (.skp x) ∧ classify (formXNN 0xE x 0xA1) = .ok (.sknp x) ∧
    (∀ i ∈ [Instr.skp x, .sknp x],
      (s.v[x] = none → Raises i s (.uninitializedRead (.reg x))) ∧
      (∀ a : Byte, s.v[x] = some a → 15 < a.toNat → Raises i s (.keyIndexFault a))) ∧
    (∀ (a : Byte) (k : Key), s.v[x] = some a → a.toNat = k.val →
      (∃ t, exec (.skp x) s = .next t ∧ t.pc = (if s.keys[k] = true then s.pc + 4 else s.pc + 2) ∧ Frame {} s t) ∧
      (∃ t, exec (.sknp x) s = .next t ∧ t.pc = (if s.keys[k] = false then s.pc + 4 else s.pc + 2) ∧ Frame {} s t))

/-- R224: LD Vx, K takes the least key down; with no key down nothing changes, pc included: the instruction stalls,
and the cycle only drains the timers. The encoding is the spec's decision D1. -/
def Obligations.WaitKeyTakesLeastOrStalls : Prop :=
  ∀ (x : Reg) (s : State),
    classify (formXNN 0xF x 0x0A) = .ok (.ldXK x) ∧
    (∀ k : Key, s.keys[k] = true → (∀ j : Key, j < k → s.keys[j] = false) →
      ∃ t a, exec (.ldXK x) s = .next t ∧ t.pc = s.pc + 2 ∧ t.v[x] = some a ∧ a.toNat = k.val ∧
        Frame { regs := [x] } s t) ∧
    ((∀ k : Key, s.keys[k] = false) → exec (.ldXK x) s = .next s ∧
      (s.status = .running → s.fetchInstr = .ok (.ldXK x) → ∀ e : Elapsed, cycle e s = .next (s.drain e)))

/-- R227: while no key goes down, whether the driver calls no `set_keys` or one with every key up, a stalled
wait-for-key is a fixed point over any number of cycles: every key stays up and only the timers drain. The model's own
choices: that a step is one turn of the driver which uses up one queued input and counts `tick`
(notes/assumptions/4.md, 10.md, 12.md), and the run of n steps (16.md). -/
def Obligations.KeyStallIsFixedPoint : Prop :=
  ∀ (n : Nat) (s : State) (x : Reg), s.status = .running → s.fetchInstr = .ok (.ldXK x) →
    (∀ k : Key, s.keys[k] = false) →
    (∀ inp ∈ s.inputs.take n, ∀ keys : Keypad, inp.keys = some keys → ∀ k : Key, keys[k] = false) →
    ∃ t, runSteps n s = .next t ∧
      t = { s with keys := t.keys, dt := t.dt, st := t.st, acc := t.acc, inputs := t.inputs, tick := t.tick } ∧
      (∀ k : Key, t.keys[k] = false) ∧ t.inputs = s.inputs.drop n ∧
      t.dt.toNat ≤ s.dt.toNat ∧ t.st.toNat ≤ s.st.toNat

/-- R223, R225, R226: LD Vx, DT; LD DT, Vx; LD ST, Vx. The encoding is the spec's decision D1, the raise on an unset
register its D12. -/
def Obligations.TimerTransfers : Prop :=
  ∀ (x : Reg) (s : State),
    classify (formXNN 0xF x 0x07) = .ok (.ldXDt x) ∧ classify (formXNN 0xF x 0x15) = .ok (.ldDtX x) ∧
    classify (formXNN 0xF x 0x18) = .ok (.ldStX x) ∧
    (∃ t, exec (.ldXDt x) s = .next t ∧ t.pc = s.pc + 2 ∧ t.v[x] = some s.dt ∧ Frame { regs := [x] } s t) ∧
    (s.v[x] = none → Raises (.ldDtX x) s (.uninitializedRead (.reg x)) ∧
      Raises (.ldStX x) s (.uninitializedRead (.reg x))) ∧
    (∀ a : Byte, s.v[x] = some a →
      (∃ t, exec (.ldDtX x) s = .next t ∧ t.pc = s.pc + 2 ∧ t.dt = a ∧ Frame { delayTimer := true } s t) ∧
      (∃ t, exec (.ldStX x) s = .next t ∧ t.pc = s.pc + 2 ∧ t.st = a ∧ Frame { soundTimer := true } s t))

/-- R225, R226, R253: the drain of the cycle that executes LD DT, Vx or LD ST, Vx applies to the value written, and LD
Vx, DT reads the value before its cycle's drain. -/
def Obligations.DrainFollowsTimerTransfer : Prop :=
  ∀ (x : Reg) (s : State) (e : Elapsed), s.status = .running →
    (∀ a : Byte, s.fetchInstr = .ok (.ldDtX x) → s.v[x] = some a →
      ∃ t, cycle e s = .next t ∧
        t.dt.toNat = a.toNat - wholeQuanta s.params.quantum (s.acc + e.seconds)) ∧
    (∀ a : Byte, s.fetchInstr = .ok (.ldStX x) → s.v[x] = some a →
      ∃ t, cycle e s = .next t ∧
        t.st.toNat = a.toNat - wholeQuanta s.params.quantum (s.acc + e.seconds)) ∧
    (s.fetchInstr = .ok (.ldXDt x) →
      ∃ t, cycle e s = .next t ∧ t.v[x] = some s.dt ∧
        t.dt.toNat = s.dt.toNat - wholeQuanta s.params.quantum (s.acc + e.seconds))
end

