-- ==== Sys2Proof/Laws/Decode.lean ====
section
/-! SUPPORT. The fields of the encoder's formats, the bytes of a word, and what follows for the classifier. -/

namespace Sys2Proof

/-! ### Fields of the formats -/

@[simp] theorem opOf_formA (op : Nibble) (nnn : Addr) : opOf (formA op nnn) = op := by
  unfold opOf formA; apply BitVec.eq_of_getLsbD_eq; intro i hi; simp [hi]; grind

@[simp] theorem nnnOf_formA (op : Nibble) (nnn : Addr) : nnnOf (formA op nnn) = nnn := by
  unfold nnnOf formA; apply BitVec.eq_of_getLsbD_eq; intro i hi; simp [hi]; grind

@[simp] theorem regOf_nibbleOf (r : Reg) : regOf (nibbleOf r) = r := rfl

@[simp] theorem nibbleOf_regOf (b : Nibble) : nibbleOf (regOf b) = b := rfl

@[simp] theorem opOf_formXNN (op : Nibble) (x : Reg) (nn : Byte) : opOf (formXNN op x nn) = op := by
  unfold opOf formXNN; apply BitVec.eq_of_getLsbD_eq; intro i hi; simp [hi]; grind

@[simp] theorem xField_formXNN (op : Nibble) (x : Reg) (nn : Byte) : xField (formXNN op x nn) = nibbleOf x := by
  unfold xField formXNN; apply BitVec.eq_of_getLsbD_eq; intro i hi; simp [hi]; grind

@[simp] theorem xOf_formXNN (op : Nibble) (x : Reg) (nn : Byte) : xOf (formXNN op x nn) = x := by
  unfold xOf; simp

@[simp] theorem nnOf_formXNN (op : Nibble) (x : Reg) (nn : Byte) : nnOf (formXNN op x nn) = nn := by
  unfold nnOf formXNN; apply BitVec.eq_of_getLsbD_eq; intro i hi; simp [hi]; grind

@[simp] theorem opOf_formXYN (op : Nibble) (x y : Reg) (n : Nibble) : opOf (formXYN op x y n) = op := by
  unfold opOf formXYN; apply BitVec.eq_of_getLsbD_eq; intro i hi; simp [hi]; grind

@[simp] theorem xField_formXYN (op : Nibble) (x y : Reg) (n : Nibble) : xField (formXYN op x y n) = nibbleOf x := by
  unfold xField formXYN; apply BitVec.eq_of_getLsbD_eq; intro i hi; simp [hi]; grind

@[simp] theorem xOf_formXYN (op : Nibble) (x y : Reg) (n : Nibble) : xOf (formXYN op x y n) = x := by
  unfold xOf; simp

@[simp] theorem yField_formXYN (op : Nibble) (x y : Reg) (n : Nibble) : yField (formXYN op x y n) = nibbleOf y := by
  unfold yField formXYN; apply BitVec.eq_of_getLsbD_eq; intro i hi; simp [hi]; grind

@[simp] theorem yOf_formXYN (op : Nibble) (x y : Reg) (n : Nibble) : yOf (formXYN op x y n) = y := by
  unfold yOf; simp

@[simp] theorem nOf_formXYN (op : Nibble) (x y : Reg) (n : Nibble) : nOf (formXYN op x y n) = n := by
  unfold nOf formXYN; apply BitVec.eq_of_getLsbD_eq; intro i hi; simp [hi]; grind

/-! ### A word from its fields -/

theorem formA_fields (w : Word) : formA (opOf w) (nnnOf w) = w := by
  unfold formA opOf nnnOf; apply BitVec.eq_of_getLsbD_eq; intro i hi; simp [hi]; grind

theorem formXNN_fields (w : Word) : formXNN (opOf w) (xOf w) (nnOf w) = w := by
  unfold formXNN xOf; rw [nibbleOf_regOf]; unfold opOf xField nnOf
  apply BitVec.eq_of_getLsbD_eq; intro i hi; simp [hi]; grind

theorem formXYN_fields (w : Word) : formXYN (opOf w) (xOf w) (yOf w) (nOf w) = w := by
  unfold formXYN xOf yOf; rw [nibbleOf_regOf, nibbleOf_regOf]; unfold opOf xField yField nOf
  apply BitVec.eq_of_getLsbD_eq; intro i hi; simp [hi]; grind

/-- The two bytes of a word, put together again. -/
@[simp] theorem wordOf_bytes (w : Word) : wordOf (hiByte w) (loByte w) = w := by
  unfold wordOf hiByte loByte; apply BitVec.eq_of_getLsbD_eq; intro i hi; simp [hi]; grind

@[simp] theorem hiByte_wordOf (hi lo : Byte) : hiByte (wordOf hi lo) = hi := by
  unfold wordOf hiByte; apply BitVec.eq_of_getLsbD_eq; intro i hi; simp [hi]; grind

@[simp] theorem loByte_wordOf (hi lo : Byte) : loByte (wordOf hi lo) = lo := by
  unfold wordOf loByte; apply BitVec.eq_of_getLsbD_eq; intro i hi; simp [hi]; grind

/-- The word of two bytes is `hi * 256 + lo` (R10). -/
theorem wordOf_toNat (hi lo : Byte) : (wordOf hi lo).toNat = hi.toNat * 256 + lo.toNat := by
  unfold wordOf
  rw [BitVec.toNat_append, ← Nat.shiftLeft_add_eq_or_of_lt lo.isLt, Nat.shiftLeft_eq]

/-! ### The classifier's first two lines -/

/-- A word whose major opcode is not 0 is neither CLS nor RET. -/
theorem ne_literal_of_opOf {w : Word} (h : opOf w ≠ 0#4) : w ≠ 0x00E0#16 ∧ w ≠ 0x00EE#16 := by
  constructor <;> rintro rfl <;> exact h (by decide)

/-- A SYS word is neither CLS nor RET when its address is neither of theirs. -/
theorem formA_ne_literal {nnn : Addr} (h : nnn ≠ 0x0E0#12 ∧ nnn ≠ 0x0EE#12) :
    formA 0x0#4 nnn ≠ 0x00E0#16 ∧ formA 0x0#4 nnn ≠ 0x00EE#16 := by
  constructor <;> intro e
  · exact h.1 (by have := congrArg nnnOf e; rw [nnnOf_formA] at this; rw [this]; decide)
  · exact h.2 (by have := congrArg nnnOf e; rw [nnnOf_formA] at this; rw [this]; decide)

/-- Decoding the two bytes of a word is classifying the word. -/
theorem decode_bytes (w : Word) (rest : List Byte) :
    decode (hiByte w :: loByte w :: rest) = (classify w).map fun i => (i, rest) := by
  simp [decode]

end Sys2Proof
end

