-- ==== Sys2Proof/Laws/Memory.lean ====
section
/-! SUPPORT. The laws of memory: what a write changes, and that every operation keeps the canonical form. -/

namespace Sys2Proof.Machine.Memory

theorem listed_put (m : Memory) (a a' : Nat) (b : Byte) :
    listed (put m a b) a' = if a' = a then some b else listed m a' := by
  induction m with
  | nil => simp [put, listed]
  | cons c m ih =>
    obtain ⟨k, d⟩ := c
    simp only [put]
    split
    · simp [listed]
    · split
      · subst_vars; simp only [listed]; split <;> simp
      · simp only [listed, ih]; split
        · subst_vars; simp; omega
        · rfl

theorem listed_drop (m : Memory) (a a' : Nat) :
    listed (drop m a) a' = if a' = a then none else listed m a' := by
  induction m with
  | nil => simp [drop, listed]
  | cons c m ih =>
    obtain ⟨k, d⟩ := c
    simp only [drop]
    split
    · subst_vars; rw [ih]; split
      · rfl
      · simp [listed, *]
    · simp only [listed, ih]
      split
      · subst_vars; rw [if_neg (by omega)]
      · rfl

theorem mem_put {m : Memory} {a : Nat} {b : Byte} {c : Host.Cell} (h : c ∈ put m a b) : c = (a, b) ∨ c ∈ m := by
  induction m with
  | nil => simpa [put] using h
  | cons d m ih =>
    simp only [put] at h
    split at h
    · simpa using h
    · split at h
      · rcases List.mem_cons.mp h with h | h
        · exact .inl h
        · exact .inr (by simp [h])
      · rcases List.mem_cons.mp h with h | h
        · exact .inr (by simp [h])
        · rcases ih h with h | h
          · exact .inl h
          · exact .inr (by simp [h])

theorem mem_drop {m : Memory} {a : Nat} {c : Host.Cell} (h : c ∈ drop m a) : c ∈ m := by
  induction m with
  | nil => simp [drop] at h
  | cons d m ih =>
    simp only [drop] at h
    split at h
    · simp [ih h]
    · rcases List.mem_cons.mp h with h | h
      · simp [h]
      · simp [ih h]

theorem pairwise_put (m : Memory) (a : Nat) (b : Byte) (hm : m.Pairwise (fun c d => c.1 < d.1)) :
    (put m a b).Pairwise (fun c d => c.1 < d.1) := by
  induction m with
  | nil => simp [put]
  | cons c m ih =>
    obtain ⟨k, d⟩ := c
    rw [List.pairwise_cons] at hm
    simp only [put]
    split
    · refine List.pairwise_cons.mpr ⟨fun e he => ?_, List.pairwise_cons.mpr hm⟩
      rcases List.mem_cons.mp he with rfl | he
      · assumption
      · exact lt_trans ‹_› (hm.1 e he)
    · split
      · subst_vars; exact List.pairwise_cons.mpr hm
      · refine List.pairwise_cons.mpr ⟨fun e he => ?_, ih hm.2⟩
        rcases mem_put he with rfl | he
        · exact lt_of_le_of_ne (by omega) (by simp; omega)
        · exact hm.1 e he

theorem pairwise_drop (m : Memory) (a : Nat) (hm : m.Pairwise (fun c d => c.1 < d.1)) :
    (drop m a).Pairwise (fun c d => c.1 < d.1) := by
  induction m with
  | nil => simp [drop]
  | cons c m ih =>
    rw [List.pairwise_cons] at hm
    simp only [drop]
    split
    · exact ih hm.2
    · exact List.pairwise_cons.mpr ⟨fun e he => hm.1 e (mem_drop he), ih hm.2⟩

/-- Every write inside the 4096 bytes keeps the canonical form. -/
theorem wf_write (f : Font) (m : Memory) (a : Nat) (b : Byte) (ha : a < memSize) (h : wf f m) : wf f (write f m a b) := by
  unfold write
  split
  · exact ⟨pairwise_drop m a h.1, fun c hc => h.2 c (mem_drop hc)⟩
  · refine ⟨pairwise_put m a b h.1, fun c hc => ?_⟩
    rcases mem_put hc with rfl | hc
    · exact ⟨ha, by assumption⟩
    · exact h.2 c hc

theorem wf_writeList (f : Font) (bs : List Byte) (m : Memory) (a : Nat) (ha : a + bs.length ≤ memSize) (h : wf f m) :
    wf f (writeList f m a bs) := by
  induction bs generalizing m a with
  | nil => exact h
  | cons b bs ih =>
    simp only [List.length_cons] at ha
    exact ih _ _ (by omega) (wf_write f m a b (by omega) h)

/-- The empty memory is canonical. -/
theorem wf_nil (f : Font) : wf f [] := by simp [wf]

/-- What a write does to a read: the same address gives the byte written, every other address is left alone. -/
theorem read_write (f : Font) (m : Memory) (a a' : Nat) (b : Byte) :
    read f (write f m a b) a' = if a' = a then some b else read f m a' := by
  unfold read write
  by_cases hu : unlisted f a = some b
  · rw [if_pos hu, listed_drop]
    by_cases h : a' = a
    · subst h; simpa using hu
    · simp [h]
  · rw [if_neg hu, listed_put]
    by_cases h : a' = a <;> simp [h]

/-- A cell of a sorted list is what the list holds for its address, -/
theorem listed_of_mem {m : Memory} (hm : m.Pairwise (fun c d => c.1 < d.1)) {c : Host.Cell} (h : c ∈ m) :
    listed m c.1 = some c.2 := by
  induction m with
  | nil => cases h
  | cons d m ih =>
    obtain ⟨k, b⟩ := d
    rw [List.pairwise_cons] at hm
    rw [listed]
    rcases List.mem_cons.mp h with rfl | h
    · simp
    · rw [if_neg (by have := hm.1 c h; simp at this; omega)]; exact ih hm.2 h

/-- and what a list holds is one of its cells. -/
theorem mem_of_listed {m : Memory} {a : Nat} {b : Byte} (h : listed m a = some b) : (a, b) ∈ m := by
  induction m with
  | nil => cases h
  | cons d m ih =>
    obtain ⟨k, e⟩ := d
    rw [listed] at h
    split at h
    · cases h; subst_vars; simp
    · simp [ih h]

/-- What writing a list of bytes does to a read. -/
theorem read_writeList (f : Font) (bs : List Byte) (m : Memory) (a a' : Nat) :
    read f (writeList f m a bs) a' = if a ≤ a' then (bs[a' - a]?).or (read f m a') else read f m a' := by
  induction bs generalizing m a with
  | nil => simp [writeList]
  | cons b bs ih =>
    rw [writeList, ih, read_write]
    by_cases h : a ≤ a'
    · by_cases h' : a' = a
      · subst h'; simp
      · have : a' - a = (a' - (a + 1)) + 1 := by omega
        simp [h, h', show a + 1 ≤ a' by omega, this]
    · simp [h, show ¬ a + 1 ≤ a' by omega, show ¬ a' = a by omega]

end Sys2Proof.Machine.Memory

namespace Sys2Proof.Machine

/-- Row j of glyph d stands at FONT_BASE + 5*d + j. -/
theorem fontByte_glyph (f : Font) (d : Fin 16) (j : Fin 5) :
    fontByte f (f.base.toNat + 5 * d.val + j.val) = some f.glyphs[d][j] := by
  unfold fontByte
  rw [if_neg (by omega)]
  have h1 : (f.base.toNat + 5 * d.val + j.val - f.base.toNat) / 5 = d.val := by omega
  have h2 : (f.base.toNat + 5 * d.val + j.val - f.base.toNat) % 5 = j.val := by omega
  rw [h1, h2]; simp

/-- The font's bytes are the 80 from FONT_BASE. -/
theorem fontByte_outside (f : Font) (a : Nat) (h : a < f.base.toNat ∨ f.base.toNat + 79 < a) : fontByte f a = none := by
  unfold fontByte
  split
  · rfl
  · rw [Vector.getElem?_eq_none (by omega)]; rfl

end Sys2Proof.Machine
end

