-- ==== Sys2Proof/Laws/State.lean ====
section
/-! SUPPORT. One lemma per field and update of State, true by rfl, and what a skip and the delivery of the keys change. -/

namespace Sys2Proof.Machine.State

variable (s : State)

@[simp] theorem setReg_v (r : Reg) (b : Byte) : (s.setReg r b).v = s.v.set r (some b) := rfl
@[simp] theorem setReg_index (r : Reg) (b : Byte) : (s.setReg r b).index = s.index := rfl
@[simp] theorem setReg_pc (r : Reg) (b : Byte) : (s.setReg r b).pc = s.pc := rfl
@[simp] theorem setReg_stack (r : Reg) (b : Byte) : (s.setReg r b).stack = s.stack := rfl
@[simp] theorem setReg_sp (r : Reg) (b : Byte) : (s.setReg r b).sp = s.sp := rfl
@[simp] theorem setReg_dt (r : Reg) (b : Byte) : (s.setReg r b).dt = s.dt := rfl
@[simp] theorem setReg_st (r : Reg) (b : Byte) : (s.setReg r b).st = s.st := rfl
@[simp] theorem setReg_acc (r : Reg) (b : Byte) : (s.setReg r b).acc = s.acc := rfl
@[simp] theorem setReg_mem (r : Reg) (b : Byte) : (s.setReg r b).mem = s.mem := rfl
@[simp] theorem setReg_display (r : Reg) (b : Byte) : (s.setReg r b).display = s.display := rfl
@[simp] theorem setReg_keys (r : Reg) (b : Byte) : (s.setReg r b).keys = s.keys := rfl
@[simp] theorem setReg_status (r : Reg) (b : Byte) : (s.setReg r b).status = s.status := rfl
@[simp] theorem setReg_params (r : Reg) (b : Byte) : (s.setReg r b).params = s.params := rfl
@[simp] theorem setReg_inputs (r : Reg) (b : Byte) : (s.setReg r b).inputs = s.inputs := rfl
@[simp] theorem setReg_tick (r : Reg) (b : Byte) : (s.setReg r b).tick = s.tick := rfl

@[simp] theorem setFlag_v (b : Byte) : (s.setFlag b).v = s.v.set (15 : Reg) (some b) := rfl
@[simp] theorem setFlag_index (b : Byte) : (s.setFlag b).index = s.index := rfl
@[simp] theorem setFlag_pc (b : Byte) : (s.setFlag b).pc = s.pc := rfl
@[simp] theorem setFlag_stack (b : Byte) : (s.setFlag b).stack = s.stack := rfl
@[simp] theorem setFlag_sp (b : Byte) : (s.setFlag b).sp = s.sp := rfl
@[simp] theorem setFlag_dt (b : Byte) : (s.setFlag b).dt = s.dt := rfl
@[simp] theorem setFlag_st (b : Byte) : (s.setFlag b).st = s.st := rfl
@[simp] theorem setFlag_acc (b : Byte) : (s.setFlag b).acc = s.acc := rfl
@[simp] theorem setFlag_mem (b : Byte) : (s.setFlag b).mem = s.mem := rfl
@[simp] theorem setFlag_display (b : Byte) : (s.setFlag b).display = s.display := rfl
@[simp] theorem setFlag_keys (b : Byte) : (s.setFlag b).keys = s.keys := rfl
@[simp] theorem setFlag_status (b : Byte) : (s.setFlag b).status = s.status := rfl
@[simp] theorem setFlag_params (b : Byte) : (s.setFlag b).params = s.params := rfl
@[simp] theorem setFlag_inputs (b : Byte) : (s.setFlag b).inputs = s.inputs := rfl
@[simp] theorem setFlag_tick (b : Byte) : (s.setFlag b).tick = s.tick := rfl

@[simp] theorem setIndex_v (i : Word) : (s.setIndex i).v = s.v := rfl
@[simp] theorem setIndex_index (i : Word) : (s.setIndex i).index = some i := rfl
@[simp] theorem setIndex_pc (i : Word) : (s.setIndex i).pc = s.pc := rfl
@[simp] theorem setIndex_stack (i : Word) : (s.setIndex i).stack = s.stack := rfl
@[simp] theorem setIndex_sp (i : Word) : (s.setIndex i).sp = s.sp := rfl
@[simp] theorem setIndex_dt (i : Word) : (s.setIndex i).dt = s.dt := rfl
@[simp] theorem setIndex_st (i : Word) : (s.setIndex i).st = s.st := rfl
@[simp] theorem setIndex_acc (i : Word) : (s.setIndex i).acc = s.acc := rfl
@[simp] theorem setIndex_mem (i : Word) : (s.setIndex i).mem = s.mem := rfl
@[simp] theorem setIndex_display (i : Word) : (s.setIndex i).display = s.display := rfl
@[simp] theorem setIndex_keys (i : Word) : (s.setIndex i).keys = s.keys := rfl
@[simp] theorem setIndex_status (i : Word) : (s.setIndex i).status = s.status := rfl
@[simp] theorem setIndex_params (i : Word) : (s.setIndex i).params = s.params := rfl
@[simp] theorem setIndex_inputs (i : Word) : (s.setIndex i).inputs = s.inputs := rfl
@[simp] theorem setIndex_tick (i : Word) : (s.setIndex i).tick = s.tick := rfl

@[simp] theorem setPc_v (a : Word) : (s.setPc a).v = s.v := rfl
@[simp] theorem setPc_index (a : Word) : (s.setPc a).index = s.index := rfl
@[simp] theorem setPc_pc (a : Word) : (s.setPc a).pc = a := rfl
@[simp] theorem setPc_stack (a : Word) : (s.setPc a).stack = s.stack := rfl
@[simp] theorem setPc_sp (a : Word) : (s.setPc a).sp = s.sp := rfl
@[simp] theorem setPc_dt (a : Word) : (s.setPc a).dt = s.dt := rfl
@[simp] theorem setPc_st (a : Word) : (s.setPc a).st = s.st := rfl
@[simp] theorem setPc_acc (a : Word) : (s.setPc a).acc = s.acc := rfl
@[simp] theorem setPc_mem (a : Word) : (s.setPc a).mem = s.mem := rfl
@[simp] theorem setPc_display (a : Word) : (s.setPc a).display = s.display := rfl
@[simp] theorem setPc_keys (a : Word) : (s.setPc a).keys = s.keys := rfl
@[simp] theorem setPc_status (a : Word) : (s.setPc a).status = s.status := rfl
@[simp] theorem setPc_params (a : Word) : (s.setPc a).params = s.params := rfl
@[simp] theorem setPc_inputs (a : Word) : (s.setPc a).inputs = s.inputs := rfl
@[simp] theorem setPc_tick (a : Word) : (s.setPc a).tick = s.tick := rfl

@[simp] theorem fetched_v : (s.fetched).v = s.v := rfl
@[simp] theorem fetched_index : (s.fetched).index = s.index := rfl
@[simp] theorem fetched_pc : (s.fetched).pc = s.pc + 2#16 := rfl
@[simp] theorem fetched_stack : (s.fetched).stack = s.stack := rfl
@[simp] theorem fetched_sp : (s.fetched).sp = s.sp := rfl
@[simp] theorem fetched_dt : (s.fetched).dt = s.dt := rfl
@[simp] theorem fetched_st : (s.fetched).st = s.st := rfl
@[simp] theorem fetched_acc : (s.fetched).acc = s.acc := rfl
@[simp] theorem fetched_mem : (s.fetched).mem = s.mem := rfl
@[simp] theorem fetched_display : (s.fetched).display = s.display := rfl
@[simp] theorem fetched_keys : (s.fetched).keys = s.keys := rfl
@[simp] theorem fetched_status : (s.fetched).status = s.status := rfl
@[simp] theorem fetched_params : (s.fetched).params = s.params := rfl
@[simp] theorem fetched_inputs : (s.fetched).inputs = s.inputs := rfl
@[simp] theorem fetched_tick : (s.fetched).tick = s.tick := rfl

@[simp] theorem raise_v (c : Cause) : (s.raise c).v = s.v := rfl
@[simp] theorem raise_index (c : Cause) : (s.raise c).index = s.index := rfl
@[simp] theorem raise_pc (c : Cause) : (s.raise c).pc = s.pc := rfl
@[simp] theorem raise_stack (c : Cause) : (s.raise c).stack = s.stack := rfl
@[simp] theorem raise_sp (c : Cause) : (s.raise c).sp = s.sp := rfl
@[simp] theorem raise_dt (c : Cause) : (s.raise c).dt = s.dt := rfl
@[simp] theorem raise_st (c : Cause) : (s.raise c).st = s.st := rfl
@[simp] theorem raise_acc (c : Cause) : (s.raise c).acc = s.acc := rfl
@[simp] theorem raise_mem (c : Cause) : (s.raise c).mem = s.mem := rfl
@[simp] theorem raise_display (c : Cause) : (s.raise c).display = s.display := rfl
@[simp] theorem raise_keys (c : Cause) : (s.raise c).keys = s.keys := rfl
@[simp] theorem raise_status (c : Cause) : (s.raise c).status = .halted ⟨c, some s.pc⟩ := rfl
@[simp] theorem raise_params (c : Cause) : (s.raise c).params = s.params := rfl
@[simp] theorem raise_inputs (c : Cause) : (s.raise c).inputs = s.inputs := rfl
@[simp] theorem raise_tick (c : Cause) : (s.raise c).tick = s.tick := rfl

@[simp] theorem setKeys_v (k : Keypad) : (s.setKeys k).v = s.v := rfl
@[simp] theorem setKeys_index (k : Keypad) : (s.setKeys k).index = s.index := rfl
@[simp] theorem setKeys_pc (k : Keypad) : (s.setKeys k).pc = s.pc := rfl
@[simp] theorem setKeys_stack (k : Keypad) : (s.setKeys k).stack = s.stack := rfl
@[simp] theorem setKeys_sp (k : Keypad) : (s.setKeys k).sp = s.sp := rfl
@[simp] theorem setKeys_dt (k : Keypad) : (s.setKeys k).dt = s.dt := rfl
@[simp] theorem setKeys_st (k : Keypad) : (s.setKeys k).st = s.st := rfl
@[simp] theorem setKeys_acc (k : Keypad) : (s.setKeys k).acc = s.acc := rfl
@[simp] theorem setKeys_mem (k : Keypad) : (s.setKeys k).mem = s.mem := rfl
@[simp] theorem setKeys_display (k : Keypad) : (s.setKeys k).display = s.display := rfl
@[simp] theorem setKeys_keys (k : Keypad) : (s.setKeys k).keys = k := rfl
@[simp] theorem setKeys_status (k : Keypad) : (s.setKeys k).status = s.status := rfl
@[simp] theorem setKeys_params (k : Keypad) : (s.setKeys k).params = s.params := rfl
@[simp] theorem setKeys_inputs (k : Keypad) : (s.setKeys k).inputs = s.inputs := rfl
@[simp] theorem setKeys_tick (k : Keypad) : (s.setKeys k).tick = s.tick := rfl

@[simp] theorem consumeInput_v : (s.consumeInput).v = s.v := rfl
@[simp] theorem consumeInput_index : (s.consumeInput).index = s.index := rfl
@[simp] theorem consumeInput_pc : (s.consumeInput).pc = s.pc := rfl
@[simp] theorem consumeInput_stack : (s.consumeInput).stack = s.stack := rfl
@[simp] theorem consumeInput_sp : (s.consumeInput).sp = s.sp := rfl
@[simp] theorem consumeInput_dt : (s.consumeInput).dt = s.dt := rfl
@[simp] theorem consumeInput_st : (s.consumeInput).st = s.st := rfl
@[simp] theorem consumeInput_acc : (s.consumeInput).acc = s.acc := rfl
@[simp] theorem consumeInput_mem : (s.consumeInput).mem = s.mem := rfl
@[simp] theorem consumeInput_display : (s.consumeInput).display = s.display := rfl
@[simp] theorem consumeInput_keys : (s.consumeInput).keys = s.keys := rfl
@[simp] theorem consumeInput_status : (s.consumeInput).status = s.status := rfl
@[simp] theorem consumeInput_params : (s.consumeInput).params = s.params := rfl
@[simp] theorem consumeInput_inputs : (s.consumeInput).inputs = s.inputs.tail := rfl
@[simp] theorem consumeInput_tick : (s.consumeInput).tick = s.tick + 1 := rfl

@[simp] theorem setByte_v (a : Nat) (b : Byte) : (s.setByte a b).v = s.v := rfl
@[simp] theorem setByte_index (a : Nat) (b : Byte) : (s.setByte a b).index = s.index := rfl
@[simp] theorem setByte_pc (a : Nat) (b : Byte) : (s.setByte a b).pc = s.pc := rfl
@[simp] theorem setByte_stack (a : Nat) (b : Byte) : (s.setByte a b).stack = s.stack := rfl
@[simp] theorem setByte_sp (a : Nat) (b : Byte) : (s.setByte a b).sp = s.sp := rfl
@[simp] theorem setByte_dt (a : Nat) (b : Byte) : (s.setByte a b).dt = s.dt := rfl
@[simp] theorem setByte_st (a : Nat) (b : Byte) : (s.setByte a b).st = s.st := rfl
@[simp] theorem setByte_acc (a : Nat) (b : Byte) : (s.setByte a b).acc = s.acc := rfl
@[simp] theorem setByte_mem (a : Nat) (b : Byte) : (s.setByte a b).mem = Memory.write s.params.font s.mem a b := rfl
@[simp] theorem setByte_display (a : Nat) (b : Byte) : (s.setByte a b).display = s.display := rfl
@[simp] theorem setByte_keys (a : Nat) (b : Byte) : (s.setByte a b).keys = s.keys := rfl
@[simp] theorem setByte_status (a : Nat) (b : Byte) : (s.setByte a b).status = s.status := rfl
@[simp] theorem setByte_params (a : Nat) (b : Byte) : (s.setByte a b).params = s.params := rfl
@[simp] theorem setByte_inputs (a : Nat) (b : Byte) : (s.setByte a b).inputs = s.inputs := rfl
@[simp] theorem setByte_tick (a : Nat) (b : Byte) : (s.setByte a b).tick = s.tick := rfl

@[simp] theorem pushReturn_v : (s.pushReturn).v = s.v := rfl
@[simp] theorem pushReturn_index : (s.pushReturn).index = s.index := rfl
@[simp] theorem pushReturn_pc : (s.pushReturn).pc = s.pc := rfl
@[simp] theorem pushReturn_stack : (s.pushReturn).stack = s.stack.set (s.sp + 1 : Fin 16) (some s.pc) := rfl
@[simp] theorem pushReturn_sp : (s.pushReturn).sp = s.sp + 1 := rfl
@[simp] theorem pushReturn_dt : (s.pushReturn).dt = s.dt := rfl
@[simp] theorem pushReturn_st : (s.pushReturn).st = s.st := rfl
@[simp] theorem pushReturn_acc : (s.pushReturn).acc = s.acc := rfl
@[simp] theorem pushReturn_mem : (s.pushReturn).mem = s.mem := rfl
@[simp] theorem pushReturn_display : (s.pushReturn).display = s.display := rfl
@[simp] theorem pushReturn_keys : (s.pushReturn).keys = s.keys := rfl
@[simp] theorem pushReturn_status : (s.pushReturn).status = s.status := rfl
@[simp] theorem pushReturn_params : (s.pushReturn).params = s.params := rfl
@[simp] theorem pushReturn_inputs : (s.pushReturn).inputs = s.inputs := rfl
@[simp] theorem pushReturn_tick : (s.pushReturn).tick = s.tick := rfl

@[simp] theorem popReturn_v (ra : Word) : (s.popReturn ra).v = s.v := rfl
@[simp] theorem popReturn_index (ra : Word) : (s.popReturn ra).index = s.index := rfl
@[simp] theorem popReturn_pc (ra : Word) : (s.popReturn ra).pc = ra := rfl
@[simp] theorem popReturn_stack (ra : Word) : (s.popReturn ra).stack = s.stack := rfl
@[simp] theorem popReturn_sp (ra : Word) : (s.popReturn ra).sp = s.sp - 1 := rfl
@[simp] theorem popReturn_dt (ra : Word) : (s.popReturn ra).dt = s.dt := rfl
@[simp] theorem popReturn_st (ra : Word) : (s.popReturn ra).st = s.st := rfl
@[simp] theorem popReturn_acc (ra : Word) : (s.popReturn ra).acc = s.acc := rfl
@[simp] theorem popReturn_mem (ra : Word) : (s.popReturn ra).mem = s.mem := rfl
@[simp] theorem popReturn_display (ra : Word) : (s.popReturn ra).display = s.display := rfl
@[simp] theorem popReturn_keys (ra : Word) : (s.popReturn ra).keys = s.keys := rfl
@[simp] theorem popReturn_status (ra : Word) : (s.popReturn ra).status = s.status := rfl
@[simp] theorem popReturn_params (ra : Word) : (s.popReturn ra).params = s.params := rfl
@[simp] theorem popReturn_inputs (ra : Word) : (s.popReturn ra).inputs = s.inputs := rfl
@[simp] theorem popReturn_tick (ra : Word) : (s.popReturn ra).tick = s.tick := rfl

@[simp] theorem setDelayTimer_v (b : Byte) : (s.setDelayTimer b).v = s.v := rfl
@[simp] theorem setDelayTimer_index (b : Byte) : (s.setDelayTimer b).index = s.index := rfl
@[simp] theorem setDelayTimer_pc (b : Byte) : (s.setDelayTimer b).pc = s.pc := rfl
@[simp] theorem setDelayTimer_stack (b : Byte) : (s.setDelayTimer b).stack = s.stack := rfl
@[simp] theorem setDelayTimer_sp (b : Byte) : (s.setDelayTimer b).sp = s.sp := rfl
@[simp] theorem setDelayTimer_dt (b : Byte) : (s.setDelayTimer b).dt = b := rfl
@[simp] theorem setDelayTimer_st (b : Byte) : (s.setDelayTimer b).st = s.st := rfl
@[simp] theorem setDelayTimer_acc (b : Byte) : (s.setDelayTimer b).acc = s.acc := rfl
@[simp] theorem setDelayTimer_mem (b : Byte) : (s.setDelayTimer b).mem = s.mem := rfl
@[simp] theorem setDelayTimer_display (b : Byte) : (s.setDelayTimer b).display = s.display := rfl
@[simp] theorem setDelayTimer_keys (b : Byte) : (s.setDelayTimer b).keys = s.keys := rfl
@[simp] theorem setDelayTimer_status (b : Byte) : (s.setDelayTimer b).status = s.status := rfl
@[simp] theorem setDelayTimer_params (b : Byte) : (s.setDelayTimer b).params = s.params := rfl
@[simp] theorem setDelayTimer_inputs (b : Byte) : (s.setDelayTimer b).inputs = s.inputs := rfl
@[simp] theorem setDelayTimer_tick (b : Byte) : (s.setDelayTimer b).tick = s.tick := rfl

@[simp] theorem setSoundTimer_v (b : Byte) : (s.setSoundTimer b).v = s.v := rfl
@[simp] theorem setSoundTimer_index (b : Byte) : (s.setSoundTimer b).index = s.index := rfl
@[simp] theorem setSoundTimer_pc (b : Byte) : (s.setSoundTimer b).pc = s.pc := rfl
@[simp] theorem setSoundTimer_stack (b : Byte) : (s.setSoundTimer b).stack = s.stack := rfl
@[simp] theorem setSoundTimer_sp (b : Byte) : (s.setSoundTimer b).sp = s.sp := rfl
@[simp] theorem setSoundTimer_dt (b : Byte) : (s.setSoundTimer b).dt = s.dt := rfl
@[simp] theorem setSoundTimer_st (b : Byte) : (s.setSoundTimer b).st = b := rfl
@[simp] theorem setSoundTimer_acc (b : Byte) : (s.setSoundTimer b).acc = s.acc := rfl
@[simp] theorem setSoundTimer_mem (b : Byte) : (s.setSoundTimer b).mem = s.mem := rfl
@[simp] theorem setSoundTimer_display (b : Byte) : (s.setSoundTimer b).display = s.display := rfl
@[simp] theorem setSoundTimer_keys (b : Byte) : (s.setSoundTimer b).keys = s.keys := rfl
@[simp] theorem setSoundTimer_status (b : Byte) : (s.setSoundTimer b).status = s.status := rfl
@[simp] theorem setSoundTimer_params (b : Byte) : (s.setSoundTimer b).params = s.params := rfl
@[simp] theorem setSoundTimer_inputs (b : Byte) : (s.setSoundTimer b).inputs = s.inputs := rfl
@[simp] theorem setSoundTimer_tick (b : Byte) : (s.setSoundTimer b).tick = s.tick := rfl

@[simp] theorem setDisplay_v (d : Display) : (s.setDisplay d).v = s.v := rfl
@[simp] theorem setDisplay_index (d : Display) : (s.setDisplay d).index = s.index := rfl
@[simp] theorem setDisplay_pc (d : Display) : (s.setDisplay d).pc = s.pc := rfl
@[simp] theorem setDisplay_stack (d : Display) : (s.setDisplay d).stack = s.stack := rfl
@[simp] theorem setDisplay_sp (d : Display) : (s.setDisplay d).sp = s.sp := rfl
@[simp] theorem setDisplay_dt (d : Display) : (s.setDisplay d).dt = s.dt := rfl
@[simp] theorem setDisplay_st (d : Display) : (s.setDisplay d).st = s.st := rfl
@[simp] theorem setDisplay_acc (d : Display) : (s.setDisplay d).acc = s.acc := rfl
@[simp] theorem setDisplay_mem (d : Display) : (s.setDisplay d).mem = s.mem := rfl
@[simp] theorem setDisplay_display (d : Display) : (s.setDisplay d).display = d := rfl
@[simp] theorem setDisplay_keys (d : Display) : (s.setDisplay d).keys = s.keys := rfl
@[simp] theorem setDisplay_status (d : Display) : (s.setDisplay d).status = s.status := rfl
@[simp] theorem setDisplay_params (d : Display) : (s.setDisplay d).params = s.params := rfl
@[simp] theorem setDisplay_inputs (d : Display) : (s.setDisplay d).inputs = s.inputs := rfl
@[simp] theorem setDisplay_tick (d : Display) : (s.setDisplay d).tick = s.tick := rfl

@[simp] theorem drain_v (e : Elapsed) : (s.drain e).v = s.v := rfl
@[simp] theorem drain_index (e : Elapsed) : (s.drain e).index = s.index := rfl
@[simp] theorem drain_pc (e : Elapsed) : (s.drain e).pc = s.pc := rfl
@[simp] theorem drain_stack (e : Elapsed) : (s.drain e).stack = s.stack := rfl
@[simp] theorem drain_sp (e : Elapsed) : (s.drain e).sp = s.sp := rfl
@[simp] theorem drain_dt (e : Elapsed) : (s.drain e).dt = drainTimer s.dt (wholeQuanta s.params.quantum (s.acc + e.seconds)) := rfl
@[simp] theorem drain_st (e : Elapsed) : (s.drain e).st = drainTimer s.st (wholeQuanta s.params.quantum (s.acc + e.seconds)) := rfl
@[simp] theorem drain_acc (e : Elapsed) : (s.drain e).acc = (s.acc + e.seconds) - (wholeQuanta s.params.quantum (s.acc + e.seconds) : Rat) * s.params.quantum := rfl
@[simp] theorem drain_mem (e : Elapsed) : (s.drain e).mem = s.mem := rfl
@[simp] theorem drain_display (e : Elapsed) : (s.drain e).display = s.display := rfl
@[simp] theorem drain_keys (e : Elapsed) : (s.drain e).keys = s.keys := rfl
@[simp] theorem drain_status (e : Elapsed) : (s.drain e).status = s.status := rfl
@[simp] theorem drain_params (e : Elapsed) : (s.drain e).params = s.params := rfl
@[simp] theorem drain_inputs (e : Elapsed) : (s.drain e).inputs = s.inputs := rfl
@[simp] theorem drain_tick (e : Elapsed) : (s.drain e).tick = s.tick := rfl

/-- A skip changes pc alone. -/
@[simp] theorem skipIf_pc (c : Bool) : (s.skipIf c).pc = if c then s.pc + 2#16 else s.pc := by cases c <;> rfl
@[simp] theorem skipIf_v (c : Bool) : (s.skipIf c).v = s.v := by cases c <;> rfl
@[simp] theorem skipIf_index (c : Bool) : (s.skipIf c).index = s.index := by cases c <;> rfl
@[simp] theorem skipIf_stack (c : Bool) : (s.skipIf c).stack = s.stack := by cases c <;> rfl
@[simp] theorem skipIf_sp (c : Bool) : (s.skipIf c).sp = s.sp := by cases c <;> rfl
@[simp] theorem skipIf_dt (c : Bool) : (s.skipIf c).dt = s.dt := by cases c <;> rfl
@[simp] theorem skipIf_st (c : Bool) : (s.skipIf c).st = s.st := by cases c <;> rfl
@[simp] theorem skipIf_acc (c : Bool) : (s.skipIf c).acc = s.acc := by cases c <;> rfl
@[simp] theorem skipIf_mem (c : Bool) : (s.skipIf c).mem = s.mem := by cases c <;> rfl
@[simp] theorem skipIf_display (c : Bool) : (s.skipIf c).display = s.display := by cases c <;> rfl
@[simp] theorem skipIf_keys (c : Bool) : (s.skipIf c).keys = s.keys := by cases c <;> rfl
@[simp] theorem skipIf_status (c : Bool) : (s.skipIf c).status = s.status := by cases c <;> rfl
@[simp] theorem skipIf_params (c : Bool) : (s.skipIf c).params = s.params := by cases c <;> rfl
@[simp] theorem skipIf_inputs (c : Bool) : (s.skipIf c).inputs = s.inputs := by cases c <;> rfl
@[simp] theorem skipIf_tick (c : Bool) : (s.skipIf c).tick = s.tick := by cases c <;> rfl

/-- Delivering the driver's keys changes the keypad alone. -/
@[simp] theorem deliverKeys_keys : s.deliverKeys.keys = s.currentInput.keys.getD s.keys := by
  unfold deliverKeys; cases s.currentInput.keys <;> rfl
@[simp] theorem deliverKeys_v : s.deliverKeys.v = s.v := by unfold deliverKeys; split <;> rfl
@[simp] theorem deliverKeys_index : s.deliverKeys.index = s.index := by unfold deliverKeys; split <;> rfl
@[simp] theorem deliverKeys_pc : s.deliverKeys.pc = s.pc := by unfold deliverKeys; split <;> rfl
@[simp] theorem deliverKeys_stack : s.deliverKeys.stack = s.stack := by unfold deliverKeys; split <;> rfl
@[simp] theorem deliverKeys_sp : s.deliverKeys.sp = s.sp := by unfold deliverKeys; split <;> rfl
@[simp] theorem deliverKeys_dt : s.deliverKeys.dt = s.dt := by unfold deliverKeys; split <;> rfl
@[simp] theorem deliverKeys_st : s.deliverKeys.st = s.st := by unfold deliverKeys; split <;> rfl
@[simp] theorem deliverKeys_acc : s.deliverKeys.acc = s.acc := by unfold deliverKeys; split <;> rfl
@[simp] theorem deliverKeys_mem : s.deliverKeys.mem = s.mem := by unfold deliverKeys; split <;> rfl
@[simp] theorem deliverKeys_display : s.deliverKeys.display = s.display := by unfold deliverKeys; split <;> rfl
@[simp] theorem deliverKeys_status : s.deliverKeys.status = s.status := by unfold deliverKeys; split <;> rfl
@[simp] theorem deliverKeys_params : s.deliverKeys.params = s.params := by unfold deliverKeys; split <;> rfl
@[simp] theorem deliverKeys_inputs : s.deliverKeys.inputs = s.inputs := by unfold deliverKeys; split <;> rfl
@[simp] theorem deliverKeys_tick : s.deliverKeys.tick = s.tick := by unfold deliverKeys; split <;> rfl

end Sys2Proof.Machine.State
end

