-- ==== Sys2Proof/Laws/Ops.lean ====
section
/-! SUPPORT. What each shared operation of Machine/Ops.lean can do, said once. -/

namespace Sys2Proof.Machine

/-! ### Running a computation of a cycle -/

@[simp] theorem ok_bind {α β : Type} (a : α) (f : α → Exec β) : (Except.ok a >>= f : Exec β) = f a := rfl

@[simp] theorem error_bind {α β : Type} (c : Cause) (f : α → Exec β) : (Except.error c >>= f : Exec β) = .error c := rfl

/-- A computation in two parts succeeds when both parts do. -/
theorem bind_eq_ok {α β : Type} {x : Exec α} {f : α → Exec β} {b : β} :
    (x >>= f) = .ok b ↔ ∃ a, x = .ok a ∧ f a = .ok b := by
  cases x <;> simp

/-- Everything `execute` can answer: the body's state, or the raise of the body's error in the state before the fetch. -/
theorem execute_eq_next {s t : State} {body : State → Exec State} :
    execute s body = .next t ↔ body s.fetched = .ok t ∨ ∃ c, body s.fetched = .error c ∧ t = s.raise c := by
  unfold execute
  split <;> rename_i h <;> simp [h, eq_comm]

theorem execute_ok {s t : State} {body : State → Exec State} (h : body s.fetched = .ok t) :
    execute s body = .next t := execute_eq_next.mpr (.inl h)

theorem execute_error {s : State} {c : Cause} {body : State → Exec State} (h : body s.fetched = .error c) :
    execute s body = .next (s.raise c) := execute_eq_next.mpr (.inr ⟨c, h, rfl⟩)

/-- `execute` always answers a next state. -/
theorem execute_next (s : State) (body : State → Exec State) : ∃ t, execute s body = .next t := by
  unfold execute
  split <;> exact ⟨_, rfl⟩

namespace State

variable {s t : State}

/-! ### Registers -/

theorem reg_of_some {r : Reg} {b : Byte} (h : s.v[r] = some b) : s.reg r = .ok b := by
  unfold reg; rw [h]

theorem reg_of_none {r : Reg} (h : s.v[r] = none) : s.reg r = .error (.uninitializedRead (.reg r)) := by
  unfold reg; rw [h]

theorem reg_eq_ok {r : Reg} {b : Byte} : s.reg r = .ok b ↔ s.v[r] = some b := by
  unfold reg; split <;> simp_all

theorem readIndex_of_some {i : Word} (h : s.index = some i) : s.readIndex = .ok i := by
  unfold readIndex; rw [h]

theorem readIndex_of_none (h : s.index = none) : s.readIndex = .error (.uninitializedRead .index) := by
  unfold readIndex; rw [h]

theorem readIndex_eq_ok {i : Word} : s.readIndex = .ok i ↔ s.index = some i := by
  unfold readIndex; split <;> simp_all

/-- A register reads as what was written last. -/
theorem getElem_set_reg (v : Vector (Option Byte) 16) (r q : Reg) (b : Option Byte) :
    (v.set r b)[q] = if q = r then b else v[q] := by
  by_cases h : q = r
  · subst h; simp
  · have : (r : Nat) ≠ q := fun e => h (Fin.ext e.symm)
    simp [h, Vector.getElem_set_ne _ _ this]

/-! ### Memory -/

theorem byteAt_lt {a : Nat} {b : Byte} (h : s.byteAt a = some b) : a < memSize := by
  unfold byteAt at h; split at h <;> simp_all

theorem readByte_of_some {a : Nat} {b : Byte} (h : s.byteAt a = some b) : s.readByte a = .ok b := by
  have := byteAt_lt h
  unfold readByte; rw [if_neg (by omega), h]

theorem readByte_of_none {a : Nat} (ha : a < memSize) (h : s.byteAt a = none) :
    s.readByte a = .error (.uninitializedRead (.mem a)) := by
  unfold readByte; rw [if_neg (by omega), h]

theorem readByte_of_ge {a : Nat} (h : memSize ≤ a) : s.readByte a = .error (.memoryBoundsFault a) := by
  unfold readByte; rw [if_pos h]

theorem readByte_eq_ok {a : Nat} {b : Byte} : s.readByte a = .ok b ↔ s.byteAt a = some b := by
  refine ⟨fun h => ?_, readByte_of_some⟩
  unfold readByte at h
  split at h
  · simp at h
  · split at h <;> simp_all

theorem writeByte_of_lt {a : Nat} (b : Byte) (h : a < memSize) :
    s.writeByte a b = .ok (s.setByte a b) := by
  unfold writeByte; rw [if_neg (by omega)]

theorem writeByte_of_ge {a : Nat} (b : Byte) (h : memSize ≤ a) : s.writeByte a b = .error (.memoryBoundsFault a) := by
  unfold writeByte; rw [if_pos h]

/-- Everything a successful write does. -/
theorem writeByte_eq_ok {a : Nat} {b : Byte} :
    s.writeByte a b = .ok t ↔ a < memSize ∧ t = s.setByte a b := by
  unfold writeByte
  split
  · simp; omega
  · simp [eq_comm]; omega

/-- A cell's content depends on memory and the font alone. -/
theorem byteAt_congr (hm : t.mem = s.mem) (hp : t.params = s.params) (a : Nat) : t.byteAt a = s.byteAt a := by
  unfold byteAt; rw [hm, hp]

/-- Reading back: the address written gives the byte, every other address is left alone. -/
theorem byteAt_setByte {a : Nat} (b : Byte) (h : a < memSize) (a' : Nat) :
    (s.setByte a b).byteAt a' = if a' = a then some b else s.byteAt a' := by
  unfold byteAt
  split
  · rw [if_neg (by omega)]
  · exact Memory.read_write _ _ _ _ _

/-! ### Raising -/

/-- A raise changes the status alone, to a halt with p = pc. -/
theorem raise_eq (c : Cause) : s.raise c = { s with status := .halted ⟨c, some s.pc⟩ } := rfl

theorem raise_isRunning (c : Cause) : (s.raise c).isRunning = false := rfl

theorem isRunning_iff : s.isRunning = true ↔ s.status = .running := by
  unfold isRunning; split <;> simp_all

theorem drawRnd_congr (hi : t.inputs = s.inputs) (ht : t.tick = s.tick) : t.drawRnd = s.drawRnd := by
  unfold drawRnd currentInput; rw [hi, ht]

end State

end Sys2Proof.Machine
end

