-- ==== Sys2Proof/Laws/Timers.lean ====
section
/-! SUPPORT. What the timer drain computes: the whole quanta in a time, and a timer after them. -/

namespace Sys2Proof.Machine

/-- The whole quanta of a non-negative time, as an integer floor. -/
theorem wholeQuanta_cast {quantum t : Rat} (hq : 0 < quantum) (ht : 0 ≤ t) :
    ((wholeQuanta quantum t : Nat) : Int) = ⌊t / quantum⌋ := by
  have h : 0 ≤ ⌊t / quantum⌋ := Int.floor_nonneg.mpr (div_nonneg ht hq.le)
  exact Int.toNat_of_nonneg h

/-- The whole quanta fit into the time, and one more does not. -/
theorem wholeQuanta_spec {quantum t : Rat} (hq : 0 < quantum) (ht : 0 ≤ t) :
    (wholeQuanta quantum t : Rat) * quantum ≤ t ∧ t < ((wholeQuanta quantum t : Rat) + 1) * quantum := by
  have h := wholeQuanta_cast hq ht
  have h' : ((wholeQuanta quantum t : Nat) : Rat) = ((⌊t / quantum⌋ : Int) : Rat) := by exact_mod_cast h
  rw [h', ← le_div_iff₀ hq, ← div_lt_iff₀ hq]
  exact ⟨Int.floor_le _, Int.lt_floor_add_one _⟩

/-- A number of quanta that fits, with one more not fitting, is the number of whole quanta. -/
theorem wholeQuanta_unique {quantum t : Rat} (hq : 0 < quantum) (q : Nat) (h : (q : Rat) * quantum ≤ t)
    (h' : t < ((q : Rat) + 1) * quantum) : wholeQuanta quantum t = q := by
  have ht : 0 ≤ t := le_trans (by positivity) h
  have hc := wholeQuanta_cast hq ht
  have : ⌊t / quantum⌋ = (q : Int) := by
    rw [Int.floor_eq_iff, le_div_iff₀ hq, div_lt_iff₀ hq]
    exact ⟨by exact_mod_cast h, by exact_mod_cast h'⟩
  omega

/-- A timer after q quanta, never below zero. -/
theorem drainTimer_toNat (timer : Byte) (q : Nat) : (drainTimer timer q).toNat = timer.toNat - q := by
  unfold drainTimer; rw [BitVec.toNat_ofNat]; omega

end Sys2Proof.Machine
end

