-- ==== Sys2Proof/Laws/Cycle.lean ====
section
/-! SUPPORT. What the fetch and one cycle can do. -/

namespace Sys2Proof.Machine

variable {s t : State}

/-- A fetch succeeds when both bytes are set, and gives their word. -/
theorem fetchWord_of_bytes {hi lo : Byte} (h : s.byteAt s.pc.toNat = some hi)
    (h' : s.byteAt (s.pc.toNat + 1) = some lo) : s.fetchWord = .ok (wordOf hi lo) := by
  unfold State.fetchWord; simp [State.readByte_of_some h, State.readByte_of_some h']

/-- Everything a successful fetch says of memory. -/
theorem fetchWord_eq_ok {w : Word} :
    s.fetchWord = .ok w ↔ s.byteAt s.pc.toNat = some (hiByte w) ∧ s.byteAt (s.pc.toNat + 1) = some (loByte w) := by
  constructor
  · intro h
    unfold State.fetchWord at h
    obtain ⟨hi, h1, h⟩ := bind_eq_ok.mp h
    obtain ⟨lo, h2, h⟩ := bind_eq_ok.mp h
    obtain rfl : wordOf hi lo = w := by simpa using h
    simpa using ⟨State.readByte_eq_ok.mp h1, State.readByte_eq_ok.mp h2⟩
  · rintro ⟨h1, h2⟩
    simpa using fetchWord_of_bytes h1 h2

/-- Fetch and classify give an instruction exactly when the fetch reads a word of it. -/
theorem fetchInstr_eq_ok {i : Instr} : s.fetchInstr = .ok i ↔ ∃ w, s.fetchWord = .ok w ∧ classify w = .ok i := by
  unfold State.fetchInstr
  rw [bind_eq_ok]
  refine exists_congr fun w => and_congr_right fun _ => ?_
  rw [decode_bytes]
  cases classify w <;> simp [Except.map]

/-- A fetched word that is no instruction raises DecodeError. -/
theorem fetchInstr_of_illegal {w : Word} {r : DecodeReject} (h : s.fetchWord = .ok w) (h' : classify w = .error r) :
    s.fetchInstr = .error (.decodeError w) := by
  unfold State.fetchInstr; rw [h, ok_bind, decode_bytes, h']; rfl

/-- A fetch that raises makes the cycle raise the same error. -/
theorem fetchInstr_of_error {c : Cause} (h : s.fetchWord = .error c) : s.fetchInstr = .error c := by
  unfold State.fetchInstr; rw [h]; rfl

/-- What is fetched depends on pc, memory and the font alone. -/
theorem fetchInstr_congr (hp : t.pc = s.pc) (hm : t.mem = s.mem) (hf : t.params = s.params) :
    t.fetchInstr = s.fetchInstr := by
  have h : ∀ a, t.readByte a = s.readByte a := by
    intro a; unfold State.readByte; rw [State.byteAt_congr hm hf]
  unfold State.fetchInstr State.fetchWord; rw [hp, h, h]

theorem cycle_of_halted {e : Elapsed} {err : Error} (h : s.status = .halted err) : cycle e s = .next s := by
  unfold cycle; rw [h]

theorem cycle_of_error {e : Elapsed} {c : Cause} (h : s.status = .running) (h' : s.fetchInstr = .error c) :
    cycle e s = .next (s.raise c) := by
  unfold cycle; rw [h, h']

theorem cycle_of_instr {e : Elapsed} {i : Instr} (h : s.status = .running) (h' : s.fetchInstr = .ok i) :
    cycle e s = mapNext (State.drainIfRunning e) (exec i s) := by
  unfold cycle; rw [h, h']

theorem mapNext_eq_next {g : State → State} {o : Outcome} : mapNext g o = .next t ↔ ∃ u, o = .next u ∧ t = g u := by
  cases o <;> simp [mapNext, eq_comm]

/-- Everything a cycle that answers a next state can have done. -/
theorem cycle_cases {e : Elapsed} (h : cycle e s = .next t) :
    ((∃ err, s.status = .halted err) ∧ t = s) ∨
    (s.status = .running ∧ ∃ c, s.fetchInstr = .error c ∧ t = s.raise c) ∨
    (s.status = .running ∧ ∃ i u, s.fetchInstr = .ok i ∧ exec i s = .next u ∧ t = u.drainIfRunning e) := by
  cases hs : s.status with
  | halted err => rw [cycle_of_halted hs] at h; exact .inl ⟨⟨err, rfl⟩, by simpa using h.symm⟩
  | running =>
    cases hf : s.fetchInstr with
    | error c => rw [cycle_of_error hs hf] at h; exact .inr (.inl ⟨rfl, c, rfl, by simpa using h.symm⟩)
    | ok i =>
      rw [cycle_of_instr hs hf] at h
      obtain ⟨u, hu, rfl⟩ := mapNext_eq_next.mp h
      exact .inr (.inr ⟨rfl, i, u, rfl, hu, rfl⟩)

/-- With an input queued, the current input is the first of the queue. -/
theorem currentInput_of_cons {inp : CycleInput} {rest : List CycleInput} (h : s.inputs = inp :: rest) :
    s.currentInput = inp := by
  unfold State.currentInput; rw [h]

/-- With none queued, the driver has called no `set_keys`. -/
theorem currentInput_keys_of_nil (h : s.inputs = []) : s.currentInput.keys = none := by
  unfold State.currentInput; rw [h]

/-- Delivering the keys changes the keypad alone. -/
theorem deliverKeys_eq : s.deliverKeys = { s with keys := s.deliverKeys.keys } := by
  unfold State.deliverKeys; split <;> rfl

/-- With no `set_keys` in the current input the previous snapshot stands. -/
theorem deliverKeys_of_none (h : s.currentInput.keys = none) : s.deliverKeys = s := by
  unfold State.deliverKeys; rw [h]

/-- A step is a cycle after the keys are delivered, and then the input is used up. -/
theorem step_eq_next : step s = .next t ↔ ∃ u, cycle s.currentInput.elapsed s.deliverKeys = .next u ∧ t = u.consumeInput := by
  unfold step driverStep; exact mapNext_eq_next

theorem runSteps_succ {n : Nat} (h : step s = .next t) : runSteps (n + 1) s = runSteps n t := by
  rw [runSteps, h]

theorem drainIfRunning_of_running (e : Elapsed) (h : s.status = .running) : s.drainIfRunning e = s.drain e := by
  unfold State.drainIfRunning; rw [if_pos (State.isRunning_iff.mpr h)]

theorem drainIfRunning_of_halted (e : Elapsed) {err : Error} (h : s.status = .halted err) : s.drainIfRunning e = s := by
  unfold State.drainIfRunning State.isRunning; rw [h]; rfl

end Sys2Proof.Machine
end

