-- ==== Sys2Proof/Laws/Operands.lean ====
section
/-! SUPPORT. What the operand forms do: registers to memory and back, the digits, the digit and key operands, the keypad
scan. -/

namespace Sys2Proof.Machine

/-! ### The registers V0 to Vx -/

theorem mem_regsUpTo {i x : Reg} : i ∈ regsUpTo x ↔ i ≤ x := by
  revert i x; decide

/-- V0 to Vx begins with the registers below any k of them, in order. -/
theorem regsUpTo_split {k x : Reg} (h : k ≤ x) :
    ∃ post, regsUpTo x = sixteen.filter (· < k) ++ k :: post := by
  refine ⟨sixteen.filter (fun i => k < i ∧ i ≤ x), ?_⟩
  revert k x; decide

theorem mem_below {i k : Reg} : i ∈ sixteen.filter (· < k) ↔ i < k := by
  revert i k; decide

theorem effAddr_inj {i : Word} {j k : Nat} (h : effAddr i j = effAddr i k) : j = k := by
  unfold effAddr at h; omega

/-- A successful store of registers changes memory alone, and keeps its canonical form. -/
theorem storeRegs_inv {is : List Reg} {t u : State} (h : storeRegs is t = .ok u) :
    u = { t with mem := u.mem } ∧ (Memory.wf t.params.font t.mem → Memory.wf t.params.font u.mem) := by
  induction is generalizing t with
  | nil => simp only [storeRegs, Except.ok.injEq] at h; subst h; exact ⟨rfl, id⟩
  | cons k is ih =>
    simp only [storeRegs, bind_eq_ok] at h
    obtain ⟨_, _, b, _, t', h', h⟩ := h
    obtain ⟨ha, rfl⟩ := State.writeByte_eq_ok.mp h'
    obtain ⟨h1, h2⟩ := ih h
    exact ⟨h1, fun hw => h2 (Memory.wf_write _ _ _ _ ha hw)⟩

/-- With I and the registers set and the addresses inside memory, the store succeeds: each register stands at its address,
and every other byte is as before. -/
theorem storeRegs_ok (is : List Reg) (t : State) (i : Word) (hi : t.index = some i) (hv : ∀ k ∈ is, t.v[k] ≠ none)
    (ha : ∀ k ∈ is, effAddr i k.val < memSize) :
    ∃ u, storeRegs is t = .ok u ∧ (∀ k ∈ is, u.byteAt (effAddr i k.val) = t.v[k]) ∧
      (∀ a, (∀ k ∈ is, a ≠ effAddr i k.val) → u.byteAt a = t.byteAt a) := by
  induction is generalizing t with
  | nil => exact ⟨t, rfl, by simp, by simp⟩
  | cons k is ih =>
    obtain ⟨b, hb⟩ := Option.ne_none_iff_exists'.mp (hv k (by simp))
    have hk := ha k (by simp)
    obtain ⟨u, hu, h1, h2⟩ := ih (t.setByte (effAddr i k.val) b) hi
      (fun j hj => hv j (by simp [hj])) (fun j hj => ha j (by simp [hj]))
    refine ⟨u, ?_, ?_, ?_⟩
    · simp [storeRegs, State.readIndex_of_some hi, State.reg_of_some hb, State.writeByte_of_lt b hk, hu]
    · intro j hj
      by_cases hjs : j ∈ is
      · exact h1 j hjs
      · obtain rfl : j = k := by simpa [hjs] using hj
        rw [h2 _ fun l hl e => hjs ((Fin.ext (effAddr_inj e) : j = l) ▸ hl), State.byteAt_setByte b hk, if_pos rfl, hb]
    · intro a h
      rw [h2 a fun l hl => h l (by simp [hl]), State.byteAt_setByte b hk, if_neg (h k (by simp))]

/-- Storing a list of registers in two parts. -/
theorem storeRegs_append (xs ys : List Reg) (t : State) : storeRegs (xs ++ ys) t = storeRegs xs t >>= storeRegs ys := by
  induction xs generalizing t with
  | nil => rfl
  | cons k xs ih =>
    simp only [List.cons_append, storeRegs, ih]
    cases t.readIndex <;> simp

/-- A successful load of registers changes the registers alone, and only those of the list. -/
theorem loadRegs_inv {is : List Reg} {t u : State} (h : loadRegs is t = .ok u) :
    u = { t with v := u.v } ∧ ∀ k ∉ is, u.v[k] = t.v[k] := by
  induction is generalizing t with
  | nil => simp only [loadRegs, Except.ok.injEq] at h; subst h; exact ⟨rfl, by simp⟩
  | cons k is ih =>
    simp only [loadRegs, bind_eq_ok] at h
    obtain ⟨_, _, b, _, h⟩ := h
    obtain ⟨h1, h2⟩ := ih h
    refine ⟨h1, fun j hj => ?_⟩
    rw [List.mem_cons, not_or] at hj
    rw [h2 j hj.2, State.setReg_v, State.getElem_set_reg, if_neg hj.1]

/-- With I set and the bytes readable, the load succeeds: each register of the list holds its byte. -/
theorem loadRegs_ok (is : List Reg) (t : State) (i : Word) (hi : t.index = some i)
    (hb : ∀ k ∈ is, t.byteAt (effAddr i k.val) ≠ none) :
    ∃ u, loadRegs is t = .ok u ∧ ∀ k ∈ is, u.v[k] = t.byteAt (effAddr i k.val) := by
  induction is generalizing t with
  | nil => exact ⟨t, rfl, by simp⟩
  | cons k is ih =>
    obtain ⟨b, hk⟩ := Option.ne_none_iff_exists'.mp (hb k (by simp))
    obtain ⟨u, hu, h1⟩ := ih (t.setReg k b) hi (fun j hj => hb j (by simp [hj]))
    refine ⟨u, ?_, fun j hj => ?_⟩
    · simp [loadRegs, State.readIndex_of_some hi, State.readByte_of_some hk, hu]
    · by_cases hjs : j ∈ is
      · exact h1 j hjs
      · obtain rfl : j = k := by simpa [hjs] using hj
        rw [(loadRegs_inv hu).2 j hjs, State.setReg_v, State.getElem_set_reg, if_pos rfl, hk]

/-- Loading a list of registers in two parts. -/
theorem loadRegs_append (xs ys : List Reg) (t : State) : loadRegs (xs ++ ys) t = loadRegs xs t >>= loadRegs ys := by
  induction xs generalizing t with
  | nil => rfl
  | cons k xs ih =>
    simp only [List.cons_append, loadRegs, ih]
    cases t.readIndex <;> simp

/-! ### Digits, keys and results -/

theorem bcdHundreds_toNat (v : Byte) : (bcdHundreds v).toNat = v.toNat / 100 := by
  unfold bcdHundreds; simp; omega

theorem bcdTens_toNat (v : Byte) : (bcdTens v).toNat = v.toNat / 10 % 10 := by
  unfold bcdTens; simp; omega

theorem bcdOnes_toNat (v : Byte) : (bcdOnes v).toNat = v.toNat % 10 := by
  unfold bcdOnes; simp; omega

theorem addByte_toNat (a b : Byte) : (addByte a b).toNat = (a.toNat + b.toNat) % 256 := by
  unfold addByte; simp

theorem subByte_toNat (a b : Byte) : ((subByte a b).toNat : Int) = ((a.toNat : Int) - b.toNat) % 256 := by
  unfold subByte; rw [BitVec.toNat_ofInt]; omega

theorem shiftRightByte_toNat (a : Byte) : (shiftRightByte a).toNat = a.toNat / 2 := by
  unfold shiftRightByte; simp; omega

theorem shiftLeftByte_toNat (a : Byte) : (shiftLeftByte a).toNat = a.toNat * 2 % 256 := by
  unfold shiftLeftByte; simp

theorem zext16_toNat (a : Addr) : (zext16 a).toNat = a.toNat := by
  unfold zext16; simp; omega

theorem digitOperand_of_le {x : Reg} {t : State} {d : Byte} (h : t.v[x] = some d) (hd : d.toNat ≤ 15) :
    digitOperand x t = .ok d.toNat := by
  unfold digitOperand; simp [State.reg_of_some h]; omega

theorem digitOperand_of_gt {x : Reg} {t : State} {d : Byte} (h : t.v[x] = some d) (hd : 15 < d.toNat) :
    digitOperand x t = .error (.invalidDigit d) := by
  unfold digitOperand; simp [State.reg_of_some h, hd]

/-- Everything a digit operand that is accepted says. -/
theorem digitOperand_eq_ok {x : Reg} {t : State} {n : Nat} :
    digitOperand x t = .ok n ↔ ∃ d : Byte, t.v[x] = some d ∧ d.toNat ≤ 15 ∧ n = d.toNat := by
  constructor
  · intro h
    obtain ⟨d, hd, h'⟩ := bind_eq_ok.mp h
    split at h'
    · cases h'
    · exact ⟨d, State.reg_eq_ok.mp hd, by omega, (Except.ok.inj h').symm⟩
  · rintro ⟨d, hd, hle, rfl⟩
    exact digitOperand_of_le hd hle

/-- The font fits below 0x200, so a glyph's address fits I exactly. -/
theorem glyphAddr_toNat (f : Font) (d : Nat) (h : d ≤ 15) : (glyphAddr f d).toNat = f.base.toNat + 5 * d := by
  have := f.base_le
  unfold glyphAddr; rw [BitVec.toNat_ofNat]; omega

theorem keyOperand_of_key {x : Reg} {t : State} {a : Byte} {k : Key} (h : t.v[x] = some a) (hk : a.toNat = k.val) :
    keyOperand x t = .ok t.keys[k] := by
  unfold keyOperand; simp [State.reg_of_some h, hk]

theorem keyOperand_of_gt {x : Reg} {t : State} {a : Byte} (h : t.v[x] = some a) (ha : 15 < a.toNat) :
    keyOperand x t = .error (.keyIndexFault a) := by
  unfold keyOperand; simp [State.reg_of_some h]; omega

/-- Everything a key operand that is accepted says. -/
theorem keyOperand_eq_ok {x : Reg} {t : State} {down : Bool} :
    keyOperand x t = .ok down ↔ ∃ (a : Byte) (k : Key), t.v[x] = some a ∧ a.toNat = k.val ∧ down = t.keys[k] := by
  constructor
  · intro h
    obtain ⟨a, ha, h'⟩ := bind_eq_ok.mp h
    split at h'
    · rename_i hlt; exact ⟨a, ⟨a.toNat, hlt⟩, State.reg_eq_ok.mp ha, rfl, (Except.ok.inj h').symm⟩
    · cases h'
  · rintro ⟨a, k, ha, hk, rfl⟩
    exact keyOperand_of_key ha hk

/-- The scan finds nothing exactly when every key is up. -/
theorem firstKeyDown_eq_none {keys : Keypad} : firstKeyDown keys = none ↔ ∀ k : Key, keys[k] = false := by
  have hall : ∀ k : Key, k ∈ sixteen := by decide
  unfold firstKeyDown
  rw [List.find?_eq_none]
  exact ⟨fun h k => by simpa using h k (hall k), fun h k _ => by simp [h k]⟩

/-- The scan finds k exactly when k is down and every key below it is up. -/
theorem firstKeyDown_eq_some {keys : Keypad} {k : Key} :
    firstKeyDown keys = some k ↔ keys[k] = true ∧ ∀ j : Key, j < k → keys[j] = false := by
  have hall : ∀ k : Key, k ∈ sixteen := by decide
  have hsplit : ∀ k : Key, sixteen = sixteen.filter (· < k) ++ k :: sixteen.filter (k < ·) := by decide
  unfold firstKeyDown
  rw [List.find?_eq_some_iff_append]
  constructor
  · rintro ⟨hk, as, bs, heq, has⟩
    refine ⟨hk, fun j hj => ?_⟩
    have hnd : (as ++ k :: bs).Nodup := heq ▸ (by decide : sixteen.Nodup)
    have hpw : (as ++ k :: bs).Pairwise (· < ·) := heq ▸ (by decide : sixteen.Pairwise (· < ·))
    have hmem : j ∈ as ++ k :: bs := heq ▸ hall j
    rcases List.mem_append.mp hmem with h | h
    · simpa using has j h
    · exfalso
      rcases List.mem_cons.mp h with h | h
      · exact absurd h (ne_of_lt hj)
      · have := (List.pairwise_append.mp hpw).2.1
        rw [List.pairwise_cons] at this
        exact absurd (this.1 j h) (lt_asymm hj)
  · rintro ⟨hk, hlow⟩
    exact ⟨hk, _, _, hsplit k, fun j hj => by simpa using hlow j (mem_below.mp hj)⟩

end Sys2Proof.Machine
end

