-- ==== Sys2Proof/Laws/Display.lean ====
section
/-! SUPPORT. What the compositor does to a pixel and to the collision flag. -/

namespace Sys2Proof.Machine

theorem pix_flipPix (d : Display) (c c' : Fin 64) (r r' : Fin 32) :
    pix (flipPix d c r) c' r' = if c' = c ∧ r' = r then !pix d c r else pix d c' r' := by
  have hne : ∀ {n : Nat} {i j : Fin n}, i ≠ j → (j : Nat) ≠ i := fun h e => h (Fin.ext e.symm)
  unfold pix flipPix
  by_cases hr : r' = r
  · subst hr
    by_cases hc : c' = c
    · subst hc; simp
    · simp [hc, Vector.getElem_set_ne _ _ (hne hc)]
  · simp [hr, Vector.getElem_set_ne _ _ (hne hr)]

theorem pix_blank (c : Fin 64) (r : Fin 32) : pix blankDisplay c r = false := by
  simp [pix, blankDisplay]

/-- Two displays with the same pixels are the same grid. -/
theorem display_ext {d e : Display} (h : ∀ (c : Fin 64) (r : Fin 32), pix d c r = pix e c r) : d = e := by
  apply Vector.ext; intro r hr
  apply Vector.ext; intro c hc
  exact h ⟨c, hc⟩ ⟨r, hr⟩

/-- Columns of one row of eight bits are distinct. -/
theorem spriteCol_inj {ox : Byte} {j k : Nat} (hj : j < 8) (hk : k < 8) (h : spriteCol ox j = spriteCol ox k) : j = k := by
  unfold spriteCol at h; simp only [Fin.mk.injEq] at h; omega

/-- Rows of one sprite of at most 15 rows are distinct. -/
theorem spriteRow_inj {oy : Byte} {j k : Nat} (hj : j < 16) (hk : k < 16) (h : spriteRow oy j = spriteRow oy k) : j = k := by
  unfold spriteRow at h; simp only [Fin.mk.injEq] at h; omega

/-- A bit of the row byte `b`, among the columns `js`, lands on column c. -/
def BitsLit (ox : Byte) (b : Byte) (js : List Nat) (c : Fin 64) : Prop := ∃ j ∈ js, spriteBit b j = true ∧ c = spriteCol ox j

/-- Drawing some distinct columns of one row inverts the pixels its 1-bits land on, and reports whether one of them was
true. -/
theorem drawBits_spec (ox oy : Byte) (r : Nat) (b : Byte) (js : List Nat) (hnd : js.Nodup) (hlt : ∀ j ∈ js, j < 8)
    (acc : Composite) :
    (∀ c r', (BitsLit ox b js c ∧ r' = spriteRow oy r →
        pix (js.foldl (drawBit ox oy r b) acc).display c r' = !pix acc.display c r') ∧
      (¬ (BitsLit ox b js c ∧ r' = spriteRow oy r) →
        pix (js.foldl (drawBit ox oy r b) acc).display c r' = pix acc.display c r')) ∧
    ((js.foldl (drawBit ox oy r b) acc).hit = true ↔
      acc.hit = true ∨ ∃ c, BitsLit ox b js c ∧ pix acc.display c (spriteRow oy r) = true) := by
  induction js generalizing acc with
  | nil => simp [BitsLit]
  | cons j js ih =>
    rw [List.nodup_cons] at hnd
    obtain ⟨ihp, ihh⟩ := ih hnd.2 (fun k hk => hlt k (by simp [hk])) (drawBit ox oy r b acc j)
    have hj : j < 8 := hlt j (by simp)
    have hnot : ¬ BitsLit ox b js (spriteCol ox j) := by
      rintro ⟨k, hk, -, e⟩
      exact hnd.1 (spriteCol_inj hj (hlt k (by simp [hk])) e ▸ hk)
    have hcons : ∀ c, BitsLit ox b (j :: js) c ↔ (spriteBit b j = true ∧ c = spriteCol ox j) ∨ BitsLit ox b js c := by
      intro c; simp [BitsLit]
    simp only [List.foldl_cons]
    by_cases hb : spriteBit b j = true
    · have hd : ∀ c r', pix (drawBit ox oy r b acc j).display c r' =
          if c = spriteCol ox j ∧ r' = spriteRow oy r then !pix acc.display (spriteCol ox j) (spriteRow oy r)
          else pix acc.display c r' := by
        intro c r'; simp [drawBit, hb, pix_flipPix]
      refine ⟨fun c r' => ⟨?_, ?_⟩, ?_⟩
      · rintro ⟨hc, rfl⟩
        by_cases hcj : c = spriteCol ox j
        · subst hcj
          rw [(ihp _ _).2 (fun h => hnot h.1), hd]; simp
        · have hc' : BitsLit ox b js c := by
            rcases (hcons c).mp hc with h | h
            · exact absurd h.2 hcj
            · exact h
          rw [(ihp _ _).1 ⟨hc', rfl⟩, hd, if_neg (fun h => hcj h.1)]
      · intro h
        rw [(ihp _ _).2 (fun h' => h ⟨(hcons c).mpr (.inr h'.1), h'.2⟩), hd,
          if_neg (fun h' => h ⟨(hcons c).mpr (.inl ⟨hb, h'.1⟩), h'.2⟩)]
      · rw [ihh]
        have hh : (drawBit ox oy r b acc j).hit = (acc.hit || pix acc.display (spriteCol ox j) (spriteRow oy r)) := by
          simp [drawBit, hb]
        rw [hh, Bool.or_eq_true]
        constructor
        · rintro ((h | h) | ⟨c, hc, h⟩)
          · exact .inl h
          · exact .inr ⟨_, (hcons _).mpr (.inl ⟨hb, rfl⟩), h⟩
          · refine .inr ⟨c, (hcons c).mpr (.inr hc), ?_⟩
            rwa [hd, if_neg (fun e => hnot ((And.left e : c = spriteCol ox j) ▸ hc))] at h
        · rintro (h | ⟨c, hc, h⟩)
          · exact .inl (.inl h)
          · rcases (hcons c).mp hc with ⟨-, rfl⟩ | hc
            · exact .inl (.inr h)
            · refine .inr ⟨c, hc, ?_⟩
              rwa [hd, if_neg (fun e => hnot ((And.left e : c = spriteCol ox j) ▸ hc))]
    · have hd : drawBit ox oy r b acc j = acc := by simp [drawBit, hb]
      have hiff : ∀ c, BitsLit ox b (j :: js) c ↔ BitsLit ox b js c := by
        intro c; rw [hcons]; simp [hb]
      rw [hd] at ihp ihh ⊢
      simp only [hiff]
      exact ⟨ihp, ihh⟩

/-- What drawing one row does. -/
theorem drawRow_spec (ox oy : Byte) (r : Nat) (b : Byte) (acc : Composite) :
    (∀ c r', (BitsLit ox b [0, 1, 2, 3, 4, 5, 6, 7] c ∧ r' = spriteRow oy r →
        pix (drawRow ox oy r b acc).display c r' = !pix acc.display c r') ∧
      (¬ (BitsLit ox b [0, 1, 2, 3, 4, 5, 6, 7] c ∧ r' = spriteRow oy r) →
        pix (drawRow ox oy r b acc).display c r' = pix acc.display c r')) ∧
    ((drawRow ox oy r b acc).hit = true ↔
      acc.hit = true ∨ ∃ c, BitsLit ox b [0, 1, 2, 3, 4, 5, 6, 7] c ∧ pix acc.display c (spriteRow oy r) = true) :=
  drawBits_spec ox oy r b _ (by decide) (by decide) acc

/-- One of the rows `rs` has a 1-bit that lands on column c and row r. -/
def RowsLit (ox oy : Byte) (rows : Nat → Byte) (rs : List Nat) (c : Fin 64) (r : Fin 32) : Prop :=
  ∃ k ∈ rs, BitsLit ox (rows k) [0, 1, 2, 3, 4, 5, 6, 7] c ∧ r = spriteRow oy k

/-- The composition of rows whose bytes are known. -/
def composeRows (ox oy : Byte) (rows : Nat → Byte) (rs : List Nat) (acc : Composite) : Composite :=
  rs.foldl (fun a r => drawRow ox oy r (rows r) a) acc

/-- Composing some distinct rows, at most 15 of them, inverts the pixels their 1-bits land on, and reports whether one of
them was true. -/
theorem composeRows_spec (ox oy : Byte) (rows : Nat → Byte) (rs : List Nat) (hnd : rs.Nodup) (hlt : ∀ r ∈ rs, r < 16)
    (acc : Composite) :
    (∀ c r, (RowsLit ox oy rows rs c r → pix (composeRows ox oy rows rs acc).display c r = !pix acc.display c r) ∧
      (¬ RowsLit ox oy rows rs c r → pix (composeRows ox oy rows rs acc).display c r = pix acc.display c r)) ∧
    ((composeRows ox oy rows rs acc).hit = true ↔
      acc.hit = true ∨ ∃ c r, RowsLit ox oy rows rs c r ∧ pix acc.display c r = true) := by
  induction rs generalizing acc with
  | nil => simp [composeRows, RowsLit]
  | cons k rs ih =>
    rw [List.nodup_cons] at hnd
    obtain ⟨hp, hh⟩ := drawRow_spec ox oy k (rows k) acc
    obtain ⟨ihp, ihh⟩ := ih hnd.2 (fun r hr => hlt r (by simp [hr])) (drawRow ox oy k (rows k) acc)
    have hk : k < 16 := hlt k (by simp)
    have hnot : ∀ c, ¬ RowsLit ox oy rows rs c (spriteRow oy k) := by
      rintro c ⟨r, hr, -, e⟩
      exact hnd.1 (spriteRow_inj hk (hlt r (by simp [hr])) e ▸ hr)
    have hcons : ∀ c r, RowsLit ox oy rows (k :: rs) c r ↔
        (BitsLit ox (rows k) [0, 1, 2, 3, 4, 5, 6, 7] c ∧ r = spriteRow oy k) ∨ RowsLit ox oy rows rs c r := by
      intro c r; simp [RowsLit]
    have hunfold : composeRows ox oy rows (k :: rs) acc = composeRows ox oy rows rs (drawRow ox oy k (rows k) acc) := rfl
    rw [hunfold]
    refine ⟨fun c r => ⟨fun h => ?_, fun h => ?_⟩, ?_⟩
    · rcases (hcons c r).mp h with h | h
      · rw [(ihp c r).2 (fun h' => hnot c (h.2 ▸ h')), (hp c r).1 h]
      · rw [(ihp c r).1 h, (hp c r).2 (fun h' => hnot c (h'.2 ▸ h))]
    · rw [(ihp c r).2 (fun h' => h ((hcons c r).mpr (.inr h'))), (hp c r).2 (fun h' => h ((hcons c r).mpr (.inl h')))]
    · rw [ihh, hh]
      constructor
      · rintro ((h | ⟨c, hc, h⟩) | ⟨c, r, hl, h⟩)
        · exact .inl h
        · exact .inr ⟨c, _, (hcons c _).mpr (.inl ⟨hc, rfl⟩), h⟩
        · refine .inr ⟨c, r, (hcons c r).mpr (.inr hl), ?_⟩
          rwa [(hp c r).2 (fun h' => hnot c (h'.2 ▸ hl))] at h
      · rintro (h | ⟨c, r, hl, h⟩)
        · exact .inl (.inl h)
        · rcases (hcons c r).mp hl with ⟨hc, rfl⟩ | hl
          · exact .inl (.inr ⟨c, hc, h⟩)
          · refine .inr ⟨c, r, hl, ?_⟩
            rwa [(hp c r).2 (fun h' => hnot c (h'.2 ▸ hl))]

/-- With I set and every row's byte readable, drawing the rows composes their bytes. -/
theorem drawRows_ok (ox oy : Byte) (t : State) (i : Word) (rows : Nat → Byte) (rs : List Nat) (acc : Composite)
    (hi : rs ≠ [] → t.index = some i) (hb : ∀ k ∈ rs, t.byteAt (effAddr i k) = some (rows k)) :
    drawRows ox oy t rs acc = .ok (composeRows ox oy rows rs acc) := by
  induction rs generalizing acc with
  | nil => rfl
  | cons k rs ih =>
    have hi' := hi (by simp)
    simp only [drawRows, State.readIndex_of_some hi', ok_bind, State.readByte_of_some (hb k (by simp))]
    exact ih _ (fun _ => hi') (fun j hj => hb j (by simp [hj]))

/-- Rows that were drawn had I set, if there were any, and every byte readable. -/
theorem drawRows_inv {ox oy : Byte} {t : State} {rs : List Nat} {acc out : Composite} {i : Word}
    (hi : t.index = some i) (h : drawRows ox oy t rs acc = .ok out) :
    ∀ k ∈ rs, t.byteAt (effAddr i k) ≠ none := by
  induction rs generalizing acc with
  | nil => simp
  | cons k rs ih =>
    rw [drawRows, State.readIndex_of_some hi, ok_bind] at h
    obtain ⟨b, hb, h⟩ := bind_eq_ok.mp h
    intro j hj
    rcases List.mem_cons.mp hj with rfl | hj
    · rw [State.readByte_eq_ok.mp hb]; simp
    · exact ih h j hj

/-- Drawing rows in two parts. -/
theorem drawRows_append (ox oy : Byte) (t : State) (xs ys : List Nat) (acc : Composite) :
    drawRows ox oy t (xs ++ ys) acc = drawRows ox oy t xs acc >>= drawRows ox oy t ys := by
  induction xs generalizing acc with
  | nil => rfl
  | cons k xs ih =>
    simp only [List.cons_append, drawRows, ih]
    cases t.readIndex <;> simp

/-- The rows drawn depend on I, memory and the font alone. -/
theorem drawRows_congr (ox oy : Byte) (t t' : State) (hi : t'.index = t.index) (hm : t'.mem = t.mem)
    (hp : t'.params = t.params) (rs : List Nat) (acc : Composite) : drawRows ox oy t' rs acc = drawRows ox oy t rs acc := by
  induction rs generalizing acc with
  | nil => rfl
  | cons k rs ih =>
    have h1 : t'.readIndex = t.readIndex := by unfold State.readIndex; rw [hi]
    have h2 : ∀ a, t'.readByte a = t.readByte a := by
      intro a; unfold State.readByte; rw [State.byteAt_congr hm hp]
    simp only [drawRows, h1, h2, ih]

end Sys2Proof.Machine
end

