-- ==== Sys2Proof/Laws/Flags.lean ====
section
/-! SUPPORT. What the flag computations give, and what writing a result and then the flag leaves. -/

namespace Sys2Proof.Machine

theorem flagOf_true : flagOf true = 1#8 := rfl

theorem flagOf_false : flagOf false = 0#8 := rfl

/-- A flag is 0 or 1. -/
theorem flagOf_zero_or_one (c : Bool) : flagOf c = 0#8 ∨ flagOf c = 1#8 := by cases c <;> simp [flagOf]

theorem carryFlag_eq (a b : Byte) : carryFlag a b = if a.toNat + b.toNat > 255 then 1 else 0 := by
  unfold carryFlag flagOf; simp

theorem notBorrowFlag_eq (a b : Byte) : notBorrowFlag a b = if a.toNat ≥ b.toNat then 1 else 0 := by
  unfold notBorrowFlag flagOf; simp

theorem shiftRightFlag_eq (a : Byte) : shiftRightFlag a = if a.getLsbD 0 then 1 else 0 := rfl

theorem shiftLeftFlag_eq (a : Byte) : shiftLeftFlag a = if a.getLsbD 7 then 1 else 0 := rfl

/-- Writing a result and then the flag: VF holds the flag, Vx the result unless it is VF, and every other register is as
before. -/
theorem writeWithFlag_v (x : Reg) (result flag : Byte) (t : State) (q : Reg) :
    (writeWithFlag x result flag t).v[q] = if q = 15 then some flag else if q = x then some result else t.v[q] := by
  unfold writeWithFlag
  rw [State.setFlag_v, State.getElem_set_reg, State.setReg_v, State.getElem_set_reg]

/-- Writing a result and then the flag changes registers alone. -/
theorem writeWithFlag_eq (x : Reg) (result flag : Byte) (t : State) :
    writeWithFlag x result flag t = { t with v := (writeWithFlag x result flag t).v } := rfl

end Sys2Proof.Machine
end

