-- ==== Sys2Proof/Laws/Exec.lean ====
section
/-! SUPPORT. What each meaning can answer, said once: the raise of an error, or the state named. A claim over all
instructions cites these and unfolds no meaning. -/

namespace Sys2Proof.Machine

variable {s t : State}

theorem execCls_cases (h : execCls s = .next t) :
    (∃ c, t = s.raise c) ∨ t = s.fetched.setDisplay blankDisplay := by
  rcases execute_eq_next.mp h with h | ⟨c, -, h⟩
  · exact .inr (Except.ok.inj h).symm
  · exact .inl ⟨c, h⟩

theorem execSys_cases (nnn : Addr) (h : execSys nnn s = .next t) :
    (∃ c, t = s.raise c) ∨ t = s.fetched := by
  rcases execute_eq_next.mp h with h | ⟨c, -, h⟩
  · exact .inr (Except.ok.inj h).symm
  · exact .inl ⟨c, h⟩

theorem execJp_cases (nnn : Addr) (h : execJp nnn s = .next t) :
    (∃ c, t = s.raise c) ∨ t = s.fetched.setPc (zext16 nnn) := by
  rcases execute_eq_next.mp h with h | ⟨c, -, h⟩
  · exact .inr (Except.ok.inj h).symm
  · exact .inl ⟨c, h⟩

theorem execSeImm_cases (x : Reg) (nn : Byte) (h : execSeImm x nn s = .next t) :
    (∃ c, t = s.raise c) ∨ ∃ a, s.v[x] = some a ∧ t = s.fetched.skipIf (a == nn) := by
  rcases execute_eq_next.mp h with h | ⟨c, -, h⟩
  · obtain ⟨a, ha, h⟩ := bind_eq_ok.mp h
    exact .inr ⟨a, State.reg_eq_ok.mp ha, (Except.ok.inj h).symm⟩
  · exact .inl ⟨c, h⟩

theorem execSneImm_cases (x : Reg) (nn : Byte) (h : execSneImm x nn s = .next t) :
    (∃ c, t = s.raise c) ∨ ∃ a, s.v[x] = some a ∧ t = s.fetched.skipIf (a != nn) := by
  rcases execute_eq_next.mp h with h | ⟨c, -, h⟩
  · obtain ⟨a, ha, h⟩ := bind_eq_ok.mp h
    exact .inr ⟨a, State.reg_eq_ok.mp ha, (Except.ok.inj h).symm⟩
  · exact .inl ⟨c, h⟩

theorem execSeReg_cases (x y : Reg) (h : execSeReg x y s = .next t) :
    (∃ c, t = s.raise c) ∨ ∃ a b, s.v[x] = some a ∧ s.v[y] = some b ∧ t = s.fetched.skipIf (a == b) := by
  rcases execute_eq_next.mp h with h | ⟨c, -, h⟩
  · obtain ⟨a, ha, h⟩ := bind_eq_ok.mp h
    obtain ⟨b, hb, h⟩ := bind_eq_ok.mp h
    exact .inr ⟨a, b, State.reg_eq_ok.mp ha, State.reg_eq_ok.mp hb, (Except.ok.inj h).symm⟩
  · exact .inl ⟨c, h⟩

theorem execSneReg_cases (x y : Reg) (h : execSneReg x y s = .next t) :
    (∃ c, t = s.raise c) ∨ ∃ a b, s.v[x] = some a ∧ s.v[y] = some b ∧ t = s.fetched.skipIf (a != b) := by
  rcases execute_eq_next.mp h with h | ⟨c, -, h⟩
  · obtain ⟨a, ha, h⟩ := bind_eq_ok.mp h
    obtain ⟨b, hb, h⟩ := bind_eq_ok.mp h
    exact .inr ⟨a, b, State.reg_eq_ok.mp ha, State.reg_eq_ok.mp hb, (Except.ok.inj h).symm⟩
  · exact .inl ⟨c, h⟩

theorem execJpV0_cases (nnn : Addr) (h : execJpV0 nnn s = .next t) :
    (∃ c, t = s.raise c) ∨ ∃ a, s.v[(0 : Reg)] = some a ∧ t = s.fetched.setPc (zext16 nnn + a.setWidth 16) := by
  rcases execute_eq_next.mp h with h | ⟨c, -, h⟩
  · obtain ⟨a, ha, h⟩ := bind_eq_ok.mp h
    exact .inr ⟨a, State.reg_eq_ok.mp ha, (Except.ok.inj h).symm⟩
  · exact .inl ⟨c, h⟩

theorem execLdImm_cases (x : Reg) (nn : Byte) (h : execLdImm x nn s = .next t) :
    (∃ c, t = s.raise c) ∨ t = s.fetched.setReg x nn := by
  rcases execute_eq_next.mp h with h | ⟨c, -, h⟩
  · exact .inr (Except.ok.inj h).symm
  · exact .inl ⟨c, h⟩

theorem execAddImm_cases (x : Reg) (nn : Byte) (h : execAddImm x nn s = .next t) :
    (∃ c, t = s.raise c) ∨ ∃ a, s.v[x] = some a ∧ t = s.fetched.setReg x (addByte a nn) := by
  rcases execute_eq_next.mp h with h | ⟨c, -, h⟩
  · obtain ⟨a, ha, h⟩ := bind_eq_ok.mp h
    exact .inr ⟨a, State.reg_eq_ok.mp ha, (Except.ok.inj h).symm⟩
  · exact .inl ⟨c, h⟩

theorem execLdReg_cases (x y : Reg) (h : execLdReg x y s = .next t) :
    (∃ c, t = s.raise c) ∨ ∃ a, s.v[y] = some a ∧ t = s.fetched.setReg x a := by
  rcases execute_eq_next.mp h with h | ⟨c, -, h⟩
  · obtain ⟨a, ha, h⟩ := bind_eq_ok.mp h
    exact .inr ⟨a, State.reg_eq_ok.mp ha, (Except.ok.inj h).symm⟩
  · exact .inl ⟨c, h⟩

theorem execOr_cases (x y : Reg) (h : execOr x y s = .next t) :
    (∃ c, t = s.raise c) ∨ ∃ a b, s.v[x] = some a ∧ s.v[y] = some b ∧ t = s.fetched.setReg x (a ||| b) := by
  rcases execute_eq_next.mp h with h | ⟨c, -, h⟩
  · obtain ⟨a, ha, h⟩ := bind_eq_ok.mp h
    obtain ⟨b, hb, h⟩ := bind_eq_ok.mp h
    exact .inr ⟨a, b, State.reg_eq_ok.mp ha, State.reg_eq_ok.mp hb, (Except.ok.inj h).symm⟩
  · exact .inl ⟨c, h⟩

theorem execAnd_cases (x y : Reg) (h : execAnd x y s = .next t) :
    (∃ c, t = s.raise c) ∨ ∃ a b, s.v[x] = some a ∧ s.v[y] = some b ∧ t = s.fetched.setReg x (a &&& b) := by
  rcases execute_eq_next.mp h with h | ⟨c, -, h⟩
  · obtain ⟨a, ha, h⟩ := bind_eq_ok.mp h
    obtain ⟨b, hb, h⟩ := bind_eq_ok.mp h
    exact .inr ⟨a, b, State.reg_eq_ok.mp ha, State.reg_eq_ok.mp hb, (Except.ok.inj h).symm⟩
  · exact .inl ⟨c, h⟩

theorem execXor_cases (x y : Reg) (h : execXor x y s = .next t) :
    (∃ c, t = s.raise c) ∨ ∃ a b, s.v[x] = some a ∧ s.v[y] = some b ∧ t = s.fetched.setReg x (a ^^^ b) := by
  rcases execute_eq_next.mp h with h | ⟨c, -, h⟩
  · obtain ⟨a, ha, h⟩ := bind_eq_ok.mp h
    obtain ⟨b, hb, h⟩ := bind_eq_ok.mp h
    exact .inr ⟨a, b, State.reg_eq_ok.mp ha, State.reg_eq_ok.mp hb, (Except.ok.inj h).symm⟩
  · exact .inl ⟨c, h⟩

theorem execAddReg_cases (x y : Reg) (h : execAddReg x y s = .next t) :
    (∃ c, t = s.raise c) ∨ ∃ a b, s.v[x] = some a ∧ s.v[y] = some b ∧ t = writeWithFlag x (addByte a b) (carryFlag a b) s.fetched := by
  rcases execute_eq_next.mp h with h | ⟨c, -, h⟩
  · obtain ⟨a, ha, h⟩ := bind_eq_ok.mp h
    obtain ⟨b, hb, h⟩ := bind_eq_ok.mp h
    exact .inr ⟨a, b, State.reg_eq_ok.mp ha, State.reg_eq_ok.mp hb, (Except.ok.inj h).symm⟩
  · exact .inl ⟨c, h⟩

theorem execSub_cases (x y : Reg) (h : execSub x y s = .next t) :
    (∃ c, t = s.raise c) ∨ ∃ a b, s.v[x] = some a ∧ s.v[y] = some b ∧ t = writeWithFlag x (subByte a b) (notBorrowFlag a b) s.fetched := by
  rcases execute_eq_next.mp h with h | ⟨c, -, h⟩
  · obtain ⟨a, ha, h⟩ := bind_eq_ok.mp h
    obtain ⟨b, hb, h⟩ := bind_eq_ok.mp h
    exact .inr ⟨a, b, State.reg_eq_ok.mp ha, State.reg_eq_ok.mp hb, (Except.ok.inj h).symm⟩
  · exact .inl ⟨c, h⟩

theorem execShr_cases (x y : Reg) (h : execShr x y s = .next t) :
    (∃ c, t = s.raise c) ∨ ∃ a, s.v[x] = some a ∧ t = writeWithFlag x (shiftRightByte a) (shiftRightFlag a) s.fetched := by
  rcases execute_eq_next.mp h with h | ⟨c, -, h⟩
  · obtain ⟨a, ha, h⟩ := bind_eq_ok.mp h
    exact .inr ⟨a, State.reg_eq_ok.mp ha, (Except.ok.inj h).symm⟩
  · exact .inl ⟨c, h⟩

theorem execSubn_cases (x y : Reg) (h : execSubn x y s = .next t) :
    (∃ c, t = s.raise c) ∨ ∃ a b, s.v[x] = some a ∧ s.v[y] = some b ∧ t = writeWithFlag x (subByte b a) (notBorrowFlag b a) s.fetched := by
  rcases execute_eq_next.mp h with h | ⟨c, -, h⟩
  · obtain ⟨a, ha, h⟩ := bind_eq_ok.mp h
    obtain ⟨b, hb, h⟩ := bind_eq_ok.mp h
    exact .inr ⟨a, b, State.reg_eq_ok.mp ha, State.reg_eq_ok.mp hb, (Except.ok.inj h).symm⟩
  · exact .inl ⟨c, h⟩

theorem execShl_cases (x y : Reg) (h : execShl x y s = .next t) :
    (∃ c, t = s.raise c) ∨ ∃ a, s.v[x] = some a ∧ t = writeWithFlag x (shiftLeftByte a) (shiftLeftFlag a) s.fetched := by
  rcases execute_eq_next.mp h with h | ⟨c, -, h⟩
  · obtain ⟨a, ha, h⟩ := bind_eq_ok.mp h
    exact .inr ⟨a, State.reg_eq_ok.mp ha, (Except.ok.inj h).symm⟩
  · exact .inl ⟨c, h⟩

theorem execRnd_cases (x : Reg) (nn : Byte) (h : execRnd x nn s = .next t) :
    (∃ c, t = s.raise c) ∨ t = s.fetched.setReg x (s.fetched.drawRnd &&& nn) := by
  rcases execute_eq_next.mp h with h | ⟨c, -, h⟩
  · exact .inr (Except.ok.inj h).symm
  · exact .inl ⟨c, h⟩

theorem execLdI_cases (nnn : Addr) (h : execLdI nnn s = .next t) :
    (∃ c, t = s.raise c) ∨ t = s.fetched.setIndex (zext16 nnn) := by
  rcases execute_eq_next.mp h with h | ⟨c, -, h⟩
  · exact .inr (Except.ok.inj h).symm
  · exact .inl ⟨c, h⟩

theorem execLdXDt_cases (x : Reg) (h : execLdXDt x s = .next t) :
    (∃ c, t = s.raise c) ∨ t = s.fetched.setReg x s.dt := by
  rcases execute_eq_next.mp h with h | ⟨c, -, h⟩
  · exact .inr (Except.ok.inj h).symm
  · exact .inl ⟨c, h⟩

theorem execLdDtX_cases (x : Reg) (h : execLdDtX x s = .next t) :
    (∃ c, t = s.raise c) ∨ ∃ a, s.v[x] = some a ∧ t = s.fetched.setDelayTimer a := by
  rcases execute_eq_next.mp h with h | ⟨c, -, h⟩
  · obtain ⟨a, ha, h⟩ := bind_eq_ok.mp h
    exact .inr ⟨a, State.reg_eq_ok.mp ha, (Except.ok.inj h).symm⟩
  · exact .inl ⟨c, h⟩

theorem execLdStX_cases (x : Reg) (h : execLdStX x s = .next t) :
    (∃ c, t = s.raise c) ∨ ∃ a, s.v[x] = some a ∧ t = s.fetched.setSoundTimer a := by
  rcases execute_eq_next.mp h with h | ⟨c, -, h⟩
  · obtain ⟨a, ha, h⟩ := bind_eq_ok.mp h
    exact .inr ⟨a, State.reg_eq_ok.mp ha, (Except.ok.inj h).symm⟩
  · exact .inl ⟨c, h⟩

theorem execSkp_cases (x : Reg) (h : execSkp x s = .next t) :
    (∃ c, t = s.raise c) ∨ ∃ (a : Byte) (k : Key), s.v[x] = some a ∧ a.toNat = k.val ∧ t = s.fetched.skipIf s.keys[k] := by
  rcases execute_eq_next.mp h with h | ⟨c, -, h⟩
  · obtain ⟨down, hd, h⟩ := bind_eq_ok.mp h
    obtain ⟨a, k, ha, hk, rfl⟩ := keyOperand_eq_ok.mp hd
    exact .inr ⟨a, k, ha, hk, (Except.ok.inj h).symm⟩
  · exact .inl ⟨c, h⟩

theorem execSknp_cases (x : Reg) (h : execSknp x s = .next t) :
    (∃ c, t = s.raise c) ∨ ∃ (a : Byte) (k : Key), s.v[x] = some a ∧ a.toNat = k.val ∧ t = s.fetched.skipIf (!s.keys[k]) := by
  rcases execute_eq_next.mp h with h | ⟨c, -, h⟩
  · obtain ⟨down, hd, h⟩ := bind_eq_ok.mp h
    obtain ⟨a, k, ha, hk, rfl⟩ := keyOperand_eq_ok.mp hd
    exact .inr ⟨a, k, ha, hk, (Except.ok.inj h).symm⟩
  · exact .inl ⟨c, h⟩

theorem execLdXK_cases (x : Reg) (h : execLdXK x s = .next t) :
    (∃ c, t = s.raise c) ∨ (∃ k, firstKeyDown s.keys = some k ∧ t = s.fetched.setReg x (BitVec.ofNat 8 k.val)) ∨
    (firstKeyDown s.keys = none ∧ t = s) := by
  rcases execute_eq_next.mp h with h | ⟨c, -, h⟩
  · rw [State.fetched_keys] at h
    split at h
    · exact .inr (.inl ⟨_, by assumption, (Except.ok.inj h).symm⟩)
    · refine .inr (.inr ⟨by assumption, ?_⟩)
      rw [← Except.ok.inj h]
      unfold State.setPc State.fetched; simp
  · exact .inl ⟨c, h⟩

theorem execAddIX_cases (x : Reg) (h : execAddIX x s = .next t) :
    (∃ c, t = s.raise c) ∨ ∃ (i : Word) (a : Byte), s.index = some i ∧ s.v[x] = some a ∧ i.toNat + a.toNat ≤ 0xFFFF ∧
    t = s.fetched.setIndex (BitVec.ofNat 16 (i.toNat + a.toNat)) := by
  rcases execute_eq_next.mp h with h | ⟨c, -, h⟩
  · obtain ⟨i, hi, h⟩ := bind_eq_ok.mp h
    obtain ⟨a, ha, h⟩ := bind_eq_ok.mp h
    split at h
    · cases h
    · exact .inr ⟨i, a, State.readIndex_eq_ok.mp hi, State.reg_eq_ok.mp ha, by omega, (Except.ok.inj h).symm⟩
  · exact .inl ⟨c, h⟩

theorem execLdFX_cases (x : Reg) (h : execLdFX x s = .next t) :
    (∃ c, t = s.raise c) ∨ ∃ d : Byte, s.v[x] = some d ∧ d.toNat ≤ 15 ∧ t = s.fetched.setIndex (glyphAddr s.params.font d.toNat) := by
  rcases execute_eq_next.mp h with h | ⟨c, -, h⟩
  · obtain ⟨n, hn, h⟩ := bind_eq_ok.mp h
    obtain ⟨d, hd, hle, rfl⟩ := digitOperand_eq_ok.mp hn
    exact .inr ⟨d, hd, hle, (Except.ok.inj h).symm⟩
  · exact .inl ⟨c, h⟩

theorem execLdBX_cases (x : Reg) (h : execLdBX x s = .next t) :
    (∃ c, t = s.raise c) ∨ ∃ (v : Byte) (i : Word), s.v[x] = some v ∧ s.index = some i ∧ effAddr i 2 < memSize ∧
    t = ((s.fetched.setByte (effAddr i 0) (bcdHundreds v)).setByte (effAddr i 1) (bcdTens v)).setByte (effAddr i 2) (bcdOnes v) := by
  rcases execute_eq_next.mp h with h | ⟨c, -, h⟩
  · obtain ⟨v, hv, h⟩ := bind_eq_ok.mp h
    obtain ⟨i, hi, h⟩ := bind_eq_ok.mp h
    obtain ⟨t1, h1, h⟩ := bind_eq_ok.mp h
    obtain ⟨t2, h2, h⟩ := bind_eq_ok.mp h
    obtain ⟨-, rfl⟩ := State.writeByte_eq_ok.mp h1
    obtain ⟨-, rfl⟩ := State.writeByte_eq_ok.mp h2
    obtain ⟨hlt, rfl⟩ := State.writeByte_eq_ok.mp h
    exact .inr ⟨v, i, State.reg_eq_ok.mp hv, State.readIndex_eq_ok.mp hi, hlt, rfl⟩
  · exact .inl ⟨c, h⟩

theorem execLdMemX_cases (x : Reg) (h : execLdMemX x s = .next t) :
    (∃ c, t = s.raise c) ∨ storeRegs (regsUpTo x) s.fetched = .ok t := by
  rcases execute_eq_next.mp h with h | ⟨c, -, h⟩
  · exact .inr h
  · exact .inl ⟨c, h⟩

theorem execLdXMem_cases (x : Reg) (h : execLdXMem x s = .next t) :
    (∃ c, t = s.raise c) ∨ loadRegs (regsUpTo x) s.fetched = .ok t := by
  rcases execute_eq_next.mp h with h | ⟨c, -, h⟩
  · exact .inr h
  · exact .inl ⟨c, h⟩

theorem execDrw_cases (x y : Reg) (n : Nibble) (h : execDrw x y n s = .next t) :
    (∃ c, t = s.raise c) ∨ ∃ ox oy out, s.v[x] = some ox ∧ s.v[y] = some oy ∧
    drawRows ox oy s.fetched (List.range n.toNat) ⟨s.display, false⟩ = .ok out ∧
    t = (s.fetched.setDisplay out.display).setFlag (collisionFlag out.hit) := by
  rcases execute_eq_next.mp h with h | ⟨c, -, h⟩
  · obtain ⟨ox, hx, h⟩ := bind_eq_ok.mp h
    obtain ⟨oy, hy, h⟩ := bind_eq_ok.mp h
    obtain ⟨out, ho, h⟩ := bind_eq_ok.mp h
    exact .inr ⟨ox, oy, out, State.reg_eq_ok.mp hx, State.reg_eq_ok.mp hy, ho, (Except.ok.inj h).symm⟩
  · exact .inl ⟨c, h⟩

theorem execCall_cases (nnn : Addr) (h : execCall nnn s = .next t) :
    (∃ c, t = s.raise c) ∨ s.sp ≠ 15 ∧ t = s.fetched.pushReturn.setPc (zext16 nnn) := by
  rcases execute_eq_next.mp h with h | ⟨c, -, h⟩
  · split at h
    · cases h
    · exact .inr ⟨by assumption, (Except.ok.inj h).symm⟩
  · exact .inl ⟨c, h⟩

theorem execRet_cases (h : execRet s = .next t) :
    (∃ c, t = s.raise c) ∨ s.sp ≠ 0 ∧ ∃ ra, s.stack[s.sp] = some ra ∧ t = s.fetched.popReturn ra := by
  unfold execRet at h
  split at h
  · rcases execute_eq_next.mp h with h | ⟨c, -, h⟩
    · cases h
    · exact .inl ⟨c, h⟩
  · split at h
    · rcases execute_eq_next.mp h with h | ⟨c, -, h⟩
      · exact .inr ⟨by assumption, _, by assumption, (Except.ok.inj h).symm⟩
      · exact .inl ⟨c, h⟩
    · cases h

end Sys2Proof.Machine
end

