-- ==== Sys2Proof/Laws/PerInstr.lean ====
section
/-! SUPPORT. The family ClassifyEncode: classifying the encoding of a well-formed instruction gives it back, one lemma per
constructor. -/

namespace Sys2Proof.Laws.ClassifyEncode

/-- What the family says of an instruction. -/
def Statement (i : Instr) : Prop := i.wellFormed = true → classify (encode i) = .ok i

theorem cls : Statement .cls := fun _ => by decide

theorem ret : Statement .ret := fun _ => by decide

theorem sys (nnn : Addr) : Statement (.sys nnn) := fun h => by
  have h' := formA_ne_literal (nnn := nnn) (by simpa [Instr.wellFormed] using h)
  simp [classify, encode, h']

theorem jp (nnn : Addr) : Statement (.jp nnn) := fun _ => by
  have h := ne_literal_of_opOf (w := encode (.jp nnn)) (by simp [encode])
  simp only [encode] at h
  simp [classify, encode, h]

theorem call (nnn : Addr) : Statement (.call nnn) := fun _ => by
  have h := ne_literal_of_opOf (w := encode (.call nnn)) (by simp [encode])
  simp only [encode] at h
  simp [classify, encode, h]

theorem seImm (x : Reg) (nn : Byte) : Statement (.seImm x nn) := fun _ => by
  have h := ne_literal_of_opOf (w := encode (.seImm x nn)) (by simp [encode])
  simp only [encode] at h
  simp [classify, encode, h]

theorem sneImm (x : Reg) (nn : Byte) : Statement (.sneImm x nn) := fun _ => by
  have h := ne_literal_of_opOf (w := encode (.sneImm x nn)) (by simp [encode])
  simp only [encode] at h
  simp [classify, encode, h]

theorem seReg (x y : Reg) : Statement (.seReg x y) := fun _ => by
  have h := ne_literal_of_opOf (w := encode (.seReg x y)) (by simp [encode])
  simp only [encode] at h
  simp [classify, encode, h]

theorem ldImm (x : Reg) (nn : Byte) : Statement (.ldImm x nn) := fun _ => by
  have h := ne_literal_of_opOf (w := encode (.ldImm x nn)) (by simp [encode])
  simp only [encode] at h
  simp [classify, encode, h]

theorem addImm (x : Reg) (nn : Byte) : Statement (.addImm x nn) := fun _ => by
  have h := ne_literal_of_opOf (w := encode (.addImm x nn)) (by simp [encode])
  simp only [encode] at h
  simp [classify, encode, h]

theorem ldReg (x y : Reg) : Statement (.ldReg x y) := fun _ => by
  have h := ne_literal_of_opOf (w := encode (.ldReg x y)) (by simp [encode])
  simp only [encode] at h
  simp [classify, encode, h]

theorem or (x y : Reg) : Statement (.or x y) := fun _ => by
  have h := ne_literal_of_opOf (w := encode (.or x y)) (by simp [encode])
  simp only [encode] at h
  simp [classify, encode, h]

theorem and (x y : Reg) : Statement (.and x y) := fun _ => by
  have h := ne_literal_of_opOf (w := encode (.and x y)) (by simp [encode])
  simp only [encode] at h
  simp [classify, encode, h]

theorem xor (x y : Reg) : Statement (.xor x y) := fun _ => by
  have h := ne_literal_of_opOf (w := encode (.xor x y)) (by simp [encode])
  simp only [encode] at h
  simp [classify, encode, h]

theorem addReg (x y : Reg) : Statement (.addReg x y) := fun _ => by
  have h := ne_literal_of_opOf (w := encode (.addReg x y)) (by simp [encode])
  simp only [encode] at h
  simp [classify, encode, h]

theorem sub (x y : Reg) : Statement (.sub x y) := fun _ => by
  have h := ne_literal_of_opOf (w := encode (.sub x y)) (by simp [encode])
  simp only [encode] at h
  simp [classify, encode, h]

theorem shr (x y : Reg) : Statement (.shr x y) := fun _ => by
  have h := ne_literal_of_opOf (w := encode (.shr x y)) (by simp [encode])
  simp only [encode] at h
  simp [classify, encode, h]

theorem subn (x y : Reg) : Statement (.subn x y) := fun _ => by
  have h := ne_literal_of_opOf (w := encode (.subn x y)) (by simp [encode])
  simp only [encode] at h
  simp [classify, encode, h]

theorem shl (x y : Reg) : Statement (.shl x y) := fun _ => by
  have h := ne_literal_of_opOf (w := encode (.shl x y)) (by simp [encode])
  simp only [encode] at h
  simp [classify, encode, h]

theorem sneReg (x y : Reg) : Statement (.sneReg x y) := fun _ => by
  have h := ne_literal_of_opOf (w := encode (.sneReg x y)) (by simp [encode])
  simp only [encode] at h
  simp [classify, encode, h]

theorem ldI (nnn : Addr) : Statement (.ldI nnn) := fun _ => by
  have h := ne_literal_of_opOf (w := encode (.ldI nnn)) (by simp [encode])
  simp only [encode] at h
  simp [classify, encode, h]

theorem jpV0 (nnn : Addr) : Statement (.jpV0 nnn) := fun _ => by
  have h := ne_literal_of_opOf (w := encode (.jpV0 nnn)) (by simp [encode])
  simp only [encode] at h
  simp [classify, encode, h]

theorem rnd (x : Reg) (nn : Byte) : Statement (.rnd x nn) := fun _ => by
  have h := ne_literal_of_opOf (w := encode (.rnd x nn)) (by simp [encode])
  simp only [encode] at h
  simp [classify, encode, h]

theorem drw (x y : Reg) (n : Nibble) : Statement (.drw x y n) := fun _ => by
  have h := ne_literal_of_opOf (w := encode (.drw x y n)) (by simp [encode])
  simp only [encode] at h
  simp [classify, encode, h]

theorem skp (x : Reg) : Statement (.skp x) := fun _ => by
  have h := ne_literal_of_opOf (w := encode (.skp x)) (by simp [encode])
  simp only [encode] at h
  simp [classify, encode, h]

theorem sknp (x : Reg) : Statement (.sknp x) := fun _ => by
  have h := ne_literal_of_opOf (w := encode (.sknp x)) (by simp [encode])
  simp only [encode] at h
  simp [classify, encode, h]

theorem ldXDt (x : Reg) : Statement (.ldXDt x) := fun _ => by
  have h := ne_literal_of_opOf (w := encode (.ldXDt x)) (by simp [encode])
  simp only [encode] at h
  simp [classify, encode, h]

theorem ldXK (x : Reg) : Statement (.ldXK x) := fun _ => by
  have h := ne_literal_of_opOf (w := encode (.ldXK x)) (by simp [encode])
  simp only [encode] at h
  simp [classify, encode, h]

theorem ldDtX (x : Reg) : Statement (.ldDtX x) := fun _ => by
  have h := ne_literal_of_opOf (w := encode (.ldDtX x)) (by simp [encode])
  simp only [encode] at h
  simp [classify, encode, h]

theorem ldStX (x : Reg) : Statement (.ldStX x) := fun _ => by
  have h := ne_literal_of_opOf (w := encode (.ldStX x)) (by simp [encode])
  simp only [encode] at h
  simp [classify, encode, h]

theorem addIX (x : Reg) : Statement (.addIX x) := fun _ => by
  have h := ne_literal_of_opOf (w := encode (.addIX x)) (by simp [encode])
  simp only [encode] at h
  simp [classify, encode, h]

theorem ldFX (x : Reg) : Statement (.ldFX x) := fun _ => by
  have h := ne_literal_of_opOf (w := encode (.ldFX x)) (by simp [encode])
  simp only [encode] at h
  simp [classify, encode, h]

theorem ldBX (x : Reg) : Statement (.ldBX x) := fun _ => by
  have h := ne_literal_of_opOf (w := encode (.ldBX x)) (by simp [encode])
  simp only [encode] at h
  simp [classify, encode, h]

theorem ldMemX (x : Reg) : Statement (.ldMemX x) := fun _ => by
  have h := ne_literal_of_opOf (w := encode (.ldMemX x)) (by simp [encode])
  simp only [encode] at h
  simp [classify, encode, h]

theorem ldXMem (x : Reg) : Statement (.ldXMem x) := fun _ => by
  have h := ne_literal_of_opOf (w := encode (.ldXMem x)) (by simp [encode])
  simp only [encode] at h
  simp [classify, encode, h]

end Sys2Proof.Laws.ClassifyEncode
end

