-- ==== Sys2Proof/Tests/Slice0.lean ====
section
/-! SUPPORT. The model's own tests: the well-formedness smoke, every constructor's decoding by a word written out from
R96 to R100, single steps from the vectors of 95_test_vectors.md, and for every statement with hypotheses a state that
meets them. -/

namespace Sys2Proof.Tests

open Sys2Proof Sys2Proof.Machine

/-! ### Helpers -/

/-- The reset state with some general registers set. -/
def regs (l : List (Reg × Byte)) : State := l.foldl (fun s p => s.setReg p.1 p.2) State.reset

/-- Bytes stored from an address. -/
def bytes (a : Nat) (bs : List Byte) (s : State) : State := { s with mem := Memory.writeList s.params.font s.mem a bs }

/-- A driver's input: keys up, an elapsed time as a number of sixtieths of a second, a random byte. -/
def input (sixtieths : Nat) (rnd : Byte) : CycleInput := { keys := none, elapsed := Elapsed.ofFrac sixtieths 60, rnd := rnd }

/-- One step that runs the word `w` with the driver's input `inp`. -/
def run1 (w : Nat) (s : State) (inp : CycleInput := input 0 0) : Outcome :=
  step (({ s with inputs := [inp] } : State).withFetchWord 16 w)

/-- A part of the next state. -/
def after {α : Type} (o : Outcome) (f : State → α) : Option α :=
  match o with
  | .next t => some (f t)
  | .fault _ => none
  | .refused _ => none

/-- The cause of a halt. -/
def haltOf (t : State) : Option Cause :=
  match t.status with
  | .running => none
  | .halted e => some e.cause

/-- The key `k` down and every other up. -/
def onlyKey (k : Key) : Keypad := Vector.ofFn fun j => j == k

/-! ### WellFormed -/

theorem test_wf_refuses_sys_0E0 : (Instr.sys 0x0E0).wellFormed = false := by decide

theorem test_wf_refuses_sys_0EE : (Instr.sys 0x0EE).wellFormed = false := by decide

theorem test_wf_accepts_sys_0E1 : (Instr.sys 0x0E1).wellFormed = true := by decide

/-! ### Decoding: one word for each constructor, the nibbles of R96 and the patterns of R100 -/

theorem test_decode_cls : decodeTableWord 16 0x00E0 = some .cls := by decide
theorem test_decode_ret : decodeTableWord 16 0x00EE = some .ret := by decide
theorem test_decode_sys : decodeTableWord 16 0x0FFF = some (.sys 0xFFF) := by decide
theorem test_decode_jp : decodeTableWord 16 0x1300 = some (.jp 0x300) := by decide
theorem test_decode_call : decodeTableWord 16 0x220A = some (.call 0x20A) := by decide
theorem test_decode_seImm : decodeTableWord 16 0x3312 = some (.seImm 3 0x12) := by decide
theorem test_decode_sneImm : decodeTableWord 16 0x4313 = some (.sneImm 3 0x13) := by decide
theorem test_decode_seReg : decodeTableWord 16 0x5120 = some (.seReg 1 2) := by decide
theorem test_decode_ldImm : decodeTableWord 16 0x6A2B = some (.ldImm 10 0x2B) := by decide
theorem test_decode_addImm : decodeTableWord 16 0x7102 = some (.addImm 1 0x02) := by decide
theorem test_decode_ldReg : decodeTableWord 16 0x8120 = some (.ldReg 1 2) := by decide
theorem test_decode_or : decodeTableWord 16 0x8121 = some (.or 1 2) := by decide
theorem test_decode_and : decodeTableWord 16 0x8122 = some (.and 1 2) := by decide
theorem test_decode_xor : decodeTableWord 16 0x8123 = some (.xor 1 2) := by decide
theorem test_decode_addReg : decodeTableWord 16 0x8AB4 = some (.addReg 10 11) := by decide
theorem test_decode_sub : decodeTableWord 16 0x8AB5 = some (.sub 10 11) := by decide
theorem test_decode_shr : decodeTableWord 16 0x8126 = some (.shr 1 2) := by decide
theorem test_decode_subn : decodeTableWord 16 0x8127 = some (.subn 1 2) := by decide
theorem test_decode_shl : decodeTableWord 16 0x812E = some (.shl 1 2) := by decide
theorem test_decode_sneReg : decodeTableWord 16 0x9AB0 = some (.sneReg 10 11) := by decide
theorem test_decode_ldI : decodeTableWord 16 0xA2F0 = some (.ldI 0x2F0) := by decide
theorem test_decode_jpV0 : decodeTableWord 16 0xB300 = some (.jpV0 0x300) := by decide
theorem test_decode_rnd : decodeTableWord 16 0xC10F = some (.rnd 1 0x0F) := by decide
theorem test_decode_drw : decodeTableWord 16 0xD125 = some (.drw 1 2 5) := by decide
theorem test_decode_skp : decodeTableWord 16 0xE59E = some (.skp 5) := by decide
theorem test_decode_sknp : decodeTableWord 16 0xE5A1 = some (.sknp 5) := by decide
theorem test_decode_ldXDt : decodeTableWord 16 0xF307 = some (.ldXDt 3) := by decide
theorem test_decode_ldXK : decodeTableWord 16 0xF20A = some (.ldXK 2) := by decide
theorem test_decode_ldDtX : decodeTableWord 16 0xF115 = some (.ldDtX 1) := by decide
theorem test_decode_ldStX : decodeTableWord 16 0xF118 = some (.ldStX 1) := by decide
theorem test_decode_addIX : decodeTableWord 16 0xF01E = some (.addIX 0) := by decide
theorem test_decode_ldFX : decodeTableWord 16 0xF429 = some (.ldFX 4) := by decide
theorem test_decode_ldBX : decodeTableWord 16 0xF333 = some (.ldBX 3) := by decide
theorem test_decode_ldMemX : decodeTableWord 16 0xF255 = some (.ldMemX 2) := by decide
theorem test_decode_ldXMem : decodeTableWord 16 0xFF65 = some (.ldXMem 15) := by decide

/-- The illegal words of the classification table. -/
theorem test_decode_illegal :
    ([0x5121, 0x8128, 0x812F, 0x9AB1, 0xE19F, 0xF100, 0xF175, 0xFFFF] : List Nat).all
      (fun w => (decodeTableWord 16 w).isNone) = true := by decide

/-! ### Fetch (vectors E1 to E6, H6) -/

/-- E1: big-endian. -/
theorem test_fetch_big_endian :
    after (step (bytes 0x200 [0x60, 0x2A] { State.reset with inputs := [input 0 0] })) (fun t => (t.v[(0 : Reg)], t.pc)) =
      some (some 0x2A, 0x202) := by decide

/-- E2: an odd pc. -/
theorem test_fetch_odd_pc : after (run1 0x6105 { State.reset with pc := 0x201 }) (fun t => (t.v[(1 : Reg)], t.pc)) =
    some (some 0x05, 0x203) := by decide

/-- E3: the last pc that can be fetched. -/
theorem test_fetch_top : after (run1 0x1200 { State.reset with pc := 0xFFE }) (fun t => t.pc) = some 0x200 := by decide

/-- E4: the second byte is past the end. -/
theorem test_fetch_past_end :
    after (step (bytes 0xFFF [0x12] { State.reset with pc := 0xFFF })) (fun t => (t.status, t.pc)) =
      some (.halted ⟨.memoryBoundsFault 0x1000, some 0xFFF⟩, 0xFFF) := by decide

/-- E5: pc itself is past the end. -/
theorem test_fetch_beyond : after (step { State.reset with pc := 0x1000 }) haltOf =
    some (some (.memoryBoundsFault 0x1000)) := by decide

/-- E6, H6: nothing is loaded. -/
theorem test_fetch_unset : after (step State.reset) (fun t => (t.status, t.pc)) =
    some (.halted ⟨.uninitializedRead (.mem 0x200), some 0x200⟩, 0x200) := by decide

/-- A word that is no instruction. -/
theorem test_fetch_illegal : after (run1 0x5121 State.reset) (fun t => (t.status, t.pc)) =
    some (.halted ⟨.decodeError 0x5121, some 0x200⟩, 0x200) := by decide

/-! ### Control flow (vectors C1 to C19) -/

theorem test_C1_call : after (run1 0x2300 State.reset) (fun t => (t.sp, t.stack[(1 : Fin 16)], t.pc)) =
    some (1, some 0x202, 0x300) := by decide

theorem test_C4_call_overflow : after (run1 0x2300 { State.reset with sp := 15 }) (fun t => (t.status, t.sp, t.pc)) =
    some (.halted ⟨.stackOverflow, some 0x200⟩, 15, 0x200) := by decide

theorem test_C2_ret :
    after (run1 0x00EE { State.reset with pc := 0x300, sp := 1, stack := State.reset.stack.set 1 (some 0x202) })
      (fun t => (t.sp, t.stack[(1 : Fin 16)], t.pc)) = some (0, some 0x202, 0x202) := by decide

theorem test_C3_ret_underflow : after (run1 0x00EE State.reset) (fun t => t.status) =
    some (.halted ⟨.stackUnderflow, some 0x200⟩) := by decide

theorem test_S8_jp : after (run1 0x1300 State.reset) (fun t => t.pc) = some 0x300 := by decide

theorem test_C19_sys : after (run1 0x0123 State.reset) (fun t => (t.pc, t.v, t.status)) =
    some (0x202, State.reset.v, .running) := by decide

theorem test_C7_se_taken : after (run1 0x3312 (regs [(3, 0x12)])) (fun t => t.pc) = some 0x204 := by decide

theorem test_C8_se_not_taken : after (run1 0x3313 (regs [(3, 0x12)])) (fun t => t.pc) = some 0x202 := by decide

theorem test_C9_sne_not_taken : after (run1 0x4312 (regs [(3, 0x12)])) (fun t => t.pc) = some 0x202 := by decide

theorem test_C10_se_reg : after (run1 0x5120 (regs [(1, 7), (2, 7)])) (fun t => t.pc) = some 0x204 := by decide

theorem test_C12_sne_reg : after (run1 0x9120 (regs [(1, 7), (2, 8)])) (fun t => t.pc) = some 0x204 := by decide

theorem test_C14_unset_register : after (run1 0x3300 State.initial) haltOf =
    some (some (.uninitializedRead (.reg 3))) := by decide

theorem test_C16_jpV0 : after (run1 0xBFFF (regs [(0, 0xFF)])) (fun t => t.pc) = some 0x10FE := by decide

/-! ### Arithmetic and logic (vectors A1 to A31) -/

theorem test_A1_ld : after (run1 0x6A2B State.initial) (fun t => t.v[(10 : Reg)]) = some (some 0x2B) := by decide

theorem test_A2_add_imm : after (run1 0x7102 (regs [(1, 0xFF), (15, 0x07)])) (fun t => (t.v[(1 : Reg)], t.v[(15 : Reg)])) =
    some (some 0x01, some 0x07) := by decide

theorem test_A4_ld_reg : after (run1 0x8120 (regs [(2, 0x44)])) (fun t => t.v[(1 : Reg)]) = some (some 0x44) := by decide

theorem test_A6_or : after (run1 0x8121 (regs [(1, 0x0F), (2, 0xF0), (15, 5)])) (fun t => (t.v[(1 : Reg)], t.v[(15 : Reg)])) =
    some (some 0xFF, some 5) := by decide

theorem test_A7_and : after (run1 0x8122 (regs [(1, 0x3C), (2, 0x0F)])) (fun t => t.v[(1 : Reg)]) = some (some 0x0C) := by
  decide

theorem test_A8_xor : after (run1 0x8123 (regs [(1, 0x3C), (2, 0x0F)])) (fun t => t.v[(1 : Reg)]) = some (some 0x33) := by
  decide

theorem test_S3_add_carry : after (run1 0x8124 (regs [(1, 250), (2, 10)])) (fun t => (t.v[(1 : Reg)], t.v[(15 : Reg)])) =
    some (some 4, some 1) := by decide

theorem test_A13_add_into_flag : after (run1 0x8F14 (regs [(15, 0xFF), (1, 1)])) (fun t => t.v[(15 : Reg)]) =
    some (some 1) := by decide

theorem test_S4_sub_borrow : after (run1 0x8125 (regs [(1, 10), (2, 20)])) (fun t => (t.v[(1 : Reg)], t.v[(15 : Reg)])) =
    some (some 246, some 0) := by decide

theorem test_A15_sub_equal : after (run1 0x8125 (regs [(1, 5), (2, 5)])) (fun t => (t.v[(1 : Reg)], t.v[(15 : Reg)])) =
    some (some 0, some 1) := by decide

theorem test_A22_shr : after (run1 0x8126 (regs [(1, 0x08), (2, 0xFF)])) (fun t => (t.v[(1 : Reg)], t.v[(15 : Reg)])) =
    some (some 0x04, some 0) := by decide

theorem test_A21_shr_flag : after (run1 0x8FF6 (regs [(15, 0x03)])) (fun t => t.v[(15 : Reg)]) = some (some 1) := by decide

theorem test_A23_subn : after (run1 0x8127 (regs [(1, 20), (2, 10)])) (fun t => (t.v[(1 : Reg)], t.v[(15 : Reg)])) =
    some (some 246, some 0) := by decide

theorem test_A26_shl : after (run1 0x810E (regs [(1, 0x81)])) (fun t => (t.v[(1 : Reg)], t.v[(15 : Reg)])) =
    some (some 0x02, some 1) := by decide

theorem test_A29_rnd : after (run1 0xC10F State.reset (input 0 0xB7)) (fun t => t.v[(1 : Reg)]) = some (some 0x07) := by
  decide

/-! ### Index and memory (vectors M1 to M22) -/

theorem test_M1_ld_I : after (run1 0xA2F0 State.initial) (fun t => t.index) = some (some 0x2F0) := by decide

theorem test_M2_add_I : after (run1 0xF01E ((regs [(0, 5), (15, 9)]).setIndex 0x0FFE)) (fun t => (t.index, t.v[(15 : Reg)])) =
    some (some 0x1003, some 9) := by decide

theorem test_M3_add_I_overflow : after (run1 0xF01E ((regs [(0, 0x20)]).setIndex 0xFFF0)) haltOf =
    some (some (.indexOverflow 0x10010)) := by decide

theorem test_M8_ld_F : after (run1 0xF429 (regs [(4, 0x0F)])) (fun t => t.index) = some (some 0x09B) := by decide

theorem test_M9_ld_F_invalid : after (run1 0xF429 (regs [(4, 0x10)])) haltOf = some (some (.invalidDigit 0x10)) := by decide

theorem test_S5_bcd :
    after (run1 0xF333 ((regs [(3, 234)]).setIndex 0x300)) (fun t => (t.byteAt 0x300, t.byteAt 0x301, t.byteAt 0x302, t.index)) =
      some (some 2, some 3, some 4, some 0x300) := by decide

theorem test_M13_bcd_past_end :
    after (run1 0xF333 ((regs [(3, 7)]).setIndex 0xFFE)) (fun t => (haltOf t, t.byteAt 0xFFE, t.byteAt 0xFFF)) =
      some (some (.memoryBoundsFault 0x1000), none, none) := by decide

theorem test_M14_store :
    after (run1 0xF255 ((regs [(0, 1), (1, 2), (2, 3)]).setIndex 0x300))
      (fun t => (t.byteAt 0x300, t.byteAt 0x301, t.byteAt 0x302, t.byteAt 0x303, t.index)) =
      some (some 1, some 2, some 3, none, some 0x300) := by decide

theorem test_M18_store_unset :
    after (run1 0xF155 ((State.initial.setReg 0 1).setIndex 0x300)) (fun t => (haltOf t, t.byteAt 0x300)) =
      some (some (.uninitializedRead (.reg 1)), none) := by decide

theorem test_M19_load :
    after (run1 0xF265 (bytes 0x300 [1, 2, 3] (State.reset.setIndex 0x300)))
      (fun t => (t.v[(0 : Reg)], t.v[(1 : Reg)], t.v[(2 : Reg)], t.v[(3 : Reg)], t.index)) =
      some (some 1, some 2, some 3, some 0, some 0x300) := by decide

theorem test_M21_load_unset :
    after (run1 0xF165 (bytes 0x300 [1] (State.reset.setIndex 0x300))) (fun t => (haltOf t, t.v[(0 : Reg)])) =
      some (some (.uninitializedRead (.mem 0x301)), some 0) := by decide

/-! ### Display (vectors D1 to D12) -/

theorem test_D1_cls :
    after (run1 0x00E0 { State.reset with display := flipPix blankDisplay 5 6 }) (fun t => pix t.display 5 6) = some false := by
  decide

theorem test_D3_draw_wraps :
    after (run1 0xD012 (bytes 0x300 [0xFF, 0xFF] ((regs [(0, 60), (1, 31)]).setIndex 0x300)))
      (fun t => ([pix t.display 60 31, pix t.display 3 31, pix t.display 63 0, pix t.display 0 0, pix t.display 4 0],
        t.v[(15 : Reg)])) =
      some ([true, true, true, true, false], some 0) := by decide

theorem test_D7_draw_collides :
    after (run1 0xD011 (bytes 0x300 [0xC0]
        { (regs [(0, 0), (1, 0)]).setIndex 0x300 with display := flipPix (flipPix blankDisplay 0 0) 1 0 }))
      (fun t => (pix t.display 0 0, pix t.display 1 0, t.v[(15 : Reg)])) = some (false, false, some 1) := by decide

/-! ### Keypad and timers (vectors K1 to K12, T1 to T6) -/

theorem test_K1_skp : after (run1 0xE59E { regs [(5, 0x0A)] with keys := onlyKey 10 }) (fun t => t.pc) = some 0x204 := by
  decide

theorem test_K4_skp_key_index : after (run1 0xE59E (regs [(5, 0x10)])) haltOf = some (some (.keyIndexFault 0x10)) := by decide

theorem test_K3_sknp : after (run1 0xE5A1 (regs [(5, 0x0A)])) (fun t => t.pc) = some 0x204 := by decide

theorem test_K5_wait_key :
    after (run1 0xF20A { State.reset with keys := (onlyKey 3).set 7 true }) (fun t => (t.v[(2 : Reg)], t.pc)) =
      some (some 3, 0x202) := by decide

theorem test_K6_wait_key_stalls :
    after (run1 0xF20A { State.initial with dt := 4 } (input 1 0)) (fun t => (t.pc, t.dt, t.v[(2 : Reg)], t.status)) =
      some (0x200, 3, none, .running) := by decide +kernel

theorem test_K9_ld_DT : after (run1 0xF307 { State.reset with dt := 5 } (input 1 0)) (fun t => (t.v[(3 : Reg)], t.dt)) =
    some (some 5, 4) := by decide +kernel

theorem test_K10_set_DT : after (run1 0xF115 (regs [(1, 5)]) (input 2 0)) (fun t => t.dt) = some 3 := by decide +kernel

theorem test_K11_set_ST : after (run1 0xF118 (regs [(1, 1)]) (input 10 0)) (fun t => t.st) = some 0 := by decide +kernel

theorem test_S7_five_quanta : after (run1 0x0000 { State.reset with dt := 10, st := 3 } (input 5 0))
    (fun t => (t.dt, t.st, t.acc)) = some (5, 0, 0) := by decide +kernel

/-- T1: 2.5 quanta leave half a quantum in the accumulator. -/
theorem test_T1_remainder :
    after (run1 0x0000 { State.reset with dt := 10 } { keys := none, elapsed := Elapsed.ofFrac 5 120, rnd := 0 })
      (fun t => (t.dt, t.acc)) = some (8, 1 / 120) := by decide +kernel

/-! ### Errors and the driver (vectors H1 to H8) -/

theorem test_H2_set_keys_when_halted :
    after (step { State.reset with
        status := .halted ⟨.stackUnderflow, some 0x200⟩
        inputs := [{ keys := some (onlyKey 1), elapsed := Elapsed.ofFrac 5 60, rnd := 0 }] })
      (fun t => (t.keys[(1 : Key)], t.status, t.dt, t.inputs)) =
      some (true, .halted ⟨.stackUnderflow, some 0x200⟩, 0, []) := by decide

theorem test_H3_no_drain_on_error :
    after (run1 0xF129 { regs [(1, 0x10)] with dt := 9 } (input 3 0)) (fun t => (haltOf t, t.dt)) =
      some (some (.invalidDigit 0x10), 9) := by decide

theorem test_H7_font : State.reset.byteAt 0x050 = some 0xF0 ∧ State.reset.byteAt 0x051 = some 0x90 ∧
    State.reset.byteAt 0x09F = some 0x80 ∧ State.reset.byteAt 0x0A0 = none := by decide

theorem test_H5_image_too_long :
    (match load State.initial (some (List.replicate 3585 0)) with | .error e => some e.cause | .ok _ => none) =
      some (.romLoadError (some 3585)) := by decide +kernel

/-! ### Witnesses: states that meet the hypotheses of a statement, clause by clause, at the ends of the ranges -/

/-- A running machine with SP = 1, the highest return address a CALL can push, a listed byte, and RET at the highest pc. -/
def deep : State :=
  bytes 0xFFE [0x00, 0xEE]
    { State.reset with pc := 0xFFE, sp := 1, stack := State.reset.stack.set 1 (some 0x1000), inputs := [input 5 0xB7] }

/-- A machine halted by RET on the empty stack, with one input left. -/
def halted : State :=
  { State.reset with status := .halted ⟨.stackUnderflow, some 0x200⟩, inputs := [{ input 5 0 with keys := some (onlyKey 1) }] }

/-- A state no run reaches: SP = 1 with `stack[1]` unset, and RET at pc. -/
def unsetEntry : State := bytes 0x200 [0x00, 0xEE] { State.reset with sp := 1 }

theorem witness_deep_inv : Inv deep where
  mem_wf := by unfold deep bytes; exact Memory.wf_writeList _ _ _ _ (by decide) (Memory.wf_nil _)
  acc_nonneg := le_refl _
  acc_lt := defaultParams.quantum_pos
  pc_le := by decide
  stack_zero := by decide
  stack_live := by
    intro k hk hle
    obtain rfl : k = 1 := by
      have h : deep.sp = 1 := rfl
      rw [h] at hle
      revert k; decide
    exact ⟨0x1000, by decide, by decide⟩
  halt_precise := fun _ h => by cases h

theorem witness_DecodeOfEncode : (Instr.sys 0x0DF).wellFormed = true ∧ (Instr.sys 0xFFF).wellFormed = true ∧
    (Instr.drw 15 15 15).wellFormed = true := by decide

theorem witness_IllegalWordsAreTheListed : (bytes 0xFFE [0xFF, 0xFF] { State.reset with pc := 0xFFE }).status = .running ∧
    (bytes 0xFFE [0xFF, 0xFF] { State.reset with pc := 0xFFE }).fetchWord = .ok 0xFFFF ∧
    classify 0xFFFF = .error (.illegalWord 0xFFFF) := ⟨rfl, rfl, rfl⟩

theorem witness_StepRunsDecodedInstruction_next : deep.status = .running ∧ deep.byteAt 0xFFE = some 0x00 ∧
    deep.byteAt 0xFFF = some 0xEE ∧ decode [0x00, 0xEE] = .ok (.ret, []) ∧ ∃ t, exec .ret deep.deliverKeys = .next t :=
  ⟨rfl, rfl, rfl, rfl, _, rfl⟩

theorem witness_StepRunsDecodedInstruction_fault : unsetEntry.status = .running ∧ unsetEntry.byteAt 0x200 = some 0x00 ∧
    unsetEntry.byteAt 0x201 = some 0xEE ∧ exec .ret unsetEntry.deliverKeys = .fault .unsetStackEntry := ⟨rfl, rfl, rfl, rfl⟩

theorem witness_PlacedWordIsFetchedNext : decodeTableWord 16 0xFF65 = some (.ldXMem 15) ∧
    (({ State.reset with pc := 0xFFE } : State).pc.toNat ≤ 0xFFE) := by decide

theorem witness_FetchReadsBigEndianOrRaises : State.reset.status = .running ∧
    (deep.pc.toNat = 0xFFE ∧ deep.byteAt 0xFFE = some 0x00 ∧ deep.byteAt 0xFFF = some 0xEE) ∧
    (4096 ≤ ({ State.reset with pc := 0x1000 } : State).pc.toNat) ∧
    (({ State.reset with pc := 0xFFF } : State).pc.toNat < 4096 ∧ ({ State.reset with pc := 0xFFF } : State).byteAt 0xFFF = none) ∧
    ((bytes 0xFFF [0x12] { State.reset with pc := 0xFFF }).byteAt 0xFFF = some 0x12) ∧
    ((bytes 0xFFE [0x12] { State.reset with pc := 0xFFE }).byteAt 0xFFE = some 0x12 ∧
      (bytes 0xFFE [0x12] { State.reset with pc := 0xFFE }).byteAt 0xFFF = none) := by decide

theorem witness_RaisingCommitsNothing : (∃ t, exec .cls State.reset = .next t) ∧ State.reset.status = .running ∧
    ∃ t, cycle (Elapsed.ofFrac 1 1) State.reset = .next t ∧ t.status ≠ .running :=
  ⟨⟨_, rfl⟩, rfl, _, rfl, by decide⟩

theorem witness_HaltedMachineIsFrozen : halted.status = .halted ⟨.stackUnderflow, some 0x200⟩ ∧
    ∀ inp ∈ ({ halted with inputs := [input 5 0] } : State).inputs.take 1, inp.keys = none :=
  ⟨rfl, fun inp h => by obtain rfl : inp = input 5 0 := List.mem_singleton.mp h; rfl⟩

theorem witness_SetKeysOverwritesWholesale_halted : halted.inputs = [{ input 5 0 with keys := some (onlyKey 1) }] ∧
    ({ input 5 0 with keys := some (onlyKey 1) } : CycleInput).keys = some (onlyKey 1) ∧
    halted.status = .halted ⟨.stackUnderflow, some 0x200⟩ := ⟨rfl, rfl, rfl⟩

/-- A running machine with a queued snapshot, one whose input has none, and one with no input queued; each steps. -/
theorem witness_SetKeysOverwritesWholesale_running :
    let s : State := { deep with inputs := [{ input 5 0 with keys := some (onlyKey 15) }, input 0 0] }
    s.status = .running ∧ s.inputs = { input 5 0 with keys := some (onlyKey 15) } :: [input 0 0] ∧
    (∃ t, step s = .next t) ∧ (∀ inp ∈ deep.inputs.take 1, inp.keys = none) ∧ (∃ t, step deep = .next t) ∧
    (∀ inp ∈ State.reset.inputs.take 1, inp.keys = none) ∧ ∃ t, step State.reset = .next t :=
  ⟨rfl, rfl, ⟨_, rfl⟩, (fun inp h => by obtain rfl : inp = input 5 0xB7 := List.mem_singleton.mp h; rfl), ⟨_, rfl⟩,
    (fun _ h => by cases h), _, rfl⟩

theorem witness_StepKeepsInvariant : Inv deep ∧ ∃ t, step deep = .next t := ⟨witness_deep_inv, _, rfl⟩

theorem witness_StepAlwaysAnswersNext : Inv deep := witness_deep_inv

theorem witness_OnlyTheListedInstructionsWrite :
    after (exec (.ldI 0xFFF) State.reset) (fun t => decide (t.index ≠ State.reset.index)) = some true ∧
    after (exec (.call 0x300) State.reset) (fun t => decide (t.sp ≠ State.reset.sp)) = some true ∧
    after (exec .cls { State.reset with display := flipPix blankDisplay 0 0 })
      (fun t => decide (t.display ≠ flipPix blankDisplay 0 0)) = some true ∧
    after (exec (.ldBX 0) State.reset) (fun t => decide (t.mem ≠ State.reset.mem)) = some true ∧
    after (exec (.ldDtX 1) (regs [(1, 7)])) (fun t => decide (t.dt ≠ (regs [(1, 7)]).dt)) = some true ∧
    after (exec (.ldStX 1) (regs [(1, 7)])) (fun t => decide (t.st ≠ (regs [(1, 7)]).st)) = some true := by decide +kernel

theorem witness_RegisterReadersAndWriters : (∃ t, exec (.shr 1 2) State.reset = .next t) ∧
    (2 : Reg) ∉ writesOf (.shr 1 2) ∧ (2 : Reg) ∉ readsOf (.shr 1 2) ∧ (15 : Reg) ∉ readsOf (.ldMemX 14) ∧
    (15 : Reg) ∉ writesOf (.ldXMem 14) := ⟨⟨_, rfl⟩, by decide, by decide, by decide, by decide⟩

theorem witness_UnsetReadRaises : State.initial.v[(15 : Reg)] = none ∧ State.initial.v[(0 : Reg)] = none ∧
    State.initial.index = none ∧
    ((State.initial.setIndex 0xFFFF).index = some 0xFFFF ∧ (State.initial.setIndex 0xFFFF).v[(0 : Reg)] = none) ∧
    ((State.initial.setReg 15 9).v[(15 : Reg)] = some 9 ∧ (State.initial.setReg 15 9).index = none) := by decide

theorem witness_FlagWritersLeaveZeroOrOne : State.reset.status = .running ∧
    after (exec (.addReg 15 15) State.reset) (fun t => t.status) = some .running ∧
    after (exec (.sub 15 15) State.reset) (fun t => t.status) = some .running ∧
    after (exec (.subn 15 15) State.reset) (fun t => t.status) = some .running ∧
    after (exec (.shr 15 15) State.reset) (fun t => t.status) = some .running ∧
    after (exec (.shl 15 15) State.reset) (fun t => t.status) = some .running ∧
    after (exec (.drw 15 15 0) State.reset) (fun t => t.status) = some .running := by decide

theorem witness_AccumulatorAndSoundTimerUnread : (∃ t, exec (.ldXDt 0) State.reset = .next t) ∧
    ∀ x, Instr.ldXDt 0 ≠ .ldStX x := ⟨⟨_, rfl⟩, fun _ h => by cases h⟩

theorem witness_InitialisationGivesTheTable : (List.replicate 3584 (0xFF : Byte)).length ≤ 3584 ∧
    ((0x04F < defaultFont.base.toNat ∨ defaultFont.base.toNat + 79 < 0x04F) ∧ 0x04F < 0x200) ∧
    defaultFont.base.toNat + 79 < 0x0A0 := by
  rw [List.length_replicate]; decide

theorem witness_LoadPlacesImageVerbatim : (List.replicate 3584 (0xFF : Byte)).length ≤ 3584 ∧
    3584 < (List.replicate 3585 (0xFF : Byte)).length ∧ 3583 < (List.replicate 3584 (0xFF : Byte)).length := by
  simp only [List.length_replicate]; decide

theorem witness_LoadKeepsInvariant : Inv deep ∧ ∃ s, load deep (some [0x00, 0xEE]) = .ok s := ⟨witness_deep_inv, _, rfl⟩

theorem witness_MemReadMemWrite : 0xFFF < 4096 ∧ 4096 ≤ 0x1000 ∧ State.reset.byteAt 0xFFF = none ∧
    deep.byteAt 0xFFF = some 0xEE := by decide

theorem witness_CanonicalMemoriesAreEqualData : Memory.wf defaultFont [(0xFFE, 1), (0xFFF, 0xEE)] ∧
    Memory.wf defaultFont (Memory.writeList defaultFont [] 0xFFE [1, 0xEE]) ∧
    ∀ a : Nat, a < 4096 → Memory.read defaultFont [(0xFFE, 1), (0xFFF, 0xEE)] a =
      Memory.read defaultFont (Memory.writeList defaultFont [] 0xFFE [1, 0xEE]) a :=
  ⟨by decide, Memory.wf_writeList _ _ _ _ (by decide) (Memory.wf_nil _), fun _ _ => rfl⟩

theorem witness_FetchSeesWrittenBytes : ∃ t u, deep.writeByte deep.pc.toNat (hiByte 0xA1B2) = .ok t ∧
    t.writeByte (deep.pc.toNat + 1) (loByte 0xA1B2) = .ok u := ⟨_, _, rfl, rfl⟩

theorem witness_DrainTakesWholeQuanta : 0 ≤ State.reset.acc := le_refl _

theorem witness_DrainsAddUp : 0 ≤ State.reset.acc ∧
    (Elapsed.ofFrac 3 60).seconds = (Elapsed.ofFrac 1 60).seconds + (Elapsed.ofFrac 2 60).seconds := by decide +kernel

theorem witness_FiveQuantaLowerDelayTimerByFive :
    let s : State := bytes 0x200 [0x00, 0x00] { State.reset with dt := 10 }
    s.status = .running ∧ s.fetchInstr = .ok (.sys 0) ∧ (∀ x, Instr.sys 0 ≠ .ldDtX x) ∧
    s.acc + (Elapsed.ofFrac 5 60).seconds = 5 * s.params.quantum ∧ s.dt = 10 ∧
    ({ s with dt := 5 } : State).dt.toNat ≤ 5 ∧
    ∃ t, cycle (Elapsed.ofFrac 5 60) s = .next t ∧ t.status = .running :=
  ⟨rfl, rfl, fun _ h => by (cases h), by decide +kernel, rfl, by decide, _, rfl, rfl⟩

theorem witness_SysIsNoOp : (0x0E1 : Addr) ≠ 0x0E0 ∧ (0x0E1 : Addr) ≠ 0x0EE ∧ (0xFFF : Addr) ≠ 0x0E0 := by decide

theorem witness_RetPopsReturnAddress : State.reset.sp = 0 ∧ deep.sp ≠ 0 ∧ deep.stack[deep.sp] = some 0x1000 := by decide

theorem witness_CallPushesReturnAddress : ({ State.reset with sp := 15 } : State).sp = 15 ∧
    ({ State.reset with sp := 14 } : State).sp ≠ 15 := by decide

theorem witness_RetReturnsAfterCall : ({ State.reset with sp := 14 } : State).sp ≠ 15 ∧
    ∃ t, exec (.call 0x300) { State.reset with sp := 14 } = .next t := ⟨by decide, _, rfl⟩

theorem witness_SkipsOnImmediate : State.initial.v[(15 : Reg)] = none ∧ (regs [(15, 0xFF)]).v[(15 : Reg)] = some 0xFF := by
  decide

/-- Serves the statements on two register operands: SkipsOnRegisters, BitwiseLogic, AddRegisterCarry, SubtractsNotBorrow. -/
theorem witness_two_registers : State.initial.v[(1 : Reg)] = none ∧
    ((State.initial.setReg 1 0xFF).v[(1 : Reg)] ≠ none ∧ (State.initial.setReg 1 0xFF).v[(15 : Reg)] = none) ∧
    ((regs [(1, 0xFF), (15, 0xFF)]).v[(1 : Reg)] = some 0xFF ∧ (regs [(1, 0xFF), (15, 0xFF)]).v[(15 : Reg)] = some 0xFF) ∧
    (1 : Reg) ≠ 15 := by decide

/-- Serves the statements on one register operand: AddImmediateWraps, ShiftsInPlace, TimerTransfers, MovesIntoRegister. -/
theorem witness_one_register : State.initial.v[(15 : Reg)] = none ∧ (regs [(15, 0xFF)]).v[(15 : Reg)] = some 0xFF ∧
    (regs [(1, 0x81)]).v[(1 : Reg)] = some 0x81 ∧ (1 : Reg) ≠ 15 := by decide

theorem witness_JpV0AddsRegisterZero : State.initial.v[(0 : Reg)] = none ∧ (regs [(0, 0xFF)]).v[(0 : Reg)] = some 0xFF := by
  decide

theorem witness_AddIndexExactOrOverflow : State.initial.index = none ∧
    ((State.initial.setIndex 1).index = some 1 ∧ (State.initial.setIndex 1).v[(1 : Reg)] = none) ∧
    (((regs [(1, 0xFF)]).setIndex 0xFF00).index = some 0xFF00 ∧ ((regs [(1, 0xFF)]).setIndex 0xFF00).v[(1 : Reg)] = some 0xFF) ∧
    (0xFF00 : Word).toNat + (0xFF : Byte).toNat ≤ 0xFFFF ∧ 0xFFFF < (0xFF01 : Word).toNat + (0xFF : Byte).toNat := by decide

theorem witness_DigitSpriteAddress : State.initial.v[(4 : Reg)] = none ∧ (regs [(4, 15)]).v[(4 : Reg)] = some 15 ∧
    (15 : Byte).toNat ≤ 15 ∧ (regs [(4, 16)]).v[(4 : Reg)] = some 16 ∧ 15 < (16 : Byte).toNat := by decide

theorem witness_FontGlyphBytes : Memory.listed State.reset.mem (State.reset.params.font.base.toNat + 5 * 15 + 4) = none := by
  decide

theorem witness_BcdStoresThreeDigits : State.initial.v[(3 : Reg)] = none ∧
    ((State.initial.setReg 3 255).v[(3 : Reg)] ≠ none ∧ (State.initial.setReg 3 255).index = none) ∧
    (regs [(3, 255)]).v[(3 : Reg)] = some 255 ∧ ((regs [(3, 255)]).setIndex 0xFFD).index = some 0xFFD ∧
    (0xFFD : Word).toNat + 2 ≤ 0xFFF ∧ 0xFFF < (0xFFE : Word).toNat + 2 := by decide

theorem witness_StoreRegisters : State.initial.index = none ∧
    ((State.initial.setReg 0 1).setIndex 0x300).index = some 0x300 ∧
    (∀ j : Reg, j < 1 → ((State.initial.setReg 0 1).setIndex 0x300).v[j] ≠ none ∧ effAddr 0x300 j.val < 4096) ∧
    ((State.initial.setReg 0 1).setIndex 0x300).v[(1 : Reg)] = none ∧
    ((∀ j : Reg, j < 15 → State.reset.v[j] ≠ none ∧ effAddr 0xFF1 j.val < 4096) ∧ 4096 ≤ effAddr 0xFF1 15) ∧
    ((∀ k : Reg, k ≤ 15 → State.reset.v[k] ≠ none) ∧ effAddr 0xFF0 15 < 4096) := by decide

theorem witness_LoadRegisters : State.initial.index = none ∧ deep.index = some 0 ∧
    ((∀ j : Reg, j < 2 → deep.byteAt (effAddr 0xFFE j.val) ≠ none) ∧ 4096 ≤ effAddr 0xFFE 2) ∧
    ((∀ j : Reg, j < 0 → deep.byteAt (effAddr 0xFFD j.val) ≠ none) ∧ effAddr 0xFFD 0 < 4096 ∧
      deep.byteAt (effAddr 0xFFD 0) = none) ∧
    (∀ k : Reg, k ≤ 1 → deep.byteAt (effAddr 0xFFE k.val) ≠ none) := by decide

theorem witness_DrawComposites : (regs [(0, 0xFF), (1, 0xFF)]).v[(0 : Reg)] = some 0xFF ∧
    (regs [(0, 0xFF), (1, 0xFF)]).v[(1 : Reg)] = some 0xFF ∧ (deep.setIndex 0xFFE).index = some 0xFFE ∧
    (∀ k : Nat, k < (2 : Nibble).toNat → (deep.setIndex 0xFFE).byteAt (effAddr 0xFFE k) =
      some (if k = 0 then 0x00 else 0xEE)) := by decide

theorem witness_DrawComposites_collision :
    after (run1 0xD011 (bytes 0x300 [0x80] { State.reset.setIndex 0x300 with display := flipPix blankDisplay 0 0 }))
      (fun t => pix t.display 0 0) = some false ∧
    after (run1 0xD010 { State.reset with display := flipPix blankDisplay 0 0 }) (fun t => decide (t.display = flipPix blankDisplay 0 0)) =
      some true := by decide +kernel

theorem witness_DrawErrorsInOrder : State.initial.v[(0 : Reg)] = none ∧
    ((State.initial.setReg 0 1).v[(0 : Reg)] ≠ none ∧ (State.initial.setReg 0 1).v[(1 : Reg)] = none) ∧
    (((State.initial.setReg 0 1).setReg 1 1).v[(1 : Reg)] ≠ none ∧ ((State.initial.setReg 0 1).setReg 1 1).index = none ∧
      0 < (1 : Nibble).toNat) ∧
    ((∀ j : Nat, j < 2 → deep.byteAt (effAddr 0xFFE j) ≠ none) ∧ 4096 ≤ effAddr 0xFFE 2 ∧ 2 < (3 : Nibble).toNat) ∧
    ((deep.setIndex 0xFFD).byteAt (effAddr 0xFFD 0) = none ∧ effAddr 0xFFD 0 < 4096 ∧ 0 < (1 : Nibble).toNat) := by decide

theorem witness_DrawTwiceRestoresDisplay :
    let s : State := bytes 0x300 [0xC0] ((regs [(0, 62), (1, 0)]).setIndex 0x300)
    (0 : Reg) ≠ 15 ∧ (1 : Reg) ≠ 15 ∧ s.status = .running ∧ ∃ t, exec (.drw 0 1 1) s = .next t ∧ t.status = .running ∧
      pix s.display 63 0 = false ∧ pix t.display 63 0 = true := ⟨by decide, by decide, rfl, _, rfl, rfl, rfl, by decide⟩

/-- The clause VF = 0: the first draw clears pixels that were true and sets none. -/
theorem witness_DrawTwiceRestoresDisplay_clear :
    let s : State := bytes 0x300 [0xC0]
      { (regs [(0, 62), (1, 0)]).setIndex 0x300 with display := flipPix (flipPix blankDisplay 62 0) 63 0 }
    (0 : Reg) ≠ 15 ∧ (1 : Reg) ≠ 15 ∧ s.status = .running ∧ ∃ t, exec (.drw 0 1 1) s = .next t ∧ t.status = .running ∧
      pix s.display 63 0 = true ∧ pix t.display 63 0 = false ∧
      ∀ (c : Fin 64) (r : Fin 32), pix t.display c r = true → pix s.display c r = true :=
  ⟨by decide, by decide, rfl, _, rfl, rfl, by decide, by decide, by decide +kernel⟩

theorem witness_SkipsOnKey : State.initial.v[(5 : Reg)] = none ∧
    ((regs [(5, 16)]).v[(5 : Reg)] = some 16 ∧ 15 < (16 : Byte).toNat) ∧
    ((regs [(5, 15)]).v[(5 : Reg)] = some 15 ∧ (15 : Byte).toNat = (15 : Key).val) := by decide

theorem witness_WaitKeyTakesLeastOrStalls : (onlyKey 15)[(15 : Key)] = true ∧ (∀ j : Key, j < 15 → (onlyKey 15)[j] = false) ∧
    (∀ k : Key, State.reset.keys[k] = false) := by decide

/-- The usual driver of R257 calls `set_keys` before the first cycle, with every key up; no call before the second. -/
theorem witness_KeyStallIsFixedPoint :
    let up : Keypad := Vector.replicate 16 false
    let s : State := bytes 0x200 [0xF2, 0x0A] { State.reset with inputs := [{ input 1 0 with keys := some up }, input 1 0] }
    s.status = .running ∧ s.fetchInstr = .ok (.ldXK 2) ∧ (∀ k : Key, s.keys[k] = false) ∧
    ∀ inp ∈ s.inputs.take 2, ∀ keys : Keypad, inp.keys = some keys → ∀ k : Key, keys[k] = false := by
  refine ⟨rfl, rfl, by decide, fun inp h keys hk k => ?_⟩
  rcases List.mem_cons.mp h with rfl | h
  · cases hk; simp
  · obtain rfl : inp = input 1 0 := List.mem_singleton.mp h
    cases hk

theorem witness_DrainFollowsTimerTransfer :
    (bytes 0x200 [0xF1, 0x15] (regs [(1, 0xFF)])).status = .running ∧
    (bytes 0x200 [0xF1, 0x15] (regs [(1, 0xFF)])).fetchInstr = .ok (.ldDtX 1) ∧
    (bytes 0x200 [0xF1, 0x18] (regs [(1, 0xFF)])).fetchInstr = .ok (.ldStX 1) ∧
    (bytes 0x200 [0xF1, 0x15] (regs [(1, 0xFF)])).v[(1 : Reg)] = some 0xFF ∧
    (bytes 0x200 [0xF3, 0x07] State.reset).fetchInstr = .ok (.ldXDt 3) := ⟨rfl, rfl, rfl, rfl, rfl⟩

end Sys2Proof.Tests
end

/-! ## Control flow: SYS, RET, JP, CALL and the skips on an immediate (O29, O30, O31, O32, O34) -/

section
/-! SUPPORT. The frame, one rule per update of the state: an update of pc alone is in every footprint, an update of the
call stack in those that list it. -/

namespace Sys2Proof.Machine

variable {w : Footprint} {s t : State}

theorem Frame.refl (w : Footprint) (s : State) : Frame w s s := by simp [Frame]

/-- The fetch moves pc alone, so a body starts inside every footprint. -/
theorem Frame.fetched (w : Footprint) (s : State) : Frame w s s.fetched := Frame.refl w s

theorem Frame.setPc (h : Frame w s t) (a : Word) : Frame w s (t.setPc a) := h

theorem Frame.skipIf (h : Frame w s t) (c : Bool) : Frame w s (t.skipIf c) := by
  cases c with
  | true => exact h
  | false => exact h

theorem Frame.pushReturn (h : Frame w s t) (hw : w.callStack = true) : Frame w s t.pushReturn := by
  obtain ⟨hv, hi, -, rest⟩ := h
  exact ⟨hv, hi, fun hf => absurd hw (by simp [hf]), rest⟩

theorem Frame.popReturn (h : Frame w s t) (hw : w.callStack = true) (ra : Word) : Frame w s (t.popReturn ra) := by
  obtain ⟨hv, hi, -, rest⟩ := h
  exact ⟨hv, hi, fun hf => absurd hw (by simp [hf]), rest⟩

end Sys2Proof.Machine
end

section
/-! SUPPORT. Executing a body that first reads a register. -/

namespace Sys2Proof.Machine

variable {s : State} {x : Reg}

/-- With the register set, the rest of the body runs with its value. -/
theorem execute_reg_of_some {a : Byte} (body : State → Byte → Exec State) (h : s.v[x] = some a) :
    execute s (fun t => t.reg x >>= body t) = execute s (fun t => body t a) := by
  have hread : s.fetched.reg x = .ok a := State.reg_of_some h
  simp only [execute, hread, ok_bind]

/-- With the register unset, the cycle raises before the rest of the body (R27). -/
theorem execute_reg_of_none (body : State → Byte → Exec State) (h : s.v[x] = none) :
    execute s (fun t => t.reg x >>= body t) = .next (s.raise (.uninitializedRead (.reg x))) := by
  have hread : s.fetched.reg x = .error (.uninitializedRead (.reg x)) := State.reg_of_none h
  exact execute_error (by rw [hread, error_bind])

end Sys2Proof.Machine
end

section
/-! SUPPORT. Where the program counter and the call stack stand after a skip, a push and a pop. -/

namespace Sys2Proof.Machine.State

variable (s : State)

/-- A skip after the fetch: p + 4 when the condition holds, else p + 2 (R135, R136). -/
theorem fetched_skipIf_pc (c : Bool) : (s.fetched.skipIf c).pc = if c then s.pc + 4 else s.pc + 2 := by
  rw [skipIf_pc, fetched_pc, BitVec.add_assoc]
  rfl

/-- The push writes the pc at the new depth. -/
theorem pushReturn_stack_top : s.pushReturn.stack[s.sp + 1] = some s.pc := by
  rw [pushReturn_stack]
  exact Vector.getElem_set_self _

/-- The push keeps every other entry. -/
theorem pushReturn_stack_of_ne {k : Fin 16} (h : k ≠ s.sp + 1) : s.pushReturn.stack[k] = s.stack[k] := by
  rw [pushReturn_stack]
  exact Vector.getElem_set_ne _ _ (Fin.val_ne_of_ne h.symm)

variable {s}

/-- Below the maximal depth the push does not wrap SP. -/
theorem pushReturn_sp_val (h : s.sp ≠ 15) : s.pushReturn.sp.val = s.sp.val + 1 :=
  Fin.val_add_one_of_lt (Fin.lt_last_iff_ne_last.mpr h)

/-- Above depth 0 the pop does not wrap SP. -/
theorem popReturn_sp_val (ra : Word) (h : s.sp ≠ 0) : (s.popReturn ra).sp.val + 1 = s.sp.val := by
  have hpos : s.sp.val ≠ 0 := Fin.val_ne_of_ne h
  rw [popReturn_sp, Fin.val_sub_one_of_ne_zero h]
  omega

end Sys2Proof.Machine.State
end

section
/-! SUPPORT. What each control-flow instruction answers, one equation per outcome. -/

namespace Sys2Proof.Machine

variable {s : State}

theorem exec_sys (nnn : Addr) (s : State) : exec (.sys nnn) s = .next s.fetched := by
  rw [exec, execSys]
  exact execute_ok rfl

theorem exec_jp (nnn : Addr) (s : State) : exec (.jp nnn) s = .next (s.fetched.setPc (zext16 nnn)) := by
  rw [exec, execJp]
  exact execute_ok rfl

theorem ret_raises_of_empty (h : s.sp = 0) : Raises .ret s .stackUnderflow := by
  rw [Raises, exec, execRet, if_pos h]
  exact execute_error rfl

theorem exec_ret_of_some {ra : Word} (h : s.sp ≠ 0) (hra : s.stack[s.sp] = some ra) :
    exec .ret s = .next (s.fetched.popReturn ra) := by
  rw [exec, execRet, if_neg h, hra]
  exact execute_ok rfl

theorem call_raises_of_full (nnn : Addr) (h : s.sp = 15) : Raises (.call nnn) s .stackOverflow := by
  rw [Raises, exec, execCall]
  exact execute_error (if_pos h)

theorem exec_call_of_ne (nnn : Addr) (h : s.sp ≠ 15) :
    exec (.call nnn) s = .next (s.fetched.pushReturn.setPc (zext16 nnn)) := by
  rw [exec, execCall]
  exact execute_ok (if_neg h)

section skips

variable {x : Reg} {a : Byte} (nn : Byte)

theorem seImm_raises_of_none (h : s.v[x] = none) : Raises (.seImm x nn) s (.uninitializedRead (.reg x)) := by
  rw [Raises, exec, execSeImm]
  exact execute_reg_of_none _ h

theorem sneImm_raises_of_none (h : s.v[x] = none) : Raises (.sneImm x nn) s (.uninitializedRead (.reg x)) := by
  rw [Raises, exec, execSneImm]
  exact execute_reg_of_none _ h

theorem exec_seImm_of_some (h : s.v[x] = some a) : exec (.seImm x nn) s = .next (s.fetched.skipIf (a == nn)) := by
  rw [exec, execSeImm, execute_reg_of_some _ h]
  exact execute_ok rfl

theorem exec_sneImm_of_some (h : s.v[x] = some a) : exec (.sneImm x nn) s = .next (s.fetched.skipIf (a != nn)) := by
  rw [exec, execSneImm, execute_reg_of_some _ h]
  exact execute_ok rfl

end skips

end Sys2Proof.Machine
end

section
/-! The obligations of the family. -/

namespace Sys2Proof.Machine

/-- Settles O29: the address clauses are `Instr.wellFormed` for SYS, and the body answers the fetched state as it is. -/
theorem sysIsNoOp : Obligations.SysIsNoOp := by
  intro nnn s
  refine ⟨fun hcls hret => Laws.ClassifyEncode.sys nnn ?_, s.fetched, exec_sys nnn s, rfl, Frame.fetched _ s⟩
  exact Bool.and_eq_true_iff.mpr ⟨bne_iff_ne.mpr hcls, bne_iff_ne.mpr hret⟩

/-- Settles O30, by the two tests of `execRet`: the depth, then the entry at it. -/
theorem retPopsReturnAddress : Obligations.RetPopsReturnAddress := by
  intro s
  refine ⟨Laws.ClassifyEncode.ret rfl, ret_raises_of_empty, fun ra hsp hra => ?_⟩
  exact ⟨s.fetched.popReturn ra, exec_ret_of_some hsp hra, rfl, State.popReturn_sp_val (s := s.fetched) ra hsp, rfl,
    (Frame.fetched _ s).popReturn rfl ra⟩

/-- Settles O31: the jump overwrites the pc the fetch left. -/
theorem jpSetsPcExactly : Obligations.JpSetsPcExactly := by
  intro nnn s
  exact ⟨Laws.ClassifyEncode.jp nnn rfl, s.fetched.setPc (zext16 nnn), exec_jp nnn s, zext16_toNat nnn,
    (Frame.fetched _ s).setPc _⟩

/-- Settles O32: the push is made in the fetched state, whose pc is p + 2, and the jump after it leaves the call stack. -/
theorem callPushesReturnAddress : Obligations.CallPushesReturnAddress := by
  intro nnn s
  refine ⟨Laws.ClassifyEncode.call nnn rfl, call_raises_of_full nnn, fun hsp => ?_⟩
  refine ⟨s.fetched.pushReturn.setPc (zext16 nnn), exec_call_of_ne nnn hsp, ?depth, ?entry, ?others, zext16_toNat nnn, ?frame⟩
  case depth => exact State.pushReturn_sp_val (s := s.fetched) hsp
  case entry => exact State.pushReturn_stack_top s.fetched
  case others => exact fun k hk => State.pushReturn_stack_of_ne s.fetched hk
  case frame => exact ((Frame.fetched _ s).pushReturn rfl).setPc _

/-- Settles O34, by whether Vx is set: unset it raises, set the two skips differ in their condition alone. -/
theorem skipsOnImmediate : Obligations.SkipsOnImmediate := by
  intro x nn s
  refine ⟨Laws.ClassifyEncode.seImm x nn rfl, Laws.ClassifyEncode.sneImm x nn rfl,
    fun hx => ⟨seImm_raises_of_none nn hx, sneImm_raises_of_none nn hx⟩, fun a hx => ⟨?se, ?sne⟩⟩
  case se =>
    refine ⟨_, exec_seImm_of_some nn hx, ?_, (Frame.fetched _ s).skipIf _⟩
    rw [State.fetched_skipIf_pc]
    simp only [beq_iff_eq]
  case sne =>
    refine ⟨_, exec_sneImm_of_some nn hx, ?_, (Frame.fetched _ s).skipIf _⟩
    rw [State.fetched_skipIf_pc]
    simp only [bne_iff_ne]

end Sys2Proof.Machine
end

/-! ## ALU: LD Vx, NN, LD Vx, Vy and ADD Vx, NN (O37, O38) -/

section
/-! SUPPORT. The write of one register: what it reads as afterwards, the footprints it stays in, and its effect after a fetch. -/

namespace Sys2Proof.Machine

theorem State.setReg_v_self (t : State) (x : Reg) (b : Byte) : (t.setReg x b).v[x] = some b := by
  rw [setReg_v, getElem_set_reg, if_pos rfl]

theorem State.setReg_v_of_ne (t : State) {r x : Reg} (b : Byte) (h : r ≠ x) : (t.setReg x b).v[r] = t.v[r] := by
  rw [setReg_v, getElem_set_reg, if_neg h]

/-- A register write stays in every footprint that lists the register. -/
theorem Frame.setReg {w : Footprint} {s t : State} {x : Reg} (h : Frame w s t) (hx : x ∈ w.regs) (b : Byte) :
    Frame w s (t.setReg x b) := by
  obtain ⟨hv, rest⟩ := h
  refine ⟨fun r hr => ?_, rest⟩
  rw [State.setReg_v_of_ne t b (ne_of_mem_of_not_mem hx hr).symm, hv r hr]

/-- An instruction that fetches and then writes Vx alone: pc moves on, Vx holds the byte, the rest stands, VF included
unless it is Vx. -/
theorem fetched_setReg_effect (x : Reg) (b : Byte) (s : State) :
    (s.fetched.setReg x b).pc = s.pc + 2 ∧ (s.fetched.setReg x b).v[x] = some b ∧
      Frame { regs := [x] } s (s.fetched.setReg x b) :=
  ⟨rfl, State.setReg_v_self _ x b, (Frame.fetched _ s).setReg (List.mem_singleton.mpr rfl) b⟩

end Sys2Proof.Machine
end

section
/-! SUPPORT. What each of the three instructions answers, one equation per outcome. -/

namespace Sys2Proof.Machine

variable {s : State} {x y : Reg}

theorem exec_ldImm (x : Reg) (nn : Byte) (s : State) : exec (.ldImm x nn) s = .next (s.fetched.setReg x nn) := by
  rw [exec, execLdImm]
  exact execute_ok rfl

theorem ldReg_raises_of_none (x : Reg) (h : s.v[y] = none) : Raises (.ldReg x y) s (.uninitializedRead (.reg y)) := by
  rw [Raises, exec, execLdReg]
  exact execute_reg_of_none _ h

theorem exec_ldReg_of_some (x : Reg) {b : Byte} (h : s.v[y] = some b) :
    exec (.ldReg x y) s = .next (s.fetched.setReg x b) := by
  rw [exec, execLdReg, execute_reg_of_some _ h]
  exact execute_ok rfl

theorem addImm_raises_of_none (nn : Byte) (h : s.v[x] = none) : Raises (.addImm x nn) s (.uninitializedRead (.reg x)) := by
  rw [Raises, exec, execAddImm]
  exact execute_reg_of_none _ h

theorem exec_addImm_of_some (nn : Byte) {a : Byte} (h : s.v[x] = some a) :
    exec (.addImm x nn) s = .next (s.fetched.setReg x (addByte a nn)) := by
  rw [exec, execAddImm, execute_reg_of_some _ h]
  exact execute_ok rfl

end Sys2Proof.Machine
end

section
/-! The obligations of the family. -/

namespace Sys2Proof.Machine

/-- Settles O37: both moves write Vx in the fetched state, one with the immediate, the other with what Vy holds. -/
theorem movesIntoRegister : Obligations.MovesIntoRegister := by
  intro x y nn s
  exact ⟨Laws.ClassifyEncode.ldImm x nn rfl, Laws.ClassifyEncode.ldReg x y rfl,
    ⟨_, exec_ldImm x nn s, fetched_setReg_effect x nn s⟩, ldReg_raises_of_none x,
    fun b hy => ⟨_, exec_ldReg_of_some x hy, fetched_setReg_effect x b s⟩⟩

/-- Settles O38, by whether Vx is set: unset it raises, set the byte written back is the sum mod 256. -/
theorem addImmediateWraps : Obligations.AddImmediateWraps := by
  intro x nn s
  refine ⟨Laws.ClassifyEncode.addImm x nn rfl, addImm_raises_of_none nn, fun a hx => ?_⟩
  obtain ⟨hpc, hv, hframe⟩ := fetched_setReg_effect x (addByte a nn) s
  exact ⟨_, addByte a nn, exec_addImm_of_some nn hx, hpc, hv, addByte_toNat a nn, hframe⟩

end Sys2Proof.Machine
end

/-! ## Index: LD I (O44) -/

section
/-! SUPPORT. The write of I: the footprints it stays in, and what LD I answers. -/

namespace Sys2Proof.Machine

/-- A write of I stays in every footprint that lists it. -/
theorem Frame.setIndex {w : Footprint} {s t : State} (h : Frame w s t) (hw : w.index = true) (i : Word) :
    Frame w s (t.setIndex i) := by
  obtain ⟨hv, -, rest⟩ := h
  exact ⟨hv, fun hf => absurd hw (by simp [hf]), rest⟩

theorem exec_ldI (nnn : Addr) (s : State) : exec (.ldI nnn) s = .next (s.fetched.setIndex (zext16 nnn)) := by
  rw [exec, execLdI]
  exact execute_ok rfl

end Sys2Proof.Machine
end

section
/-! The obligations of the family. -/

namespace Sys2Proof.Machine

/-- Settles O44: I receives the address zero-extended, which keeps its value, and the fetch alone moves pc. -/
theorem ldISetsIndex : Obligations.LdISetsIndex := by
  intro nnn s
  exact ⟨Laws.ClassifyEncode.ldI nnn rfl, s.fetched.setIndex (zext16 nnn), zext16 nnn, exec_ldI nnn s,
    State.fetched_pc s, State.setIndex_index s.fetched (zext16 nnn), zext16_toNat nnn,
    (Frame.fetched _ s).setIndex rfl (zext16 nnn)⟩

end Sys2Proof.Machine
end

/-! ## Display: CLS (O51) -/

section
/-! SUPPORT. The write of the display: the footprints it stays in, and what CLS answers. -/

namespace Sys2Proof.Machine

/-- A write of the display stays in every footprint that lists it. -/
theorem Frame.setDisplay {w : Footprint} {s t : State} (h : Frame w s t) (hw : w.display = true) (d : Display) :
    Frame w s (t.setDisplay d) := by
  obtain ⟨hv, hindex, hstack, hdt, hst, hbytes, -, rest⟩ := h
  exact ⟨hv, hindex, hstack, hdt, hst, hbytes, fun hf => absurd hw (by simp [hf]), rest⟩

theorem exec_cls (s : State) : exec .cls s = .next (s.fetched.setDisplay blankDisplay) := by
  rw [exec, execCls]
  exact execute_ok rfl

end Sys2Proof.Machine
end

section
/-! The obligation of the family. -/

namespace Sys2Proof.Machine

/-- Settles O51: the display becomes the blank one, each of whose pixels is false, and the fetch alone moves pc. -/
theorem clsClearsDisplay : Obligations.ClsClearsDisplay := by
  intro s
  exact ⟨Laws.ClassifyEncode.cls rfl, s.fetched.setDisplay blankDisplay, exec_cls s, State.fetched_pc s, pix_blank,
    (Frame.fetched _ s).setDisplay rfl blankDisplay⟩

end Sys2Proof.Machine
end

/-! ## Keys and timers: LD Vx, K, LD Vx, DT, LD DT, Vx and LD ST, Vx (O56, O58) -/

section
/-! SUPPORT. The write of a timer and the footprints it stays in, the rewind of a stalled fetch, the byte of a key, and
the cycle of an instruction that does not halt. -/

namespace Sys2Proof.Machine

/-- A write of DT stays in every footprint that lists it. -/
theorem Frame.setDelayTimer {w : Footprint} {s t : State} (h : Frame w s t) (hw : w.delayTimer = true) (b : Byte) :
    Frame w s (t.setDelayTimer b) := by
  obtain ⟨hv, hindex, hstack, -, rest⟩ := h
  exact ⟨hv, hindex, hstack, fun hf => absurd hw (by simp [hf]), rest⟩

/-- A write of ST stays in every footprint that lists it. -/
theorem Frame.setSoundTimer {w : Footprint} {s t : State} (h : Frame w s t) (hw : w.soundTimer = true) (b : Byte) :
    Frame w s (t.setSoundTimer b) := by
  obtain ⟨hv, hindex, hstack, hdt, -, rest⟩ := h
  exact ⟨hv, hindex, hstack, hdt, fun hf => absurd hw (by simp [hf]), rest⟩

/-- The rewind of pc by 2 undoes the fetch (R224). -/
theorem State.fetched_rewind (s : State) : s.fetched.setPc (s.fetched.pc - 2#16) = s := by
  rw [State.fetched_pc, BitVec.add_sub_cancel]
  rfl

/-- A key index is a byte. -/
theorem key_ofNat_toNat (k : Key) : (BitVec.ofNat 8 k.val).toNat = k.val :=
  Nat.mod_eq_of_lt (k.isLt.trans (by decide))

/-- A cycle whose instruction leaves the machine running drains the timers of the state it leaves (R90, R253). -/
theorem cycle_of_exec_running {s t : State} {i : Instr} (e : Elapsed) (hs : s.status = .running)
    (hi : s.fetchInstr = .ok i) (hexec : exec i s = .next t) (ht : t.status = .running) :
    cycle e s = .next (t.drain e) := by
  rw [cycle_of_instr hs hi, mapNext_eq_next]
  exact ⟨t, hexec, (drainIfRunning_of_running e ht).symm⟩

end Sys2Proof.Machine
end

section
/-! SUPPORT. What each of the four instructions answers, one equation per outcome. -/

namespace Sys2Proof.Machine

variable {s : State} {x : Reg}

theorem exec_ldXK_of_down (x : Reg) {k : Key} (h : firstKeyDown s.keys = some k) :
    exec (.ldXK x) s = .next (s.fetched.setReg x (BitVec.ofNat 8 k.val)) := by
  rw [exec, execLdXK]
  apply execute_ok
  rw [State.fetched_keys, h]

theorem exec_ldXK_of_up (x : Reg) (h : firstKeyDown s.keys = none) : exec (.ldXK x) s = .next s := by
  rw [exec, execLdXK]
  apply execute_ok
  rw [State.fetched_keys, h, State.fetched_rewind]

theorem exec_ldXDt (x : Reg) (s : State) : exec (.ldXDt x) s = .next (s.fetched.setReg x s.dt) := by
  rw [exec, execLdXDt]
  exact execute_ok rfl

theorem ldDtX_raises_of_none (h : s.v[x] = none) : Raises (.ldDtX x) s (.uninitializedRead (.reg x)) := by
  rw [Raises, exec, execLdDtX]
  exact execute_reg_of_none _ h

theorem exec_ldDtX_of_some {a : Byte} (h : s.v[x] = some a) : exec (.ldDtX x) s = .next (s.fetched.setDelayTimer a) := by
  rw [exec, execLdDtX, execute_reg_of_some _ h]
  exact execute_ok rfl

theorem ldStX_raises_of_none (h : s.v[x] = none) : Raises (.ldStX x) s (.uninitializedRead (.reg x)) := by
  rw [Raises, exec, execLdStX]
  exact execute_reg_of_none _ h

theorem exec_ldStX_of_some {a : Byte} (h : s.v[x] = some a) : exec (.ldStX x) s = .next (s.fetched.setSoundTimer a) := by
  rw [exec, execLdStX, execute_reg_of_some _ h]
  exact execute_ok rfl

end Sys2Proof.Machine
end

section
/-! The obligations of the family. -/

namespace Sys2Proof.Machine

/-- Settles O56, by what the scan of the keypad finds: the least key down is written to Vx, and with none down the rewind
restores the state the cycle started from, so that the drain is all the cycle does. -/
theorem waitKeyTakesLeastOrStalls : Obligations.WaitKeyTakesLeastOrStalls := by
  intro x s
  refine ⟨Laws.ClassifyEncode.ldXK x rfl, fun k hdown hlow => ?taken, fun hup => ?stall⟩
  case taken =>
    have hscan : firstKeyDown s.keys = some k := firstKeyDown_eq_some.mpr ⟨hdown, hlow⟩
    obtain ⟨hpc, hv, hframe⟩ := fetched_setReg_effect x (BitVec.ofNat 8 k.val) s
    exact ⟨_, _, exec_ldXK_of_down x hscan, hpc, hv, key_ofNat_toNat k, hframe⟩
  case stall =>
    have hstall : exec (.ldXK x) s = .next s := exec_ldXK_of_up x (firstKeyDown_eq_none.mpr hup)
    exact ⟨hstall, fun hs hi e => cycle_of_exec_running e hs hi hstall hs⟩

/-- Settles O58: LD Vx, DT writes Vx with the DT the fetch left, and the two writes of a timer raise or not by whether Vx
is set. -/
theorem timerTransfers : Obligations.TimerTransfers := by
  intro x s
  refine ⟨Laws.ClassifyEncode.ldXDt x rfl, Laws.ClassifyEncode.ldDtX x rfl, Laws.ClassifyEncode.ldStX x rfl,
    ⟨_, exec_ldXDt x s, fetched_setReg_effect x s.dt s⟩, fun hx => ⟨ldDtX_raises_of_none hx, ldStX_raises_of_none hx⟩,
    fun a hx => ⟨?delay, ?sound⟩⟩
  case delay =>
    exact ⟨_, exec_ldDtX_of_some hx, State.fetched_pc s, State.setDelayTimer_dt _ a, (Frame.fetched _ s).setDelayTimer rfl a⟩
  case sound =>
    exact ⟨_, exec_ldStX_of_some hx, State.fetched_pc s, State.setSoundTimer_st _ a, (Frame.fetched _ s).setSoundTimer rfl a⟩

end Sys2Proof.Machine
end

/-! ## Encoding: the decoder against the encoder, and the illegal words (O1, O2, O3, O4) -/

section
/-! SUPPORT. A word from its fields under a format, and the classifier seen from both sides: every word is either the
encoding of a well-formed instruction or one of the illegal words, and no encoding is illegal. -/

namespace Sys2Proof

variable {w : Word} {op : Nibble}

theorem formA_of_op (h : opOf w = op) : formA op (nnnOf w) = w := by
  rw [← h, formA_fields]

theorem formXNN_of_op (h : opOf w = op) : formXNN op (xOf w) (nnOf w) = w := by
  rw [← h, formXNN_fields]

theorem formXNN_of_op_nn {nn : Byte} (h : opOf w = op ∧ nnOf w = nn) : formXNN op (xOf w) nn = w := by
  rw [← h.1, ← h.2, formXNN_fields]

theorem formXYN_of_op (h : opOf w = op) : formXYN op (xOf w) (yOf w) (nOf w) = w := by
  rw [← h, formXYN_fields]

theorem formXYN_of_op_n {n : Nibble} (h : opOf w = op ∧ nOf w = n) : formXYN op (xOf w) (yOf w) n = w := by
  rw [← h.1, ← h.2, formXYN_fields]

/-- A word of major opcode 0 that is neither CLS nor RET has neither of their addresses. -/
theorem sys_wellFormed (h : opOf w = 0x0#4) (hcls : w ≠ 0x00E0#16) (hret : w ≠ 0x00EE#16) :
    (Instr.sys (nnnOf w)).wellFormed = true := by
  have hw := formA_of_op h
  refine Bool.and_eq_true_iff.mpr ⟨bne_iff_ne.mpr fun e => hcls ?_, bne_iff_ne.mpr fun e => hret ?_⟩
  · rw [← hw, e]; rfl
  · rw [← hw, e]; rfl

/-- The five groups of illegal words (30_encoding.md section 5). -/
def IllegalWord (w : Word) : Prop :=
  (opOf w = 0x5 ∧ nOf w ≠ 0) ∨
  (opOf w = 0x8 ∧ nOf w ∈ ([0x8, 0x9, 0xA, 0xB, 0xC, 0xD, 0xF] : List Nibble)) ∨
  (opOf w = 0x9 ∧ nOf w ≠ 0) ∨
  (opOf w = 0xE ∧ nnOf w ∉ ([0x9E, 0xA1] : List Byte)) ∨
  (opOf w = 0xF ∧ nnOf w ∉ ([0x07, 0x0A, 0x15, 0x18, 0x1E, 0x29, 0x33, 0x55, 0x65] : List Byte))

/-- What an answer of the classifier says of the word: an instruction is well-formed and encodes to it, and a reject is of
an illegal word. -/
def AnswersFor (w : Word) (r : Except DecodeReject Instr) : Prop :=
  (∃ i, r = .ok i ∧ i.wellFormed = true ∧ encode i = w) ∨ (r = .error (.illegalWord w) ∧ IllegalWord w)

theorem AnswersFor.ok {i : Instr} (hw : i.wellFormed = true) (he : encode i = w) : AnswersFor w (.ok i) :=
  .inl ⟨i, rfl, hw, he⟩

theorem nibble_cases (b : Nibble) : b = 0x0 ∨ b = 0x1 ∨ b = 0x2 ∨ b = 0x3 ∨ b = 0x4 ∨ b = 0x5 ∨ b = 0x6 ∨ b = 0x7 ∨
    b = 0x8 ∨ b = 0x9 ∨ b = 0xA ∨ b = 0xB ∨ b = 0xC ∨ b = 0xD ∨ b = 0xE ∨ b = 0xF := by
  revert b; decide

/-- One line of the classifier: it hits, or the lines after it decide. -/
theorem AnswersFor.ite {c : Prop} [Decidable c] {a b : Except DecodeReject Instr} (hit : c → AnswersFor w a)
    (miss : ¬ c → AnswersFor w b) : AnswersFor w (if c then a else b) := by
  split
  · exact hit ‹_›
  · exact miss ‹_›

/-- The sub-opcodes the 8XY_ group leaves illegal are those it does not list. -/
theorem mem_illegal_op8 : ∀ n : Nibble, n ∈ ([0x8, 0x9, 0xA, 0xB, 0xC, 0xD, 0xF] : List Nibble) ↔
    n ≠ 0x0#4 ∧ n ≠ 0x1#4 ∧ n ≠ 0x2#4 ∧ n ≠ 0x3#4 ∧ n ≠ 0x4#4 ∧ n ≠ 0x5#4 ∧ n ≠ 0x6#4 ∧ n ≠ 0x7#4 ∧ n ≠ 0xE#4 := by
  decide

/-- The lines of R99 in their order, grouped by the format of the word (R98); past the last, the word is illegal. -/
theorem classify_answers (w : Word) : AnswersFor w (classify w) := by
  unfold classify
  refine .ite (fun h => .ok rfl h.symm) fun hcls => ?_
  refine .ite (fun h => .ok rfl h.symm) fun hret => ?_
  refine .ite (fun h => .ok (sys_wellFormed h hcls hret) (formA_of_op h)) fun _ => ?_
  iterate 2 refine .ite (fun h => .ok rfl (formA_of_op h)) fun _ => ?_
  iterate 2 refine .ite (fun h => .ok rfl (formXNN_of_op h)) fun _ => ?_
  refine .ite (fun h => .ok rfl (formXYN_of_op_n h)) fun _ => ?_
  iterate 2 refine .ite (fun h => .ok rfl (formXNN_of_op h)) fun _ => ?_
  iterate 10 refine .ite (fun h => .ok rfl (formXYN_of_op_n h)) fun _ => ?_
  iterate 2 refine .ite (fun h => .ok rfl (formA_of_op h)) fun _ => ?_
  refine .ite (fun h => .ok rfl (formXNN_of_op h)) fun _ => ?_
  refine .ite (fun h => .ok rfl (formXYN_of_op h)) fun _ => ?_
  iterate 11 refine .ite (fun h => .ok rfl (formXNN_of_op_nn h)) fun _ => ?_
  refine .inr ⟨rfl, ?_⟩
  unfold IllegalWord
  rw [mem_illegal_op8]
  rcases nibble_cases (opOf w) with h | h | h | h | h | h | h | h | h | h | h | h | h | h | h | h
  all_goals simp_all

theorem classify_encode {i : Instr} (h : i.wellFormed = true) : classify (encode i) = .ok i := by
  cases i with
  | cls => exact Laws.ClassifyEncode.cls h
  | ret => exact Laws.ClassifyEncode.ret h
  | sys nnn => exact Laws.ClassifyEncode.sys nnn h
  | jp nnn => exact Laws.ClassifyEncode.jp nnn h
  | call nnn => exact Laws.ClassifyEncode.call nnn h
  | seImm x nn => exact Laws.ClassifyEncode.seImm x nn h
  | sneImm x nn => exact Laws.ClassifyEncode.sneImm x nn h
  | seReg x y => exact Laws.ClassifyEncode.seReg x y h
  | ldImm x nn => exact Laws.ClassifyEncode.ldImm x nn h
  | addImm x nn => exact Laws.ClassifyEncode.addImm x nn h
  | ldReg x y => exact Laws.ClassifyEncode.ldReg x y h
  | or x y => exact Laws.ClassifyEncode.or x y h
  | and x y => exact Laws.ClassifyEncode.and x y h
  | xor x y => exact Laws.ClassifyEncode.xor x y h
  | addReg x y => exact Laws.ClassifyEncode.addReg x y h
  | sub x y => exact Laws.ClassifyEncode.sub x y h
  | shr x y => exact Laws.ClassifyEncode.shr x y h
  | subn x y => exact Laws.ClassifyEncode.subn x y h
  | shl x y => exact Laws.ClassifyEncode.shl x y h
  | sneReg x y => exact Laws.ClassifyEncode.sneReg x y h
  | ldI nnn => exact Laws.ClassifyEncode.ldI nnn h
  | jpV0 nnn => exact Laws.ClassifyEncode.jpV0 nnn h
  | rnd x nn => exact Laws.ClassifyEncode.rnd x nn h
  | drw x y n => exact Laws.ClassifyEncode.drw x y n h
  | skp x => exact Laws.ClassifyEncode.skp x h
  | sknp x => exact Laws.ClassifyEncode.sknp x h
  | ldXDt x => exact Laws.ClassifyEncode.ldXDt x h
  | ldXK x => exact Laws.ClassifyEncode.ldXK x h
  | ldDtX x => exact Laws.ClassifyEncode.ldDtX x h
  | ldStX x => exact Laws.ClassifyEncode.ldStX x h
  | addIX x => exact Laws.ClassifyEncode.addIX x h
  | ldFX x => exact Laws.ClassifyEncode.ldFX x h
  | ldBX x => exact Laws.ClassifyEncode.ldBX x h
  | ldMemX x => exact Laws.ClassifyEncode.ldMemX x h
  | ldXMem x => exact Laws.ClassifyEncode.ldXMem x h

/-- No encoding is illegal: its major opcode is not one of the five groups', or its sub-opcode is one they leave out. -/
theorem not_illegalWord_encode (i : Instr) : ¬ IllegalWord (encode i) := by
  cases i with
  | cls => unfold IllegalWord; decide
  | ret => unfold IllegalWord; decide
  | _ => simp [IllegalWord, encode]

end Sys2Proof
end

section
/-! The obligations of the family. -/

namespace Sys2Proof

/-- Settles O2: decoding two bytes is classifying their word. -/
theorem decodeOfEncode : Obligations.DecodeOfEncode := by
  intro i rest hw
  have h : encodeBytes i ++ rest = hiByte (encode i) :: loByte (encode i) :: rest := rfl
  rw [h, decode_bytes, classify_encode hw]
  rfl

/-- Settles O3: each answer of the classifier comes with its encoding, and each encoding is answered. -/
theorem classifyIffEncodes : Obligations.ClassifyIffEncodes := by
  intro w i
  constructor
  · intro h
    obtain ⟨j, hj, hwf, henc⟩ | ⟨hreject, -⟩ := classify_answers w
    · obtain rfl : i = j := Except.ok.inj (h.symm.trans hj)
      exact ⟨hwf, henc⟩
    · cases h.symm.trans hreject
  · rintro ⟨hwf, rfl⟩
    exact classify_encode hwf

/-- Settles O4: a word that is not rejected is an encoding, which none of the groups holds; and the cycle raises what
Classify rejects. -/
theorem illegalWordsAreTheListed : Obligations.IllegalWordsAreTheListed := by
  refine ⟨fun w => ⟨fun h => ?listed, fun h => ?rejected⟩, fun s w hs hw hill e => ?halts⟩
  case listed =>
    obtain ⟨j, hj, -⟩ | ⟨-, hill⟩ := classify_answers w
    · cases h.symm.trans hj
    · exact hill
  case rejected =>
    obtain ⟨j, -, -, henc⟩ | ⟨hreject, -⟩ := classify_answers w
    · exact absurd (henc ▸ h : IllegalWord (encode j)) (not_illegalWord_encode j)
    · exact hreject
  case halts => exact Machine.cycle_of_error hs (Machine.fetchInstr_of_illegal hw hill)

/-- Settles O1, by running the decoder on each word. -/
theorem sampleWordsDecode : Obligations.SampleWordsDecode :=
  ⟨rfl, rfl, rfl, rfl, rfl, rfl, rfl, rfl, rfl, rfl, rfl, rfl⟩

end Sys2Proof
end

/-! ## What an instruction can change: the parts it writes, its registers, the pc (O8, O14, the first half of O15) -/

section
/-! SUPPORT. Everything an instruction that does not raise can have done, said once for all 35: the parts of the state it
writes, the registers it leaves, and where pc can stand. -/

namespace Sys2Proof.Machine

/-- `s` with the parts an instruction writes taken over from `t`: pc, and by the instruction the registers, I, the call
stack, a timer, memory or the display (R24, R28, R31, R32, R38, R60, R254). -/
def updateOf (i : Instr) (s t : State) : State :=
  match i with
  | .ldI _ | .addIX _ | .ldFX _ => { s with pc := t.pc, index := t.index }
  | .ret | .call _ => { s with pc := t.pc, stack := t.stack, sp := t.sp }
  | .cls | .drw _ _ _ => { s with pc := t.pc, v := t.v, display := t.display }
  | .ldBX _ | .ldMemX _ => { s with pc := t.pc, mem := t.mem }
  | .ldDtX _ => { s with pc := t.pc, dt := t.dt }
  | .ldStX _ => { s with pc := t.pc, st := t.st }
  | .sys _ | .jp _ | .seImm _ _ | .sneImm _ _ | .seReg _ _ | .sneReg _ _ | .jpV0 _ | .ldImm _ _ | .addImm _ _ | .ldReg _ _
  | .or _ _ | .and _ _ | .xor _ _ | .addReg _ _ | .sub _ _ | .shr _ _ | .subn _ _ | .shl _ _ | .rnd _ _ | .skp _ | .sknp _
  | .ldXDt _ | .ldXK _ | .ldXMem _ => { s with pc := t.pc, v := t.v }

/-- Where pc can stand after an instruction: where it was (a stalled wait for a key), behind the word, behind the skipped
word, at a jump's target, which is at most 0xFFF + 0xFF (R30), or at the return address RET pops. -/
def PcAfter (s : State) (pc : Word) : Prop :=
  pc = s.pc ∨ pc = s.pc + 2 ∨ pc = s.pc + 4 ∨ pc.toNat ≤ 0x10FE ∨ (s.sp ≠ 0 ∧ s.stack[s.sp] = some pc)

/-- What an instruction that does not raise leaves alone, and where it leaves pc. -/
structure Effect (i : Instr) (s t : State) : Prop where
  parts : t = updateOf i s t
  regs : ∀ r : Reg, r ∉ writesOf i → t.v[r] = s.v[r]
  pc : PcAfter s t.pc

/-- The instruction writes registers and pc alone. -/
def RegistersOnly (i : Instr) : Prop := ∀ s t : State, updateOf i s t = { s with pc := t.pc, v := t.v }

variable {i : Instr} {s t : State}

theorem PcAfter.next (s : State) : PcAfter s (s.pc + 2#16) := .inr (.inl rfl)

theorem PcAfter.skip (c : Bool) : PcAfter s (s.fetched.skipIf c).pc := by
  rw [State.fetched_skipIf_pc]
  cases c with
  | true => exact .inr (.inr (.inl rfl))
  | false => exact .next s

theorem PcAfter.jump {pc : Word} (h : pc.toNat ≤ 0x10FE) : PcAfter s pc := .inr (.inr (.inr (.inl h)))

theorem zext16_le (a : Addr) : (zext16 a).toNat ≤ 0x10FE := by
  rw [zext16_toNat]
  omega

/-- JP V0 does not wrap: the sum of a 12-bit address and a byte fits pc (R30, R139). -/
theorem zext16_add_byte_toNat (a : Addr) (b : Byte) : (zext16 a + b.setWidth 16).toNat = a.toNat + b.toNat := by
  rw [BitVec.toNat_add, zext16_toNat, BitVec.toNat_setWidth]
  omega

theorem Effect.skipIf (hi : RegistersOnly i) (c : Bool) : Effect i s (s.fetched.skipIf c) where
  parts := by cases c <;> rw [hi] <;> rfl
  regs := fun r _ => by rw [State.skipIf_v]; rfl
  pc := .skip c

theorem Effect.setReg (hi : RegistersOnly i) {x : Reg} (hx : x ∈ writesOf i) (b : Byte) :
    Effect i s (s.fetched.setReg x b) where
  parts := by rw [hi]; rfl
  regs := fun _ hr => State.setReg_v_of_ne _ b (ne_of_mem_of_not_mem hx hr).symm
  pc := .next s

theorem Effect.setPc (hi : RegistersOnly i) {pc : Word} (h : pc.toNat ≤ 0x10FE) : Effect i s (s.fetched.setPc pc) where
  parts := by rw [hi]; rfl
  regs := fun _ _ => rfl
  pc := .jump h

theorem Effect.writeWithFlag (hi : RegistersOnly i) {x : Reg} (hw : writesOf i = [x, 15]) (result flag : Byte) :
    Effect i s (writeWithFlag x result flag s.fetched) where
  parts := by rw [hi]; rfl
  regs := fun r hr => by
    rw [hw, List.mem_cons, List.mem_singleton, not_or] at hr
    rw [writeWithFlag_v, if_neg hr.2, if_neg hr.1]; rfl
  pc := .next s

theorem Effect.loadRegs {x : Reg} (h : loadRegs (regsUpTo x) s.fetched = .ok t) : Effect (.ldXMem x) s t := by
  obtain ⟨heq, hregs⟩ := loadRegs_inv h
  obtain ⟨v, rfl⟩ : ∃ v, t = { s.fetched with v := v } := ⟨_, heq⟩
  exact ⟨rfl, hregs, .next s⟩

theorem Effect.storeRegs {x : Reg} (h : storeRegs (regsUpTo x) s.fetched = .ok t) : Effect (.ldMemX x) s t := by
  obtain ⟨heq, -⟩ := storeRegs_inv h
  obtain ⟨m, rfl⟩ : ∃ m, t = { s.fetched with mem := m } := ⟨_, heq⟩
  exact ⟨rfl, fun _ _ => rfl, .next s⟩

/-- A next state of an instruction is a raise or has the instruction's effect. -/
theorem exec_effect (h : exec i s = .next t) : (∃ c, t = s.raise c) ∨ Effect i s t := by
  have kept {w : List Reg} : ∀ r : Reg, r ∉ w → s.v[r] = s.v[r] := fun _ _ => rfl
  have only {x : Reg} : x ∈ [x] := List.mem_singleton.mpr rfl
  cases i with
  | cls => exact (execCls_cases h).imp_right (by rintro rfl; exact ⟨rfl, kept, .next s⟩)
  | ret => exact (execRet_cases h).imp_right (by
      rintro ⟨hsp, ra, hra, rfl⟩; exact ⟨rfl, kept, .inr (.inr (.inr (.inr ⟨hsp, hra⟩)))⟩)
  | sys nnn => exact (execSys_cases nnn h).imp_right (by rintro rfl; exact ⟨rfl, kept, .next s⟩)
  | jp nnn => exact (execJp_cases nnn h).imp_right (by rintro rfl; exact .setPc (fun _ _ => rfl) (zext16_le nnn))
  | call nnn => exact (execCall_cases nnn h).imp_right (by
      rintro ⟨-, rfl⟩; exact ⟨rfl, kept, .jump (zext16_le nnn)⟩)
  | seImm x nn => exact (execSeImm_cases x nn h).imp_right (by rintro ⟨_, -, rfl⟩; exact .skipIf (fun _ _ => rfl) _)
  | sneImm x nn => exact (execSneImm_cases x nn h).imp_right (by rintro ⟨_, -, rfl⟩; exact .skipIf (fun _ _ => rfl) _)
  | seReg x y => exact (execSeReg_cases x y h).imp_right (by rintro ⟨_, _, -, -, rfl⟩; exact .skipIf (fun _ _ => rfl) _)
  | sneReg x y => exact (execSneReg_cases x y h).imp_right (by rintro ⟨_, _, -, -, rfl⟩; exact .skipIf (fun _ _ => rfl) _)
  | ldImm x nn => exact (execLdImm_cases x nn h).imp_right (by rintro rfl; exact .setReg (fun _ _ => rfl) only _)
  | addImm x nn => exact (execAddImm_cases x nn h).imp_right (by rintro ⟨_, -, rfl⟩; exact .setReg (fun _ _ => rfl) only _)
  | ldReg x y => exact (execLdReg_cases x y h).imp_right (by rintro ⟨_, -, rfl⟩; exact .setReg (fun _ _ => rfl) only _)
  | or x y => exact (execOr_cases x y h).imp_right (by rintro ⟨_, _, -, -, rfl⟩; exact .setReg (fun _ _ => rfl) only _)
  | and x y => exact (execAnd_cases x y h).imp_right (by rintro ⟨_, _, -, -, rfl⟩; exact .setReg (fun _ _ => rfl) only _)
  | xor x y => exact (execXor_cases x y h).imp_right (by rintro ⟨_, _, -, -, rfl⟩; exact .setReg (fun _ _ => rfl) only _)
  | addReg x y => exact (execAddReg_cases x y h).imp_right (by
      rintro ⟨_, _, -, -, rfl⟩; exact .writeWithFlag (fun _ _ => rfl) rfl _ _)
  | sub x y => exact (execSub_cases x y h).imp_right (by
      rintro ⟨_, _, -, -, rfl⟩; exact .writeWithFlag (fun _ _ => rfl) rfl _ _)
  | shr x y => exact (execShr_cases x y h).imp_right (by
      rintro ⟨_, -, rfl⟩; exact .writeWithFlag (fun _ _ => rfl) rfl _ _)
  | subn x y => exact (execSubn_cases x y h).imp_right (by
      rintro ⟨_, _, -, -, rfl⟩; exact .writeWithFlag (fun _ _ => rfl) rfl _ _)
  | shl x y => exact (execShl_cases x y h).imp_right (by
      rintro ⟨_, -, rfl⟩; exact .writeWithFlag (fun _ _ => rfl) rfl _ _)
  | ldI nnn => exact (execLdI_cases nnn h).imp_right (by rintro rfl; exact ⟨rfl, kept, .next s⟩)
  | jpV0 nnn => exact (execJpV0_cases nnn h).imp_right (by
      rintro ⟨a, -, rfl⟩; exact .setPc (fun _ _ => rfl) (by rw [zext16_add_byte_toNat]; omega))
  | rnd x nn => exact (execRnd_cases x nn h).imp_right (by rintro rfl; exact .setReg (fun _ _ => rfl) only _)
  | drw x y n => exact (execDrw_cases x y n h).imp_right (by
      rintro ⟨_, _, out, -, -, -, rfl⟩
      exact ⟨rfl, fun r hr => State.setReg_v_of_ne _ _ fun e => hr (List.mem_singleton.mpr e), .next s⟩)
  | skp x => exact (execSkp_cases x h).imp_right (by rintro ⟨_, _, -, -, rfl⟩; exact .skipIf (fun _ _ => rfl) _)
  | sknp x => exact (execSknp_cases x h).imp_right (by rintro ⟨_, _, -, -, rfl⟩; exact .skipIf (fun _ _ => rfl) _)
  | ldXDt x => exact (execLdXDt_cases x h).imp_right (by rintro rfl; exact .setReg (fun _ _ => rfl) only _)
  | ldXK x => exact (execLdXK_cases x h).imp_right (by
      rintro (⟨_, -, rfl⟩ | ⟨-, rfl⟩)
      · exact .setReg (fun _ _ => rfl) only _
      · exact ⟨rfl, fun _ _ => rfl, .inl rfl⟩)
  | ldDtX x => exact (execLdDtX_cases x h).imp_right (by rintro ⟨_, -, rfl⟩; exact ⟨rfl, kept, .next s⟩)
  | ldStX x => exact (execLdStX_cases x h).imp_right (by rintro ⟨_, -, rfl⟩; exact ⟨rfl, kept, .next s⟩)
  | addIX x => exact (execAddIX_cases x h).imp_right (by rintro ⟨_, _, -, -, -, rfl⟩; exact ⟨rfl, kept, .next s⟩)
  | ldFX x => exact (execLdFX_cases x h).imp_right (by rintro ⟨_, -, -, rfl⟩; exact ⟨rfl, kept, .next s⟩)
  | ldBX x => exact (execLdBX_cases x h).imp_right (by rintro ⟨_, _, -, -, -, rfl⟩; exact ⟨rfl, kept, .next s⟩)
  | ldMemX x => exact (execLdMemX_cases x h).imp_right .storeRegs
  | ldXMem x => exact (execLdXMem_cases x h).imp_right .loadRegs

/-- The parts an instruction writes, read off `updateOf`. -/
theorem updateOf_writes (i : Instr) (s t : State) :
    ((updateOf i s t).index ≠ s.index → (∃ nnn, i = .ldI nnn) ∨ (∃ x, i = .addIX x) ∨ (∃ x, i = .ldFX x)) ∧
    (((updateOf i s t).stack ≠ s.stack ∨ (updateOf i s t).sp ≠ s.sp) → i = .ret ∨ ∃ nnn, i = .call nnn) ∧
    ((updateOf i s t).display ≠ s.display → i = .cls ∨ ∃ x y n, i = .drw x y n) ∧
    ((updateOf i s t).mem ≠ s.mem → (∃ x, i = .ldBX x) ∨ ∃ x, i = .ldMemX x) ∧
    ((updateOf i s t).dt ≠ s.dt → ∃ x, i = .ldDtX x) ∧
    ((updateOf i s t).st ≠ s.st → ∃ x, i = .ldStX x) := by
  cases i <;> simp [updateOf]

/-- The parts no instruction writes. -/
theorem updateOf_keeps (i : Instr) (s t : State) :
    (updateOf i s t).keys = s.keys ∧ (updateOf i s t).acc = s.acc ∧ (updateOf i s t).params = s.params ∧
    (updateOf i s t).inputs = s.inputs ∧ (updateOf i s t).tick = s.tick ∧ (updateOf i s t).status = s.status := by
  cases i <;> exact ⟨rfl, rfl, rfl, rfl, rfl, rfl⟩

theorem Effect.keeps (h : Effect i s t) :
    t.keys = s.keys ∧ t.acc = s.acc ∧ t.params = s.params ∧ t.inputs = s.inputs ∧ t.tick = s.tick ∧ t.status = s.status := by
  rw [h.parts]
  exact updateOf_keeps i s t

theorem Effect.status (h : Effect i s t) : t.status = s.status := by
  obtain ⟨-, -, -, -, -, hstatus⟩ := h.keeps
  exact hstatus

end Sys2Proof.Machine
end

section
/-! The obligations of the family. -/

namespace Sys2Proof.Machine

/-- Settles O14: a raise writes none of the parts, and an instruction's effect those of `updateOf`. -/
theorem onlyTheListedInstructionsWrite : Obligations.OnlyTheListedInstructionsWrite := by
  intro i s t h
  obtain ⟨c, rfl⟩ | heff := exec_effect h
  · simp
  · obtain ⟨hkeys, hacc, hparams, hinputs, htick, -⟩ := heff.keeps
    obtain ⟨hindex, hstack, hdisplay, hmem, hdt, hst⟩ := updateOf_writes i s t
    rw [← heff.parts] at hindex hstack hdisplay hmem hdt hst
    exact ⟨hindex, hstack, hdisplay, hmem, hdt, hst, hkeys, hacc, hparams, hinputs, htick⟩

/-- Settles O8: the effect of an instruction leaves the status, and a drain follows only a cycle that did not raise, so a
running machine that has halted raised in the fetch or in Execute. -/
theorem raisingCommitsNothing : Obligations.RaisingCommitsNothing := by
  have hexec : ∀ (i : Instr) (s t : State), exec i s = .next t → t.status = s.status ∨ ∃ c, t = s.raise c :=
    fun i s t h => (exec_effect h).symm.imp_left Effect.status
  refine ⟨hexec, fun e s t hs h ht => ?_⟩
  obtain ⟨c, rfl⟩ : ∃ c, t = s.raise c := by
    obtain ⟨⟨err, hhalt⟩, -⟩ | ⟨-, c, -, hraise⟩ | ⟨-, i, u, -, hu, rfl⟩ := cycle_cases h
    · cases hs.symm.trans hhalt
    · exact ⟨c, hraise⟩
    · obtain hstatus | ⟨c, rfl⟩ := hexec i s u hu
      · rw [hs] at hstatus
        rw [drainIfRunning_of_running e hstatus] at ht
        exact absurd hstatus ht
      · exact ⟨c, drainIfRunning_of_halted e (State.raise_status s c)⟩
  exact ⟨c, rfl, rfl, rfl, rfl, rfl, rfl, rfl, rfl, rfl, rfl, rfl, rfl⟩

end Sys2Proof.Machine
end

/-! ## The invariant: every step keeps it and answers a next state (O11, O12, O13, O22) -/

section
/-! SUPPORT. The invariant under the updates of a step: the driver's part, a raise, an instruction, the drain. -/

namespace Sys2Proof.Machine

variable {i : Instr} {s t : State}

/-- The part of the invariant that speaks of the call stack (R31, R32). -/
def StackInv (s : State) : Prop :=
  s.stack[0] = none ∧
  ∀ k : Fin 16, k ≠ 0 → k ≤ s.sp → ∃ ra : Word, s.stack[k] = some ra ∧ ra.toNat ≤ 0x1000

theorem Inv.stackInv (h : Inv s) : StackInv s := ⟨h.stack_zero, h.stack_live⟩

theorem StackInv.congr (h : StackInv s) (hstack : t.stack = s.stack) (hsp : t.sp = s.sp) : StackInv t := by
  unfold StackInv
  rw [hstack, hsp]
  exact h

/-- A pop lowers the depth and keeps the entries. -/
theorem StackInv.popReturn (h : StackInv s) (hsp : s.sp ≠ 0) (ra : Word) : StackInv (s.popReturn ra) := by
  refine ⟨h.1, fun k hk hle => h.2 k hk ?_⟩
  have := State.popReturn_sp_val ra hsp
  omega

/-- A push adds the pc one level deeper. -/
theorem StackInv.pushReturn (h : StackInv s) (hsp : s.sp ≠ 15) (hpc : s.pc.toNat ≤ 0x1000) : StackInv s.pushReturn := by
  have hval := State.pushReturn_sp_val hsp
  have htop : (s.sp + 1).val = s.sp.val + 1 := hval
  refine ⟨?bottom, fun k hk hle => ?live⟩
  case bottom =>
    have hne : (0 : Fin 16) ≠ s.sp + 1 := fun e => absurd (congrArg Fin.val e) (by rw [htop]; simp)
    exact (State.pushReturn_stack_of_ne s hne).trans h.1
  case live =>
    by_cases hk' : k = s.sp + 1
    · subst hk'
      exact ⟨s.pc, State.pushReturn_stack_top s, hpc⟩
    · rw [State.pushReturn_stack_of_ne s hk']
      have hkval : k.val ≠ s.sp.val + 1 := fun e => hk' (Fin.ext (e.trans htop.symm))
      exact h.2 k hk (by omega)

/-- The invariant does not speak of the keypad and the inputs. -/
theorem Inv.deliverKeys (h : Inv s) : Inv s.deliverKeys := by
  rw [deliverKeys_eq]
  exact ⟨h.mem_wf, h.acc_nonneg, h.acc_lt, h.pc_le, h.stack_zero, h.stack_live, h.halt_precise⟩

theorem Inv.consumeInput (h : Inv s) : Inv s.consumeInput :=
  ⟨h.mem_wf, h.acc_nonneg, h.acc_lt, h.pc_le, h.stack_zero, h.stack_live, h.halt_precise⟩

theorem Inv.raise (h : Inv s) (c : Cause) : Inv (s.raise c) :=
  ⟨h.mem_wf, h.acc_nonneg, h.acc_lt, h.pc_le, h.stack_zero, h.stack_live, fun _ he => by cases he; rfl⟩

/-- What the drain leaves in the accumulator is the remainder, below one quantum (R252). -/
theorem drain_acc_bounds (e : Elapsed) (h : 0 ≤ s.acc) : 0 ≤ (s.drain e).acc ∧ (s.drain e).acc < s.params.quantum := by
  obtain ⟨hfit, hmore⟩ := wholeQuanta_spec s.params.quantum_pos (add_nonneg h e.nonneg)
  rw [State.drain_acc]
  constructor <;> linarith

theorem Inv.drainIfRunning (h : Inv s) (e : Elapsed) : Inv (s.drainIfRunning e) := by
  unfold State.drainIfRunning
  split
  · obtain ⟨hnonneg, hlt⟩ := drain_acc_bounds e h.acc_nonneg
    exact ⟨h.mem_wf, hnonneg, hlt, h.pc_le, h.stack_zero, h.stack_live, h.halt_precise⟩
  · exact h

/-- A fetch that succeeds had both bytes inside memory. -/
theorem fetchInstr_pc_le (h : s.fetchInstr = .ok i) : s.pc.toNat ≤ 0xFFE := by
  obtain ⟨w, hw, -⟩ := fetchInstr_eq_ok.mp h
  obtain ⟨-, hlo⟩ := fetchWord_eq_ok.mp hw
  have := State.byteAt_lt hlo
  unfold memSize at this
  omega

theorem effAddr_le_effAddr (a : Word) {j k : Nat} (h : j ≤ k) : effAddr a j ≤ effAddr a k := Nat.add_le_add_left h _

/-- The canonical form of memory: only the two stores write it, inside the 4096 bytes. -/
theorem exec_keeps_mem_wf (h : exec i s = .next t) (hw : Memory.wf s.params.font s.mem) :
    Memory.wf s.params.font t.mem := by
  obtain ⟨-, -, -, hwrites, -⟩ := onlyTheListedInstructionsWrite i s t h
  by_cases hmem : t.mem = s.mem
  · rwa [hmem]
  · obtain ⟨x, rfl⟩ | ⟨x, rfl⟩ := hwrites hmem
    · obtain ⟨c, rfl⟩ | ⟨v, a, -, -, hlt, rfl⟩ := execLdBX_cases x h
      · exact hw
      · have h0 : effAddr a 0 < memSize := (effAddr_le_effAddr a (Nat.zero_le 2)).trans_lt hlt
        have h1 : effAddr a 1 < memSize := (effAddr_le_effAddr a (Nat.le_succ 1)).trans_lt hlt
        exact Memory.wf_write _ _ _ _ hlt (Memory.wf_write _ _ _ _ h1 (Memory.wf_write _ _ _ _ h0 hw))
    · obtain ⟨c, rfl⟩ | hstore := execLdMemX_cases x h
      · exact hw
      · exact (storeRegs_inv hstore).2 hw

/-- The call stack: only RET and CALL write it. -/
theorem exec_keeps_stackInv (h : exec i s = .next t) (hpc : s.pc.toNat ≤ 0xFFE) (hw : StackInv s) : StackInv t := by
  obtain ⟨-, hwrites, -⟩ := onlyTheListedInstructionsWrite i s t h
  by_cases hsame : t.stack = s.stack ∧ t.sp = s.sp
  · exact hw.congr hsame.1 hsame.2
  · obtain rfl | ⟨nnn, rfl⟩ := hwrites (not_and_or.mp hsame)
    · obtain ⟨c, rfl⟩ | ⟨hsp, ra, -, rfl⟩ := execRet_cases h
      · exact hw
      · exact StackInv.popReturn (s := s.fetched) hw hsp ra
    · obtain ⟨c, rfl⟩ | ⟨hsp, rfl⟩ := execCall_cases nnn h
      · exact hw
      · refine StackInv.pushReturn (s := s.fetched) hw hsp ?_
        rw [State.fetched_pc, BitVec.toNat_add]
        exact (Nat.mod_le _ _).trans (by simpa using hpc)

/-- The pc never exceeds 0x10FE (R30). -/
theorem Inv.pcAfter_le (h : Inv s) (hpc : s.pc.toNat ≤ 0xFFE) {pc : Word} (ha : PcAfter s pc) : pc.toNat ≤ 0x10FE := by
  obtain rfl | rfl | rfl | hle | ⟨hsp, hra⟩ := ha
  · exact h.pc_le
  · rw [BitVec.toNat_add]; exact (Nat.mod_le _ _).trans (by simp; omega)
  · rw [BitVec.toNat_add]; exact (Nat.mod_le _ _).trans (by simp; omega)
  · exact hle
  · obtain ⟨ra, hlive, hle⟩ := h.stack_live s.sp hsp le_rfl
    obtain rfl : pc = ra := Option.some.inj (hra.symm.trans hlive)
    omega

/-- An instruction that was fetched keeps the invariant: it raises, or its effect does. -/
theorem Inv.exec (h : Inv s) (hs : s.status = .running) (hi : s.fetchInstr = .ok i) (hexec : exec i s = .next t) :
    Inv t := by
  obtain ⟨c, rfl⟩ | heff := exec_effect hexec
  · exact h.raise c
  · have hpc := fetchInstr_pc_le hi
    obtain ⟨-, hacc, hparams, -, -, hstatus⟩ := heff.keeps
    obtain ⟨hzero, hlive⟩ := exec_keeps_stackInv hexec hpc h.stackInv
    exact {
      mem_wf := hparams ▸ exec_keeps_mem_wf hexec h.mem_wf
      acc_nonneg := hacc ▸ h.acc_nonneg
      acc_lt := by rw [hacc, hparams]; exact h.acc_lt
      pc_le := h.pcAfter_le hpc heff.pc
      stack_zero := hzero
      stack_live := hlive
      halt_precise := fun e he => by rw [hstatus, hs] at he; cases he }

/-- Every cycle keeps the invariant: one that halts, one that raises, one that executes and drains. -/
theorem Inv.cycle (h : Inv s) {e : Elapsed} (hc : cycle e s = .next t) : Inv t := by
  obtain ⟨-, rfl⟩ | ⟨-, c, -, rfl⟩ | ⟨hs, i, u, hi, hexec, rfl⟩ := cycle_cases hc
  · exact h
  · exact h.raise c
  · exact (h.exec hs hi hexec).drainIfRunning e

/-- The one stop of an instruction is RET on an unset entry (R132). -/
theorem exec_next_or_unset (i : Instr) (s : State) :
    (∃ t, exec i s = .next t) ∨
      (i = .ret ∧ s.sp ≠ 0 ∧ s.stack[s.sp] = none ∧ Machine.exec i s = .fault .unsetStackEntry) := by
  cases i with
  | ret =>
    by_cases hsp : s.sp = 0
    · exact .inl ⟨_, ret_raises_of_empty hsp⟩
    · cases hra : s.stack[s.sp] with
      | some ra => exact .inl ⟨_, exec_ret_of_some hsp hra⟩
      | none => exact .inr ⟨rfl, hsp, rfl, by rw [Machine.exec, execRet, if_neg hsp, hra]⟩
  | _ => exact .inl (by rw [Machine.exec]; exact execute_next s _)

/-- The invariant rules the stop out: the entry at the depth is live. -/
theorem Inv.exec_next (h : Inv s) (i : Instr) : ∃ t, Machine.exec i s = .next t := by
  obtain hnext | ⟨-, hsp, hunset, -⟩ := exec_next_or_unset i s
  · exact hnext
  · obtain ⟨ra, hlive, -⟩ := h.stack_live s.sp hsp le_rfl
    cases hunset.symm.trans hlive

theorem Inv.cycle_next (h : Inv s) (e : Elapsed) : ∃ t, Machine.cycle e s = .next t := by
  cases hs : s.status with
  | halted err => exact ⟨s, cycle_of_halted hs⟩
  | running =>
    cases hf : s.fetchInstr with
    | error c => exact ⟨_, cycle_of_error hs hf⟩
    | ok i =>
      obtain ⟨t, ht⟩ := h.exec_next i
      exact ⟨_, (cycle_of_instr hs hf).trans (mapNext_eq_next.mpr ⟨t, ht, rfl⟩)⟩

end Sys2Proof.Machine
end

section
/-! The obligations of the family. -/

namespace Sys2Proof.Machine

/-- Settles O11, part by part of the step: the delivery of the keys, the cycle, the input that is used up. -/
theorem stepKeepsInvariant : Obligations.StepKeepsInvariant := by
  intro s t h hstep
  obtain ⟨u, hcycle, rfl⟩ := step_eq_next.mp hstep
  exact (h.deliverKeys.cycle hcycle).consumeInput

/-- Settles O13: the stop of RET is the only one, and the invariant holds the entry set. -/
theorem stepAlwaysAnswersNext : Obligations.StepAlwaysAnswersNext := by
  refine ⟨fun s h => ?_, exec_next_or_unset⟩
  obtain ⟨t, ht⟩ := h.deliverKeys.cycle_next s.currentInput.elapsed
  exact ⟨t.consumeInput, step_eq_next.mpr ⟨t, ht, rfl⟩⟩

/-- The initial values of R45 have the invariant: nothing is listed, nothing is on the stack. -/
theorem inv_initial : Inv State.initial where
  mem_wf := Memory.wf_nil _
  acc_nonneg := le_refl _
  acc_lt := defaultParams.quantum_pos
  pc_le := by decide
  stack_zero := rfl
  stack_live := fun _ hk hle => absurd (Fin.le_zero_iff.mp hle) hk
  halt_precise := fun _ h => by cases h

/-- Settles O12: reset differs from the initial values in V and I, of which the invariant does not speak. -/
theorem resetHasInvariant : Obligations.ResetHasInvariant := by
  obtain ⟨hmem, hnonneg, hlt, hpc, hzero, hlive, hhalt⟩ := inv_initial
  exact ⟨⟨hmem, hnonneg, hlt, hpc, hzero, hlive, hhalt⟩, inv_initial⟩

/-- Settles O22: an image that is loaded fits, so its bytes keep the canonical form, and the machine is running at 0x200. -/
theorem loadKeepsInvariant : Obligations.LoadKeepsInvariant := by
  intro image s0 s h hload
  cases image with
  | none => cases hload
  | some bytes =>
    rw [load] at hload
    split at hload
    case isTrue => cases hload
    case isFalse hfit =>
      cases hload
      exact {
        mem_wf := Memory.wf_writeList _ _ _ _ (by unfold maxImage memSize at hfit; unfold memSize; omega) h.mem_wf
        acc_nonneg := h.acc_nonneg
        acc_lt := h.acc_lt
        pc_le := (by decide : (0x200#16).toNat ≤ 0x10FE)
        stack_zero := h.stack_zero
        stack_live := h.stack_live
        halt_precise := fun _ he => by cases he }

end Sys2Proof.Machine
end

/-! ## Memory, the font and the image (O19, O20, O21, O23, O24, O25, O47) -/

section
/-! SUPPORT. What the cells of a canonical memory, of the font and of a written list of bytes read as. -/

namespace Sys2Proof.Machine

variable {s t : State} {f : Font} {m m' : Memory}

/-- In the canonical form a listed cell does not read as its unlisted content, so what reads alike lists alike. -/
theorem Memory.listed_of_read (hm : Memory.wf f m) (h : ∀ a, a < memSize → Memory.read f m a = Memory.read f m' a)
    {a : Nat} {b : Byte} (hb : Memory.listed m a = some b) : Memory.listed m' a = some b := by
  obtain ⟨hlt, hne⟩ := hm.2 _ (Memory.mem_of_listed hb)
  have hread := h a hlt
  unfold Memory.read at hread
  rw [hb] at hread
  cases hb' : Memory.listed m' a with
  | some b' => rw [hb'] at hread; exact hread.symm
  | none => rw [hb'] at hread; exact absurd hread.symm hne

theorem Memory.mem_of_read (hm : Memory.wf f m) (h : ∀ a, a < memSize → Memory.read f m a = Memory.read f m' a)
    {c : Host.Cell} (hc : c ∈ m) : c ∈ m' :=
  Memory.mem_of_listed (Memory.listed_of_read hm h (Memory.listed_of_mem hm.1 hc))

theorem State.readByte_congr {a : Nat} (h : t.byteAt a = s.byteAt a) : t.readByte a = s.readByte a := by
  unfold State.readByte
  rw [h]

theorem State.byteAt_of_lt {a : Nat} (h : a < memSize) : s.byteAt a = Memory.read s.params.font s.mem a := by
  rw [State.byteAt, if_neg (by omega)]

theorem State.byteAt_of_ge {a : Nat} (h : memSize ≤ a) : s.byteAt a = none := by
  rw [State.byteAt, if_pos h]

/-- A cell that is not listed reads as the font's byte, or is unset. -/
theorem State.byteAt_of_unlisted {a : Nat} (ha : a < memSize) (h : Memory.listed s.mem a = none) :
    s.byteAt a = fontByte s.params.font a := by
  rw [State.byteAt_of_lt ha, Memory.read, h]
  rfl

theorem glyph_address_lt (f : Font) (d : Fin 16) (j : Fin 5) : f.base.toNat + 5 * d.val + j.val < 0x200 := by
  have := f.base_le
  omega

/-- A list of bytes written from an address stands there, and every other byte is as before. -/
theorem byteAt_of_writeList {base : Nat} {bs : List Byte} (hm : t.mem = Memory.writeList s.params.font s.mem base bs)
    (hp : t.params = s.params) (hfit : base + bs.length ≤ memSize) :
    (∀ j : Nat, ∀ h : j < bs.length, t.byteAt (base + j) = some bs[j]) ∧
    (∀ a : Nat, a < base ∨ base + bs.length ≤ a → t.byteAt a = s.byteAt a) := by
  constructor
  · intro j hj
    rw [State.byteAt_of_lt (by omega), hm, hp, Memory.read_writeList, if_pos (by omega), Nat.add_sub_cancel_left,
      List.getElem?_eq_getElem hj]
    rfl
  · intro a ha
    by_cases hlt : a < memSize
    · rw [State.byteAt_of_lt hlt, State.byteAt_of_lt hlt, hm, hp, Memory.read_writeList]
      obtain ha | ha := ha
      · rw [if_neg (by omega)]
      · rw [if_pos (by omega), List.getElem?_eq_none (by omega)]
        rfl
    · rw [State.byteAt_of_ge (by omega), State.byteAt_of_ge (by omega)]

end Sys2Proof.Machine
end

section
/-! The obligations of the family. -/

namespace Sys2Proof.Machine

/-- Settles O23, by the bounds of the address and what a write does to a read. -/
theorem memReadMemWrite : Obligations.MemReadMemWrite := by
  intro s a b
  refine ⟨fun ha => ?_, fun ha => ⟨State.writeByte_of_ge b ha, State.readByte_of_ge ha⟩,
    fun ha h => State.readByte_of_none ha h, fun h => ⟨State.byteAt_lt h, State.readByte_of_some h⟩⟩
  have hbyte := State.byteAt_setByte (s := s) b ha
  have hother : ∀ a', a' ≠ a → (s.setByte a b).byteAt a' = s.byteAt a' := fun a' h => by rw [hbyte, if_neg h]
  exact ⟨s.setByte a b, State.writeByte_of_lt b ha, State.readByte_of_some (by rw [hbyte, if_pos rfl]),
    fun a' h => ⟨hother a' h, State.readByte_congr (hother a' h)⟩, rfl⟩

/-- Settles O24: both are sorted by address, and a cell of one is a cell of the other. -/
theorem canonicalMemoriesAreEqualData : Obligations.CanonicalMemoriesAreEqualData := by
  intro f m m' hm hm' h
  have hirrefl : Std.Irrefl fun c d : Host.Cell => c.1 < d.1 := ⟨fun _ => lt_irrefl _⟩
  have hanti : Std.Antisymm fun c d : Host.Cell => c.1 < d.1 := ⟨fun _ _ hlt hgt => absurd hgt (lt_asymm hlt)⟩
  exact hm.1.eq_of_mem_iff hm'.1 fun c => ⟨Memory.mem_of_read hm h, Memory.mem_of_read hm' fun a ha => (h a ha).symm⟩

/-- Settles O25: the second write is at another address, so it leaves the first byte. -/
theorem fetchSeesWrittenBytes : Obligations.FetchSeesWrittenBytes := by
  intro s t u w hhi hlo
  obtain ⟨hlt, rfl⟩ := State.writeByte_eq_ok.mp hhi
  obtain ⟨hlt', rfl⟩ := State.writeByte_eq_ok.mp hlo
  rw [fetchWord_eq_ok, State.setByte_pc, State.setByte_pc, State.byteAt_setByte _ hlt', State.byteAt_setByte _ hlt',
    State.byteAt_setByte _ hlt]
  simp

/-- Settles O47: the glyph rows stand below 0x200, and an unlisted cell reads as the font's byte. -/
theorem fontGlyphBytes : Obligations.FontGlyphBytes := by
  intro s d j h
  have hlt := glyph_address_lt s.params.font d j
  rw [State.byteAt_of_unlisted (hlt.trans (by decide)) h, fontByte_glyph]

/-- Settles O21, by whether the image is readable and fits. -/
theorem loadPlacesImageVerbatim : Obligations.LoadPlacesImageVerbatim := by
  intro s0
  refine ⟨fun bytes hfit => ?_, fun bytes hlong => ?_, rfl⟩
  · have hfits : ¬ maxImage < bytes.length := Nat.not_lt.mpr hfit
    refine ⟨_, by rw [load, if_neg hfits], rfl, rfl, ?_⟩
    obtain ⟨hin, hout⟩ := byteAt_of_writeList (s := s0) (base := 0x200) (bs := bytes)
      (t := { s0 with mem := _, pc := 0x200#16, status := .running }) rfl rfl (by unfold memSize; omega)
    exact ⟨hin, hout, rfl⟩
  · have htoo : maxImage < bytes.length := hlong
    rw [load, if_pos htoo]

/-- Settles O19: the load changes memory alone of the initial values, and the font's bytes lie below the image. -/
theorem initialisationGivesTheTable : Obligations.InitialisationGivesTheTable := by
  intro p bytes hfit
  obtain ⟨hload, -⟩ := loadPlacesImageVerbatim { State.initial with params := p }
  obtain ⟨s, hs, hpc, hstatus, himage, hrest, heq⟩ := hload bytes hfit
  have hp : s.params = p := congrArg State.params heq
  have hv : s.v = Vector.replicate 16 none := congrArg State.v heq
  have hstack : s.stack = Vector.replicate 16 none := congrArg State.stack heq
  have hkeys : s.keys = Vector.replicate 16 false := congrArg State.keys heq
  have hdisplay : s.display = blankDisplay := congrArg State.display heq
  refine ⟨s, hs, hp, fun r => ?_, congrArg State.index heq, hpc, fun k => ?_, congrArg State.sp heq,
    congrArg State.dt heq, congrArg State.st heq, congrArg State.acc heq, hstatus, fun k => ?_, fun c r => ?_,
    fun d j => ?_, himage, fun a hfont hout => ?_⟩
  · rw [hv]; exact Vector.getElem_replicate _
  · rw [hstack]; exact Vector.getElem_replicate _
  · rw [hkeys]; exact Vector.getElem_replicate _
  · rw [hdisplay]; exact pix_blank c r
  · rw [hrest _ (.inl (glyph_address_lt p.font d j))]
    exact fontGlyphBytes { State.initial with params := p } d j rfl
  · rw [hrest a hout]
    by_cases ha : a < memSize
    · rw [State.byteAt_of_unlisted ha rfl]
      exact fontByte_outside p.font a hfont
    · exact State.byteAt_of_ge (by omega)

/-- Settles O20: the empty image writes nothing. -/
theorem resetDiffersFromTableInRegistersOnly : Obligations.ResetDiffersFromTableInRegistersOnly :=
  ⟨rfl, fun _ => Vector.getElem_replicate _, rfl, rfl⟩

end Sys2Proof.Machine
end

/-! ## The cycle and the driver (O5, O6, O7, O9, O10) -/

section
/-! SUPPORT. The fetch's errors, the placed word, and what a step keeps whatever its cycle did. -/

namespace Sys2Proof.Machine

variable {s t : State}

theorem fetchWord_of_hi_error {c : Cause} (h : s.readByte s.pc.toNat = .error c) : s.fetchWord = .error c := by
  rw [State.fetchWord, h, error_bind]

theorem fetchWord_of_lo_error {hi : Byte} {c : Cause} (hhi : s.byteAt s.pc.toNat = some hi)
    (h : s.readByte (s.pc.toNat + 1) = .error c) : s.fetchWord = .error c := by
  rw [State.fetchWord, State.readByte_of_some hhi, ok_bind, h, error_bind]

/-- A fetch that raises makes the cycle raise (R246). -/
theorem cycle_of_fetchWord_error (e : Elapsed) {c : Cause} (hs : s.status = .running) (h : s.fetchWord = .error c) :
    cycle e s = .next (s.raise c) :=
  cycle_of_error hs (fetchInstr_of_error h)

/-- Bytes that decode are a word that classifies. -/
theorem classify_of_decode {hi lo : Byte} {i : Instr} (h : decode [hi, lo] = .ok (i, [])) :
    classify (wordOf hi lo) = .ok i := by
  rw [decode] at h
  cases hc : classify (wordOf hi lo) with
  | ok j => rw [hc] at h; cases h; rfl
  | error r => rw [hc] at h; cases h

theorem classify_of_decodeTableWord {n w : Nat} {i : Instr} (h : decodeTableWord n w = some i) :
    classify (tableWord n w) = .ok i := by
  rw [decodeTableWord, decode_bytes] at h
  cases hc : classify (tableWord n w) with
  | ok j => rw [hc] at h; cases h; rfl
  | error r => rw [hc] at h; cases h

theorem fetchablePc_fits (pc : Word) : (fetchablePc pc).toNat + 2 ≤ memSize := by
  unfold fetchablePc
  split
  · assumption
  · decide

theorem fetchablePc_of_le {pc : Word} (h : pc.toNat ≤ 0xFFE) : fetchablePc pc = pc :=
  if_pos (by unfold memSize; omega)

/-- The word placed is the word fetched. -/
theorem fetchWord_placeFetchWord (s : State) (w : Word) : (placeFetchWord s w).fetchWord = .ok w := by
  obtain ⟨hin, -⟩ := byteAt_of_writeList (s := s) (t := placeFetchWord s w) rfl rfl (fetchablePc_fits s.pc)
  exact fetchWord_eq_ok.mpr ⟨hin 0 Nat.two_pos, hin 1 Nat.one_lt_two⟩

theorem fetchInstr_deliverKeys (s : State) : s.deliverKeys.fetchInstr = s.fetchInstr :=
  fetchInstr_congr s.deliverKeys_pc s.deliverKeys_mem s.deliverKeys_params

theorem drainIfRunning_eq (e : Elapsed) (t : State) :
    t.drainIfRunning e = if t.status = .running then t.drain e else t := by
  unfold State.drainIfRunning
  simp only [State.isRunning_iff]

/-- A step of a running machine that fetches `i` runs it on the state with the keys delivered. -/
theorem step_of_instr {i : Instr} (hs : s.status = .running) (hi : s.fetchInstr = .ok i) :
    step s = mapNext State.consumeInput (mapNext (State.drainIfRunning s.currentInput.elapsed) (exec i s.deliverKeys)) := by
  rw [step, driverStep, cycle_of_instr (s.deliverKeys_status.trans hs) ((fetchInstr_deliverKeys s).trans hi)]

/-- A step of a halted machine delivers the keys and uses up the input (R244). -/
theorem step_of_halted {e : Error} (hs : s.status = .halted e) : step s = .next s.deliverKeys.consumeInput := by
  rw [step, driverStep, cycle_of_halted (s.deliverKeys_status.trans hs), mapNext]

/-- A cycle leaves the keypad and the inputs. -/
theorem cycle_keeps {e : Elapsed} (h : cycle e s = .next t) : t.keys = s.keys ∧ t.inputs = s.inputs := by
  obtain ⟨-, rfl⟩ | ⟨-, c, -, rfl⟩ | ⟨-, i, u, -, hu, rfl⟩ := cycle_cases h
  · exact ⟨rfl, rfl⟩
  · exact ⟨rfl, rfl⟩
  · have hu' : u.keys = s.keys ∧ u.inputs = s.inputs := by
      obtain ⟨c, rfl⟩ | heff := exec_effect hu
      · exact ⟨rfl, rfl⟩
      · obtain ⟨hkeys, -, -, hinputs, -⟩ := heff.keeps
        exact ⟨hkeys, hinputs⟩
    rw [drainIfRunning_eq]
    split
    · exact hu'
    · exact hu'

/-- After a step the keypad is the delivered one, and one input is used up. -/
theorem step_keeps (h : step s = .next t) : t.keys = s.deliverKeys.keys ∧ t.inputs = s.inputs.tail := by
  obtain ⟨u, hu, rfl⟩ := step_eq_next.mp h
  obtain ⟨hkeys, hinputs⟩ := cycle_keeps hu
  exact ⟨hkeys, by rw [State.consumeInput_inputs, hinputs, State.deliverKeys_inputs]⟩

/-- The snapshot of the current input, if it has one, is the first queued input's. -/
theorem currentInput_keys_of_some {keys : Keypad} (h : s.currentInput.keys = some keys) :
    ∃ inp ∈ s.inputs.take 1, inp.keys = some keys := by
  cases hin : s.inputs with
  | nil => rw [currentInput_keys_of_nil hin] at h; cases h
  | cons inp rest => exact ⟨inp, List.mem_cons_self, currentInput_of_cons hin ▸ h⟩

/-- With no snapshot in the first queued input the previous keypad stands (R257). -/
theorem deliverKeys_of_no_snapshot (h : ∀ inp ∈ s.inputs.take 1, inp.keys = none) : s.deliverKeys = s := by
  apply deliverKeys_of_none
  by_contra hne
  obtain ⟨keys, hkeys⟩ := Option.ne_none_iff_exists'.mp hne
  obtain ⟨inp, hmem, hsome⟩ := currentInput_keys_of_some hkeys
  cases (h inp hmem).symm.trans hsome

/-- The first input of a run is one of the inputs of the whole run, and so are those after it. -/
theorem mem_take_succ {n : Nat} {inp : CycleInput} {l : List CycleInput} (h : inp ∈ l.take 1 ∨ inp ∈ l.tail.take n) :
    inp ∈ l.take (n + 1) := by
  cases l with
  | nil => simp at h
  | cons a l => simpa using h

end Sys2Proof.Machine
end

section
/-! The obligations of the family. -/

namespace Sys2Proof.Machine

/-- Settles O5: the fetch of the two bytes, Classify, and the two layers around Execute. -/
theorem stepRunsDecodedInstruction : Obligations.StepRunsDecodedInstruction := by
  intro s hi lo i hs hhi hlo hdec
  have hfetch : s.fetchInstr = .ok i := fetchInstr_eq_ok.mpr ⟨_, fetchWord_of_bytes hhi hlo, classify_of_decode hdec⟩
  rw [step_of_instr hs hfetch]
  refine ⟨fun t ht => ?_, fun f hf => by rw [hf]; rfl⟩
  rw [ht, mapNext, mapNext, drainIfRunning_eq]
  split <;> rfl

/-- Settles O6: the two bytes are written where the fetch reads them. -/
theorem placedWordIsFetchedNext : Obligations.PlacedWordIsFetchedNext := by
  intro s w i h
  refine ⟨rfl, ?_, fun hpc => ⟨fetchablePc_of_le hpc, rfl⟩⟩
  exact fetchInstr_eq_ok.mpr ⟨_, fetchWord_placeFetchWord s _, classify_of_decodeTableWord h⟩

/-- Settles O7: the four checks of the two reads, in their order. -/
theorem fetchReadsBigEndianOrRaises : Obligations.FetchReadsBigEndianOrRaises := by
  intro s e hs
  refine ⟨fun hi lo hhi hlo => ?_, fun hpc => ?_, fun hpc hunset => ?_, fun hi hhi hpc => ?_, fun hi hhi hpc hunset => ?_⟩
  · have hlt := State.byteAt_lt hlo
    unfold memSize at hlt
    exact ⟨by omega, wordOf hi lo, fetchWord_of_bytes hhi hlo, wordOf_toNat hi lo⟩
  · exact cycle_of_fetchWord_error e hs (fetchWord_of_hi_error (State.readByte_of_ge hpc))
  · exact cycle_of_fetchWord_error e hs (fetchWord_of_hi_error (State.readByte_of_none hpc hunset))
  · have hlo := State.readByte_of_ge (s := s) (a := s.pc.toNat + 1) (by rw [hpc]; exact le_rfl)
    rw [hpc] at hlo
    exact cycle_of_fetchWord_error e hs (fetchWord_of_lo_error hhi (by rw [hpc]; exact hlo))
  · have hlt : s.pc.toNat + 1 < memSize := by unfold memSize; omega
    exact cycle_of_fetchWord_error e hs (fetchWord_of_lo_error hhi (State.readByte_of_none hlt hunset))

/-- Settles O9, by induction on the number of steps. -/
theorem haltedMachineIsFrozen : Obligations.HaltedMachineIsFrozen := by
  intro n
  induction n with
  | zero => exact fun s e _ => ⟨s, rfl, rfl, rfl, fun _ => rfl⟩
  | succ n ih =>
    intro s e hs
    obtain ⟨t, hrun, heq, hinputs, hkeys⟩ := ih s.deliverKeys.consumeInput e (s.deliverKeys_status.trans hs)
    rw [State.consumeInput_inputs, State.deliverKeys_inputs] at hinputs hkeys
    refine ⟨t, (runSteps_succ (step_of_halted hs)).trans hrun, ?_, ?_, fun hnone => ?_⟩
    · rw [heq, deliverKeys_eq]
      rfl
    · rw [hinputs, List.drop_tail]
    · rw [hkeys fun inp h => hnone inp (mem_take_succ (.inr h)), State.consumeInput_keys,
        deliverKeys_of_no_snapshot fun inp h => hnone inp (mem_take_succ (.inl h))]

/-- Settles O10: what is delivered is the first queued input's snapshot, and neither the cycle nor a halt touches it. -/
theorem setKeysOverwritesWholesale : Obligations.SetKeysOverwritesWholesale := by
  intro s
  refine ⟨fun inp rest keys hin hkeys => ?_, fun hnone => ?_⟩
  · have hdeliv : s.deliverKeys.keys = keys := by
      rw [State.deliverKeys_keys, currentInput_of_cons hin, hkeys, Option.getD_some]
    have hstep : ∀ t, step s = .next t → t.inputs = rest ∧ ∀ k : Key, t.keys[k] = keys[k] := by
      intro t ht
      obtain ⟨hk, hi⟩ := step_keeps ht
      exact ⟨by rw [hi, hin, List.tail_cons], fun k => by rw [hk, hdeliv]⟩
    refine ⟨fun k => by rw [hdeliv], deliverKeys_eq, hstep, fun e he => ?_⟩
    have ht := step_of_halted he
    obtain ⟨hi, hk⟩ := hstep _ ht
    exact ⟨_, ht, s.deliverKeys_status.trans he, hi, hk, s.deliverKeys_v, s.deliverKeys_index, s.deliverKeys_pc,
      s.deliverKeys_stack, s.deliverKeys_sp, s.deliverKeys_dt, s.deliverKeys_st, s.deliverKeys_acc, s.deliverKeys_mem,
      s.deliverKeys_display⟩
  · have hsame := deliverKeys_of_no_snapshot hnone
    exact ⟨hsame, fun t ht => by rw [(step_keeps ht).1, hsame]⟩

end Sys2Proof.Machine
end

/-! ## Timers: the drain, and the drain of a cycle (O26, O27, O28, O57, O59) -/

section
/-! SUPPORT. Drains in a row, the drain of a given number of quanta, and one step of a stalled wait for a key. -/

namespace Sys2Proof.Machine

variable {s t : State}

/-- The drained state, by its three parts. -/
theorem drain_eq_of_parts {e : Elapsed} (hacc : (s.drain e).acc = t.acc) (hdt : (s.drain e).dt = t.dt)
    (hst : (s.drain e).st = t.st) : s.drain e = { s with acc := t.acc, dt := t.dt, st := t.st } := by
  rw [← hacc, ← hdt, ← hst]
  rfl

theorem drainTimer_drainTimer (timer : Byte) (p q : Nat) : drainTimer (drainTimer timer p) q = drainTimer timer (p + q) := by
  apply BitVec.eq_of_toNat_eq
  rw [drainTimer_toNat, drainTimer_toNat, drainTimer_toNat, Nat.sub_sub]

/-- The quanta of a time and those of its remainder with more time are the quanta of the whole. -/
theorem wholeQuanta_add {quantum a b : Rat} (hq : 0 < quantum) (ha : 0 ≤ a) (hb : 0 ≤ b) :
    wholeQuanta quantum (a + b) =
      wholeQuanta quantum a + wholeQuanta quantum (a - wholeQuanta quantum a * quantum + b) := by
  obtain ⟨hfit, -⟩ := wholeQuanta_spec hq ha
  obtain ⟨hfit', hmore'⟩ :=
    wholeQuanta_spec (t := a - wholeQuanta quantum a * quantum + b) hq (add_nonneg (sub_nonneg.mpr hfit) hb)
  apply wholeQuanta_unique hq
  · push_cast
    linarith
  · push_cast
    linarith

/-- Exactly n quanta are n whole quanta. -/
theorem wholeQuanta_mul {quantum : Rat} (hq : 0 < quantum) (n : Nat) : wholeQuanta quantum (n * quantum) = n :=
  wholeQuanta_unique hq n le_rfl (by linarith)

/-- A cycle that ends running fetched an instruction, had its effect, and drained. -/
theorem cycle_running_cases {e : Elapsed} {i : Instr} (hs : s.status = .running) (hi : s.fetchInstr = .ok i)
    (h : cycle e s = .next t) (ht : t.status = .running) : ∃ u, Effect i s u ∧ t = u.drain e := by
  rw [cycle_of_instr hs hi] at h
  obtain ⟨u, hu, rfl⟩ := mapNext_eq_next.mp h
  obtain ⟨c, rfl⟩ | heff := exec_effect hu
  · rw [drainIfRunning_of_halted e (State.raise_status s c)] at ht
    cases ht
  · exact ⟨u, heff, drainIfRunning_of_running e (heff.status.trans hs)⟩

/-- Only LD DT, Vx writes DT (R254). -/
theorem Effect.dt {i : Instr} (h : Effect i s t) (hi : ∀ x, i ≠ .ldDtX x) : t.dt = s.dt := by
  obtain ⟨-, -, -, -, hwrites, -⟩ := updateOf_writes i s t
  rw [← h.parts] at hwrites
  by_contra hne
  obtain ⟨x, rfl⟩ := hwrites hne
  exact hi x rfl

/-- The state a stalled step leaves: the keys are delivered, the timers drained, the input used up (R227). -/
def stalled (s : State) : State := (s.deliverKeys.drain s.currentInput.elapsed).consumeInput

/-- A stalled state differs in the keypad, the timers and the inputs alone. -/
theorem stalled_eq (s : State) : stalled s =
    { s with keys := (stalled s).keys, dt := (stalled s).dt, st := (stalled s).st, acc := (stalled s).acc,
             inputs := (stalled s).inputs, tick := (stalled s).tick } := by
  unfold stalled
  rw [deliverKeys_eq]
  rfl

theorem stalled_inputs (s : State) : (stalled s).inputs = s.inputs.tail := by
  rw [stalled, State.consumeInput_inputs, State.drain_inputs, State.deliverKeys_inputs]

theorem drain_timers_le (s : State) (e : Elapsed) :
    (s.drain e).dt.toNat ≤ s.dt.toNat ∧ (s.drain e).st.toNat ≤ s.st.toNat := by
  rw [State.drain_dt, State.drain_st, drainTimer_toNat, drainTimer_toNat]
  exact ⟨Nat.sub_le _ _, Nat.sub_le _ _⟩

theorem stalled_timers_le (s : State) :
    (stalled s).dt.toNat ≤ s.dt.toNat ∧ (stalled s).st.toNat ≤ s.st.toNat := by
  have h := drain_timers_le s.deliverKeys s.currentInput.elapsed
  rwa [State.deliverKeys_dt, State.deliverKeys_st] at h

theorem fetchInstr_stalled (s : State) : (stalled s).fetchInstr = s.fetchInstr := by
  rw [stalled_eq]
  exact fetchInstr_congr rfl rfl rfl

/-- With every key up, and every key up in the snapshot if there is one, the delivered keypad has every key up. -/
theorem deliverKeys_up (hup : ∀ k : Key, s.keys[k] = false)
    (hin : ∀ inp ∈ s.inputs.take 1, ∀ keys : Keypad, inp.keys = some keys → ∀ k : Key, keys[k] = false) (k : Key) :
    s.deliverKeys.keys[k] = false := by
  rw [State.deliverKeys_keys]
  cases h : s.currentInput.keys with
  | none => exact hup k
  | some keys =>
    obtain ⟨inp, hmem, hsome⟩ := currentInput_keys_of_some h
    exact hin inp hmem keys hsome k

/-- With every key up the wait for a key stalls. -/
theorem step_of_stall {x : Reg} (hs : s.status = .running) (hi : s.fetchInstr = .ok (.ldXK x))
    (hup : ∀ k : Key, s.deliverKeys.keys[k] = false) : step s = .next (stalled s) := by
  rw [step_of_instr hs hi, exec_ldXK_of_up x (firstKeyDown_eq_none.mpr hup), mapNext, mapNext,
    drainIfRunning_of_running _ (s.deliverKeys_status.trans hs), stalled]

end Sys2Proof.Machine
end

section
/-! The obligations of the family. -/

namespace Sys2Proof.Machine

/-- Settles O26, with the whole quanta of `acc + elapsed` for q. -/
theorem drainTakesWholeQuanta : Obligations.DrainTakesWholeQuanta := by
  intro s e h
  obtain ⟨hnonneg, hlt⟩ := drain_acc_bounds e h
  refine ⟨wholeQuanta s.params.quantum (s.acc + e.seconds), ?_, hnonneg, hlt, drainTimer_toNat _ _, drainTimer_toNat _ _, rfl⟩
  rw [State.drain_acc]
  ring

/-- Settles O27: the quanta of the two drains add up to those of the one, and so do the remainders. -/
theorem drainsAddUp : Obligations.DrainsAddUp := by
  intro s e₁ e₂ e h he
  have hq := wholeQuanta_add s.params.quantum_pos (add_nonneg h e₁.nonneg) e₂.nonneg
  rw [add_assoc, ← he] at hq
  have hacc : (s.drain e).acc = ((s.drain e₁).drain e₂).acc := by
    rw [State.drain_acc, State.drain_acc, State.drain_params, State.drain_acc, hq, he]
    push_cast
    ring
  have hdt : (s.drain e).dt = ((s.drain e₁).drain e₂).dt := by
    rw [State.drain_dt, State.drain_dt, State.drain_dt, State.drain_params, State.drain_acc, drainTimer_drainTimer, hq]
  have hst : (s.drain e).st = ((s.drain e₁).drain e₂).st := by
    rw [State.drain_st, State.drain_st, State.drain_st, State.drain_params, State.drain_acc, drainTimer_drainTimer, hq]
  rw [drain_eq_of_parts hacc hdt hst]
  rfl

/-- Settles O28: the instruction leaves DT and `acc` to the drain, whose quanta are five. -/
theorem fiveQuantaLowerDelayTimerByFive : Obligations.FiveQuantaLowerDelayTimerByFive := by
  intro s t e i hs hi hne htime h ht
  obtain ⟨u, heff, rfl⟩ := cycle_running_cases hs hi h ht
  obtain ⟨-, hacc, hparams, -⟩ := heff.keeps
  have hfive : wholeQuanta u.params.quantum (u.acc + e.seconds) = 5 := by
    rw [hacc, hparams, htime]
    exact wholeQuanta_mul s.params.quantum_pos 5
  rw [State.drain_dt, State.drain_acc, hfive, heff.dt hne]
  refine ⟨fun hdt => by rw [hdt]; decide, fun hle => ?_, ?_⟩
  · apply BitVec.eq_of_toNat_eq
    rw [drainTimer_toNat]
    exact Nat.sub_eq_zero_of_le hle
  · rw [hacc, hparams, htime]
    push_cast
    ring

/-- Settles O57, by induction on the number of steps: a stalled step leaves a state that stalls again. -/
theorem keyStallIsFixedPoint : Obligations.KeyStallIsFixedPoint := by
  intro n
  induction n with
  | zero => exact fun s x _ _ hup _ => ⟨s, rfl, rfl, hup, rfl, le_rfl, le_rfl⟩
  | succ n ih =>
    intro s x hs hi hup hin
    have hdeliv := deliverKeys_up hup fun inp h => hin inp (mem_take_succ (.inl h))
    have hin' : ∀ inp ∈ (stalled s).inputs.take n, ∀ keys : Keypad, inp.keys = some keys → ∀ k : Key, keys[k] = false := by
      intro inp h
      rw [stalled_inputs] at h
      exact hin inp (mem_take_succ (.inr h))
    obtain ⟨t, hrun, heq, hkeys, hinputs, hdt, hst⟩ :=
      ih (stalled s) x (s.deliverKeys_status.trans hs) ((fetchInstr_stalled s).trans hi) hdeliv hin'
    obtain ⟨hdt', hst'⟩ := stalled_timers_le s
    refine ⟨t, (runSteps_succ (step_of_stall hs hi hdeliv)).trans hrun, ?_, hkeys, ?_, hdt.trans hdt', hst.trans hst'⟩
    · rw [heq, stalled_eq]
    · rw [hinputs, stalled_inputs, List.drop_tail]

/-- Settles O59: the drain of the cycle is that of the state the transfer leaves. -/
theorem drainFollowsTimerTransfer : Obligations.DrainFollowsTimerTransfer := by
  intro x s e hs
  refine ⟨fun a hi hx => ?_, fun a hi hx => ?_, fun hi => ?_⟩
  · exact ⟨_, cycle_of_exec_running e hs hi (exec_ldDtX_of_some hx) hs, drainTimer_toNat _ _⟩
  · exact ⟨_, cycle_of_exec_running e hs hi (exec_ldStX_of_some hx) hs, drainTimer_toNat _ _⟩
  · exact ⟨_, cycle_of_exec_running e hs hi (exec_ldXDt x s) hs, State.setReg_v_self _ x s.dt, drainTimer_toNat _ _⟩

end Sys2Proof.Machine
end

/-! ## Control flow and ALU: RET after CALL, the instructions on two registers, the flag writers, RND
(O17, O33, O35, O36, O39, O40, O41, O42, O43) -/

section
/-! SUPPORT. Bodies that first read two registers, and the write of a result and then the flag. -/

namespace Sys2Proof.Machine

variable {i : Instr} {s : State} {x y : Reg}

/-- With both registers set, the rest of the body runs with their values. -/
theorem execute_two_regs_of_some {a b : Byte} (body : State → Byte → Byte → Exec State) (hx : s.v[x] = some a)
    (hy : s.v[y] = some b) :
    execute s (fun t => t.reg x >>= fun a => t.reg y >>= fun b => body t a b) = execute s (fun t => body t a b) := by
  rw [execute_reg_of_some _ hx, execute_reg_of_some _ hy]

/-- With Vx unset the instruction raises for it, and with Vy alone unset for Vy (R27, notes/assumptions/9.md). -/
def RaisesUnsetInOrder (i : Instr) (x y : Reg) (s : State) : Prop :=
  (s.v[x] = none → Raises i s (.uninitializedRead (.reg x))) ∧
  (s.v[x] ≠ none → s.v[y] = none → Raises i s (.uninitializedRead (.reg y)))

/-- An instruction that first reads Vx and then Vy raises for the first of the two that is unset. -/
theorem raisesUnsetInOrder_of_reads {body : State → Byte → Byte → Exec State}
    (hi : exec i s = execute s (fun t => t.reg x >>= fun a => t.reg y >>= fun b => body t a b)) :
    RaisesUnsetInOrder i x y s := by
  unfold RaisesUnsetInOrder Raises
  rw [hi]
  refine ⟨execute_reg_of_none _, fun hx hy => ?_⟩
  obtain ⟨a, ha⟩ := Option.ne_none_iff_exists'.mp hx
  rw [execute_reg_of_some _ ha, execute_reg_of_none _ hy]

/-- A write of a result to Vx and then of the flag stays in every footprint that lists both. -/
theorem Frame.writeWithFlag {w : Footprint} {t : State} (h : Frame w s t) (hx : x ∈ w.regs) (hf : (15 : Reg) ∈ w.regs)
    (result flag : Byte) : Frame w s (writeWithFlag x result flag t) :=
  (h.setReg hx result).setReg hf flag

theorem writeWithFlag_v_flag (x : Reg) (result flag : Byte) (t : State) :
    (writeWithFlag x result flag t).v[(15 : Reg)] = some flag := by
  rw [writeWithFlag_v, if_pos rfl]

theorem writeWithFlag_v_result (result flag : Byte) (t : State) (h : x ≠ 15) :
    (writeWithFlag x result flag t).v[x] = some result := by
  rw [writeWithFlag_v, if_neg h, if_pos rfl]

/-- An instruction that fetches and then writes Vx and the flag: pc moves on, Vx holds the result unless it is VF, VF the
flag, the rest stands. -/
theorem fetched_writeWithFlag_effect (x : Reg) (result flag : Byte) (s : State) :
    (writeWithFlag x result flag s.fetched).pc = s.pc + 2 ∧
    (x ≠ 15 → (writeWithFlag x result flag s.fetched).v[x] = some result) ∧
    (writeWithFlag x result flag s.fetched).v[(15 : Reg)] = some flag ∧
    Frame { regs := [x, 15] } s (writeWithFlag x result flag s.fetched) :=
  ⟨rfl, writeWithFlag_v_result result flag _, writeWithFlag_v_flag x result flag _,
    (Frame.fetched _ s).writeWithFlag List.mem_cons_self (List.mem_cons_of_mem _ List.mem_cons_self) result flag⟩

theorem some_flagOf_zero_or_one (c : Bool) : some (flagOf c) = some 0#8 ∨ some (flagOf c) = some 1#8 :=
  (flagOf_zero_or_one c).imp (congrArg some) (congrArg some)

theorem writeWithFlag_zero_or_one (x : Reg) (result : Byte) (c : Bool) (t : State) :
    (writeWithFlag x result (flagOf c) t).v[(15 : Reg)] = some 0#8 ∨
    (writeWithFlag x result (flagOf c) t).v[(15 : Reg)] = some 1#8 := by
  rw [writeWithFlag_v_flag]
  exact some_flagOf_zero_or_one c

end Sys2Proof.Machine
end

section
/-! SUPPORT. What each of the instructions answers, one equation per outcome. -/

namespace Sys2Proof.Machine

variable {s : State} {x y : Reg} {a b : Byte}

section unset

variable (x y : Reg) (s : State)

theorem seReg_raises_unset : RaisesUnsetInOrder (.seReg x y) x y s :=
  raisesUnsetInOrder_of_reads (by rw [exec, execSeReg])

theorem sneReg_raises_unset : RaisesUnsetInOrder (.sneReg x y) x y s :=
  raisesUnsetInOrder_of_reads (by rw [exec, execSneReg])

theorem or_raises_unset : RaisesUnsetInOrder (.or x y) x y s :=
  raisesUnsetInOrder_of_reads (by rw [exec, execOr])

theorem and_raises_unset : RaisesUnsetInOrder (.and x y) x y s :=
  raisesUnsetInOrder_of_reads (by rw [exec, execAnd])

theorem xor_raises_unset : RaisesUnsetInOrder (.xor x y) x y s :=
  raisesUnsetInOrder_of_reads (by rw [exec, execXor])

theorem addReg_raises_unset : RaisesUnsetInOrder (.addReg x y) x y s :=
  raisesUnsetInOrder_of_reads (by rw [exec, execAddReg])

theorem sub_raises_unset : RaisesUnsetInOrder (.sub x y) x y s :=
  raisesUnsetInOrder_of_reads (by rw [exec, execSub])

theorem subn_raises_unset : RaisesUnsetInOrder (.subn x y) x y s :=
  raisesUnsetInOrder_of_reads (by rw [exec, execSubn])

theorem drw_raises_unset (n : Nibble) : RaisesUnsetInOrder (.drw x y n) x y s :=
  raisesUnsetInOrder_of_reads (by rw [exec, execDrw])

end unset

theorem exec_seReg_of_some (hx : s.v[x] = some a) (hy : s.v[y] = some b) :
    exec (.seReg x y) s = .next (s.fetched.skipIf (a == b)) := by
  rw [exec, execSeReg, execute_two_regs_of_some _ hx hy]
  exact execute_ok rfl

theorem exec_sneReg_of_some (hx : s.v[x] = some a) (hy : s.v[y] = some b) :
    exec (.sneReg x y) s = .next (s.fetched.skipIf (a != b)) := by
  rw [exec, execSneReg, execute_two_regs_of_some _ hx hy]
  exact execute_ok rfl

theorem jpV0_raises_of_none (nnn : Addr) (h : s.v[(0 : Reg)] = none) :
    Raises (.jpV0 nnn) s (.uninitializedRead (.reg 0)) := by
  rw [Raises, exec, execJpV0]
  exact execute_reg_of_none _ h

theorem exec_jpV0_of_some (nnn : Addr) (h : s.v[(0 : Reg)] = some a) :
    exec (.jpV0 nnn) s = .next (s.fetched.setPc (zext16 nnn + a.setWidth 16)) := by
  rw [exec, execJpV0, execute_reg_of_some _ h]
  exact execute_ok rfl

theorem exec_or_of_some (hx : s.v[x] = some a) (hy : s.v[y] = some b) :
    exec (.or x y) s = .next (s.fetched.setReg x (a ||| b)) := by
  rw [exec, execOr, execute_two_regs_of_some _ hx hy]
  exact execute_ok rfl

theorem exec_and_of_some (hx : s.v[x] = some a) (hy : s.v[y] = some b) :
    exec (.and x y) s = .next (s.fetched.setReg x (a &&& b)) := by
  rw [exec, execAnd, execute_two_regs_of_some _ hx hy]
  exact execute_ok rfl

theorem exec_xor_of_some (hx : s.v[x] = some a) (hy : s.v[y] = some b) :
    exec (.xor x y) s = .next (s.fetched.setReg x (a ^^^ b)) := by
  rw [exec, execXor, execute_two_regs_of_some _ hx hy]
  exact execute_ok rfl

theorem exec_addReg_of_some (hx : s.v[x] = some a) (hy : s.v[y] = some b) :
    exec (.addReg x y) s = .next (writeWithFlag x (addByte a b) (carryFlag a b) s.fetched) := by
  rw [exec, execAddReg, execute_two_regs_of_some _ hx hy]
  exact execute_ok rfl

theorem exec_sub_of_some (hx : s.v[x] = some a) (hy : s.v[y] = some b) :
    exec (.sub x y) s = .next (writeWithFlag x (subByte a b) (notBorrowFlag a b) s.fetched) := by
  rw [exec, execSub, execute_two_regs_of_some _ hx hy]
  exact execute_ok rfl

theorem exec_subn_of_some (hx : s.v[x] = some a) (hy : s.v[y] = some b) :
    exec (.subn x y) s = .next (writeWithFlag x (subByte b a) (notBorrowFlag b a) s.fetched) := by
  rw [exec, execSubn, execute_two_regs_of_some _ hx hy]
  exact execute_ok rfl

theorem shr_raises_of_none (y : Reg) (h : s.v[x] = none) : Raises (.shr x y) s (.uninitializedRead (.reg x)) := by
  rw [Raises, exec, execShr]
  exact execute_reg_of_none _ h

theorem exec_shr_of_some (y : Reg) (h : s.v[x] = some a) :
    exec (.shr x y) s = .next (writeWithFlag x (shiftRightByte a) (shiftRightFlag a) s.fetched) := by
  rw [exec, execShr, execute_reg_of_some _ h]
  exact execute_ok rfl

theorem shl_raises_of_none (y : Reg) (h : s.v[x] = none) : Raises (.shl x y) s (.uninitializedRead (.reg x)) := by
  rw [Raises, exec, execShl]
  exact execute_reg_of_none _ h

theorem exec_shl_of_some (y : Reg) (h : s.v[x] = some a) :
    exec (.shl x y) s = .next (writeWithFlag x (shiftLeftByte a) (shiftLeftFlag a) s.fetched) := by
  rw [exec, execShl, execute_reg_of_some _ h]
  exact execute_ok rfl

theorem exec_rnd (x : Reg) (nn : Byte) (s : State) : exec (.rnd x nn) s = .next (s.fetched.setReg x (s.drawRnd &&& nn)) := by
  rw [exec, execRnd]
  exact execute_ok rfl

/-- The draw of a cycle can be any byte: an input queued with it is one. -/
theorem drawRnd_any (s : State) (d : Byte) : ∃ s' : State, s' = { s with inputs := s'.inputs } ∧ s'.drawRnd = d :=
  ⟨{ s with inputs := [{ s.currentInput with rnd := d }] }, rfl, rfl⟩

end Sys2Proof.Machine
end

section
/-! The obligations of the family. -/

namespace Sys2Proof.Machine

/-- Settles O33: RET reads the entry that CALL pushed, and lowers the depth CALL raised. -/
theorem retReturnsAfterCall : Obligations.RetReturnsAfterCall := by
  intro nnn s t u hsp hcall hstack husp
  obtain rfl : s.fetched.pushReturn.setPc (zext16 nnn) = t :=
    Host.Outcome.next.inj ((exec_call_of_ne nnn hsp).symm.trans hcall)
  have husp' : u.sp = s.sp + 1 := husp
  have hpos : u.sp ≠ 0 := by
    intro h
    have := State.pushReturn_sp_val (s := s) hsp
    rw [State.pushReturn_sp, ← husp', h] at this
    simp at this
  have htop : ∀ k : Fin 16, k = s.sp + 1 → u.stack[k] = some (s.pc + 2) := by
    rintro _ rfl
    rw [hstack]
    exact State.pushReturn_stack_top s.fetched
  refine ⟨_, exec_ret_of_some hpos (htop u.sp husp'), rfl, ?_⟩
  rw [State.popReturn_sp, State.fetched_sp, husp', add_sub_cancel_right]

/-- Settles O35: the two skips read Vx, then Vy, and differ in their condition alone. -/
theorem skipsOnRegisters : Obligations.SkipsOnRegisters := by
  intro x y s
  refine ⟨Laws.ClassifyEncode.seReg x y rfl, Laws.ClassifyEncode.sneReg x y rfl, ?unset, fun a b hx hy => ⟨?se, ?sne⟩⟩
  case unset =>
    simp only [List.forall_mem_cons, List.not_mem_nil, false_imp_iff, implies_true, and_true]
    exact ⟨seReg_raises_unset x y s, sneReg_raises_unset x y s⟩
  case se =>
    refine ⟨_, exec_seReg_of_some hx hy, ?_, (Frame.fetched _ s).skipIf _⟩
    rw [State.fetched_skipIf_pc]
    simp only [beq_iff_eq]
  case sne =>
    refine ⟨_, exec_sneReg_of_some hx hy, ?_, (Frame.fetched _ s).skipIf _⟩
    rw [State.fetched_skipIf_pc]
    simp only [bne_iff_ne]

/-- Settles O36: the sum fits 16 bits, so it is exact. -/
theorem jpV0AddsRegisterZero : Obligations.JpV0AddsRegisterZero := by
  intro nnn s
  exact ⟨Laws.ClassifyEncode.jpV0 nnn rfl, jpV0_raises_of_none nnn,
    fun a h => ⟨_, exec_jpV0_of_some nnn h, zext16_add_byte_toNat nnn a, (Frame.fetched _ s).setPc _⟩⟩

/-- Settles O39: the three write Vx alone, with the operation of their name. -/
theorem bitwiseLogic : Obligations.BitwiseLogic := by
  intro x y s
  refine ⟨Laws.ClassifyEncode.or x y rfl, Laws.ClassifyEncode.and x y rfl, Laws.ClassifyEncode.xor x y rfl, ?unset,
    fun a b hx hy => ⟨?or, ?and, ?xor⟩⟩
  case unset =>
    simp only [List.forall_mem_cons, List.not_mem_nil, false_imp_iff, implies_true, and_true]
    exact ⟨or_raises_unset x y s, and_raises_unset x y s, xor_raises_unset x y s⟩
  case or =>
    obtain ⟨hpc, hv, hframe⟩ := fetched_setReg_effect x (a ||| b) s
    exact ⟨_, _, exec_or_of_some hx hy, hpc, hv, hframe, fun _ => BitVec.getLsbD_or⟩
  case and =>
    obtain ⟨hpc, hv, hframe⟩ := fetched_setReg_effect x (a &&& b) s
    exact ⟨_, _, exec_and_of_some hx hy, hpc, hv, hframe, fun _ => BitVec.getLsbD_and⟩
  case xor =>
    obtain ⟨hpc, hv, hframe⟩ := fetched_setReg_effect x (a ^^^ b) s
    exact ⟨_, _, exec_xor_of_some hx hy, hpc, hv, hframe, fun _ => BitVec.getLsbD_xor⟩

/-- Settles O40: the sum mod 256 and then the carry. -/
theorem addRegisterCarry : Obligations.AddRegisterCarry := by
  intro x y s
  obtain ⟨hnone, hnone'⟩ := addReg_raises_unset x y s
  refine ⟨Laws.ClassifyEncode.addReg x y rfl, hnone, hnone', fun a b hx hy => ?_⟩
  obtain ⟨hpc, hv, hf, hframe⟩ := fetched_writeWithFlag_effect x (addByte a b) (carryFlag a b) s
  exact ⟨_, _, exec_addReg_of_some hx hy, hpc, addByte_toNat a b, hv,
    hf.trans (congrArg some (carryFlag_eq a b)), hframe⟩

/-- Settles O41: the difference mod 256 and then the not-borrow; SUBN is SUB with the operands exchanged. -/
theorem subtractsNotBorrow : Obligations.SubtractsNotBorrow := by
  intro x y s
  refine ⟨Laws.ClassifyEncode.sub x y rfl, Laws.ClassifyEncode.subn x y rfl, ?unset, fun a b hx hy => ⟨?sub, ?subn⟩⟩
  case unset =>
    simp only [List.forall_mem_cons, List.not_mem_nil, false_imp_iff, implies_true, and_true]
    exact ⟨sub_raises_unset x y s, subn_raises_unset x y s⟩
  case sub =>
    obtain ⟨hpc, hv, hf, hframe⟩ := fetched_writeWithFlag_effect x (subByte a b) (notBorrowFlag a b) s
    exact ⟨_, _, exec_sub_of_some hx hy, hpc, subByte_toNat a b, hv,
      hf.trans (congrArg some (notBorrowFlag_eq a b)), hframe⟩
  case subn =>
    obtain ⟨hpc, hv, hf, hframe⟩ := fetched_writeWithFlag_effect x (subByte b a) (notBorrowFlag b a) s
    exact ⟨_, _, exec_subn_of_some hx hy, hpc, subByte_toNat b a, hv,
      hf.trans (congrArg some (notBorrowFlag_eq b a)), hframe⟩

/-- Settles O42: both shift what Vx holds, and the flag is the bit they move out. -/
theorem shiftsInPlace : Obligations.ShiftsInPlace := by
  intro x y s
  refine ⟨Laws.ClassifyEncode.shr x y rfl, Laws.ClassifyEncode.shl x y rfl,
    fun hx => ⟨shr_raises_of_none y hx, shl_raises_of_none y hx⟩, fun a hx => ⟨?shr, ?shl⟩⟩
  case shr =>
    obtain ⟨hpc, hv, hf, hframe⟩ := fetched_writeWithFlag_effect x (shiftRightByte a) (shiftRightFlag a) s
    exact ⟨_, _, exec_shr_of_some y hx, hpc, shiftRightByte_toNat a, hv, hf, hframe⟩
  case shl =>
    obtain ⟨hpc, hv, hf, hframe⟩ := fetched_writeWithFlag_effect x (shiftLeftByte a) (shiftLeftFlag a) s
    exact ⟨_, _, exec_shl_of_some y hx, hpc, shiftLeftByte_toNat a, hv, hf, hframe⟩

/-- Settles O43: the masked draw is written, and the mask of ones leaves the draw. -/
theorem randomIsMaskedDraw : Obligations.RandomIsMaskedDraw := by
  intro x nn s
  obtain ⟨hpc, hv, hframe⟩ := fetched_setReg_effect x (s.drawRnd &&& nn) s
  refine ⟨Laws.ClassifyEncode.rnd x nn rfl, ⟨_, _, exec_rnd x nn s, hpc, hv, hframe, fun _ => BitVec.getLsbD_and, ?_⟩,
    drawRnd_any s⟩
  rintro rfl
  exact BitVec.and_allOnes

/-- Settles O17: each of the six writes VF last, with a flag that is a condition's. -/
theorem flagWritersLeaveZeroOrOne : Obligations.FlagWritersLeaveZeroOrOne := by
  intro s t x y n i hi _ h ht
  have hraise : ¬ ∃ c, t = s.raise c := by
    rintro ⟨c, rfl⟩
    cases ht
  simp only [List.mem_cons, List.not_mem_nil, or_false] at hi
  obtain rfl | rfl | rfl | rfl | rfl | rfl := hi
  · obtain ⟨a, b, -, -, rfl⟩ := (execAddReg_cases x y h).resolve_left hraise
    exact writeWithFlag_zero_or_one x _ _ _
  · obtain ⟨a, b, -, -, rfl⟩ := (execSub_cases x y h).resolve_left hraise
    exact writeWithFlag_zero_or_one x _ _ _
  · obtain ⟨a, b, -, -, rfl⟩ := (execSubn_cases x y h).resolve_left hraise
    exact writeWithFlag_zero_or_one x _ _ _
  · obtain ⟨a, -, rfl⟩ := (execShr_cases x y h).resolve_left hraise
    exact writeWithFlag_zero_or_one x _ _ _
  · obtain ⟨a, -, rfl⟩ := (execShl_cases x y h).resolve_left hraise
    exact writeWithFlag_zero_or_one x _ _ _
  · obtain ⟨ox, oy, out, -, -, -, rfl⟩ := (execDrw_cases x y n h).resolve_left hraise
    have hflag := State.setReg_v_self (s.fetched.setDisplay out.display) 15 (collisionFlag out.hit)
    exact (some_flagOf_zero_or_one out.hit).imp hflag.trans hflag.trans

end Sys2Proof.Machine
end

/-! ## Index, memory and keys: ADD I, LD F, LD B, the block transfers, SKP and SKNP (O16, O45, O46, O48, O49, O50, O55) -/

section
/-! SUPPORT. Bodies that first read an operand or I, a write of memory in the frame, and what the operands do when a
register is unset. -/

namespace Sys2Proof.Machine

variable {s t : State} {x : Reg}

/-- A body whose first operand raises raises that error. -/
theorem execute_bind_error {α : Type} {operand : State → Exec α} {c : Cause} (body : State → α → Exec State)
    (h : operand s.fetched = .error c) : execute s (fun t => operand t >>= body t) = .next (s.raise c) :=
  execute_error (by rw [h, error_bind])

/-- With its first operand accepted, the rest of the body runs with its value. -/
theorem execute_bind_ok {α : Type} {operand : State → Exec α} {a : α} (body : State → α → Exec State)
    (h : operand s.fetched = .ok a) : execute s (fun t => operand t >>= body t) = execute s (fun t => body t a) := by
  simp only [execute, h, ok_bind]

theorem execute_index_of_some {i : Word} (body : State → Word → Exec State) (h : s.index = some i) :
    execute s (fun t => t.readIndex >>= body t) = execute s (fun t => body t i) :=
  execute_bind_ok body (State.readIndex_of_some (s := s.fetched) h)

theorem execute_index_of_none (body : State → Word → Exec State) (h : s.index = none) :
    execute s (fun t => t.readIndex >>= body t) = .next (s.raise (.uninitializedRead .index)) :=
  execute_bind_error body (State.readIndex_of_none (s := s.fetched) h)

/-- A write of a byte stays in every footprint that lists its address. -/
theorem Frame.setByte {w : Footprint} {a : Nat} (h : Frame w s t) (ha : a ∈ w.bytes) (hlt : a < memSize) (b : Byte) :
    Frame w s (t.setByte a b) := by
  obtain ⟨hv, hindex, hstack, hdt, hst, hbytes, rest⟩ := h
  refine ⟨hv, hindex, hstack, hdt, hst, fun a' ha' => ?_, rest⟩
  rw [State.byteAt_setByte b hlt, if_neg (ne_of_mem_of_not_mem ha ha').symm, hbytes a' ha']

theorem digitOperand_of_none (h : t.v[x] = none) : digitOperand x t = .error (.uninitializedRead (.reg x)) := by
  rw [digitOperand, State.reg_of_none h, error_bind]

theorem keyOperand_of_none (h : t.v[x] = none) : keyOperand x t = .error (.uninitializedRead (.reg x)) := by
  rw [keyOperand, State.reg_of_none h, error_bind]

/-- V0 is the first of the registers V0 to Vx. -/
theorem regsUpTo_eq_cons (x : Reg) : ∃ post, regsUpTo x = 0 :: post := regsUpTo_split (Fin.zero_le x)

theorem storeRegs_of_index_none (h : t.index = none) : storeRegs (regsUpTo x) t = .error (.uninitializedRead .index) := by
  obtain ⟨post, hpost⟩ := regsUpTo_eq_cons x
  rw [hpost, storeRegs, State.readIndex_of_none h, error_bind]

theorem loadRegs_of_index_none (h : t.index = none) : loadRegs (regsUpTo x) t = .error (.uninitializedRead .index) := by
  obtain ⟨post, hpost⟩ := regsUpTo_eq_cons x
  rw [hpost, loadRegs, State.readIndex_of_none h, error_bind]

/-- The first register that the store fails on decides its error: those below it are stored. -/
theorem storeRegs_of_first_error {i : Word} {k : Reg} {c : Cause} (hk : k ≤ x) (hi : t.index = some i)
    (hlow : ∀ j : Reg, j < k → t.v[j] ≠ none ∧ effAddr i j.val < memSize)
    (herr : ∀ (u : State) (post : List Reg), u = { t with mem := u.mem } → storeRegs (k :: post) u = .error c) :
    storeRegs (regsUpTo x) t = .error c := by
  obtain ⟨post, hpost⟩ := regsUpTo_split hk
  obtain ⟨u, hu, -⟩ := storeRegs_ok (sixteen.filter (· < k)) t i hi (fun j hj => (hlow j (mem_below.mp hj)).1)
    (fun j hj => (hlow j (mem_below.mp hj)).2)
  rw [hpost, storeRegs_append, hu, ok_bind, herr u post (storeRegs_inv hu).1]

/-- The first address that the load fails on decides its error: the registers below it are loaded. -/
theorem loadRegs_of_first_error {i : Word} {k : Reg} {c : Cause} (hk : k ≤ x) (hi : t.index = some i)
    (hlow : ∀ j : Reg, j < k → t.byteAt (effAddr i j.val) ≠ none) (herr : t.readByte (effAddr i k.val) = .error c) :
    loadRegs (regsUpTo x) t = .error c := by
  obtain ⟨post, hpost⟩ := regsUpTo_split hk
  obtain ⟨u, hu, -⟩ := loadRegs_ok (sixteen.filter (· < k)) t i hi fun j hj => hlow j (mem_below.mp hj)
  have heq := (loadRegs_inv hu).1
  have hi' : u.index = some i := (congrArg State.index heq).trans hi
  have hread : u.readByte (effAddr i k.val) = t.readByte (effAddr i k.val) :=
    State.readByte_congr (State.byteAt_congr (congrArg State.mem heq) (congrArg State.params heq) _)
  rw [hpost, loadRegs_append, hu, ok_bind, loadRegs, State.readIndex_of_some hi', ok_bind, hread, herr, error_bind]

/-- The three writes of LD B. -/
def storeBcd (v : Byte) (i : Word) (t : State) : Exec State := do
  let t1 ← t.writeByte (effAddr i 0) (bcdHundreds v)
  let t2 ← t1.writeByte (effAddr i 1) (bcdTens v)
  t2.writeByte (effAddr i 2) (bcdOnes v)

/-- The state after the three writes. -/
def withBcd (v : Byte) (i : Word) (t : State) : State :=
  ((t.setByte (effAddr i 0) (bcdHundreds v)).setByte (effAddr i 1) (bcdTens v)).setByte (effAddr i 2) (bcdOnes v)

theorem bcd_address_lt {i : Word} (h : i.toNat + 2 ≤ 0xFFF) : ∀ k ≤ 2, effAddr i k < memSize := by
  intro k hk
  unfold effAddr memSize
  omega

theorem storeBcd_of_le (v : Byte) {i : Word} (t : State) (h : i.toNat + 2 ≤ 0xFFF) :
    storeBcd v i t = .ok (withBcd v i t) := by
  have hlt := bcd_address_lt h
  rw [storeBcd, State.writeByte_of_lt _ (hlt 0 (by decide)), ok_bind, State.writeByte_of_lt _ (hlt 1 (by decide)), ok_bind,
    State.writeByte_of_lt _ (hlt 2 le_rfl), withBcd]

/-- The first of the three addresses past the end is the larger of I and 4096. -/
theorem storeBcd_of_gt (v : Byte) {i : Word} (t : State) (h : 0xFFF < i.toNat + 2) :
    storeBcd v i t = .error (.memoryBoundsFault (max i.toNat 4096)) := by
  unfold storeBcd
  by_cases h0 : effAddr i 0 < memSize
  · rw [State.writeByte_of_lt _ h0, ok_bind]
    unfold effAddr memSize at h0
    by_cases h1 : effAddr i 1 < memSize
    · rw [State.writeByte_of_lt _ h1, ok_bind, State.writeByte_of_ge _ (by unfold effAddr memSize; omega)]
      unfold effAddr memSize at h1
      rw [effAddr, show i.toNat + 2 = max i.toNat 4096 by omega]
    · rw [State.writeByte_of_ge _ (by omega), error_bind]
      unfold effAddr memSize at h1
      rw [effAddr, show i.toNat + 1 = max i.toNat 4096 by omega]
  · rw [State.writeByte_of_ge _ (by omega), error_bind]
    unfold effAddr memSize at h0
    rw [effAddr, show i.toNat + 0 = max i.toNat 4096 by omega]

/-- After the three writes the three digits stand at I, I + 1 and I + 2. -/
theorem withBcd_byteAt (v : Byte) {i : Word} (t : State) (h : i.toNat + 2 ≤ 0xFFF) :
    (withBcd v i t).byteAt (effAddr i 0) = some (bcdHundreds v) ∧
    (withBcd v i t).byteAt (effAddr i 1) = some (bcdTens v) ∧
    (withBcd v i t).byteAt (effAddr i 2) = some (bcdOnes v) := by
  have hlt := bcd_address_lt h
  unfold withBcd
  simp only [State.byteAt_setByte _ (hlt 0 (by decide)), State.byteAt_setByte _ (hlt 1 (by decide)),
    State.byteAt_setByte _ (hlt 2 le_rfl)]
  simp [effAddr]

theorem withBcd_frame (v : Byte) {i : Word} (h : i.toNat + 2 ≤ 0xFFF) {w : Footprint} (hf : Frame w s t)
    (hw : w.bytes = [effAddr i 0, effAddr i 1, effAddr i 2]) : Frame w s (withBcd v i t) := by
  have hlt := bcd_address_lt h
  exact ((hf.setByte (by simp [hw]) (hlt 0 (by decide)) _).setByte (by simp [hw]) (hlt 1 (by decide)) _).setByte
    (by simp [hw]) (hlt 2 le_rfl) _

end Sys2Proof.Machine
end

section
/-! SUPPORT. What each of the instructions answers, one equation per outcome. -/

namespace Sys2Proof.Machine

variable {s : State} {x : Reg} {a : Byte} {i : Word}

theorem addIX_raises_of_index_none (x : Reg) (h : s.index = none) : Raises (.addIX x) s (.uninitializedRead .index) := by
  rw [Raises, exec, execAddIX]
  exact execute_index_of_none _ h

theorem addIX_raises_of_none (hi : s.index = some i) (hx : s.v[x] = none) :
    Raises (.addIX x) s (.uninitializedRead (.reg x)) := by
  rw [Raises, exec, execAddIX, execute_index_of_some _ hi]
  exact execute_reg_of_none _ hx

theorem addIX_raises_of_overflow (hi : s.index = some i) (hx : s.v[x] = some a) (h : 0xFFFF < i.toNat + a.toNat) :
    Raises (.addIX x) s (.indexOverflow (i.toNat + a.toNat)) := by
  rw [Raises, exec, execAddIX, execute_index_of_some _ hi, execute_reg_of_some _ hx]
  exact execute_error (if_pos h)

theorem exec_addIX_of_le (hi : s.index = some i) (hx : s.v[x] = some a) (h : i.toNat + a.toNat ≤ 0xFFFF) :
    exec (.addIX x) s = .next (s.fetched.setIndex (BitVec.ofNat 16 (i.toNat + a.toNat))) := by
  rw [exec, execAddIX, execute_index_of_some _ hi, execute_reg_of_some _ hx]
  exact execute_ok (if_neg (Nat.not_lt.mpr h))

theorem ldFX_raises_of_none (hx : s.v[x] = none) : Raises (.ldFX x) s (.uninitializedRead (.reg x)) := by
  rw [Raises, exec, execLdFX]
  exact execute_bind_error _ (digitOperand_of_none (t := s.fetched) hx)

theorem ldFX_raises_of_gt (hx : s.v[x] = some a) (h : 15 < a.toNat) : Raises (.ldFX x) s (.invalidDigit a) := by
  rw [Raises, exec, execLdFX]
  exact execute_bind_error _ (digitOperand_of_gt (t := s.fetched) hx h)

theorem exec_ldFX_of_le (hx : s.v[x] = some a) (h : a.toNat ≤ 15) :
    exec (.ldFX x) s = .next (s.fetched.setIndex (glyphAddr s.params.font a.toNat)) := by
  rw [exec, execLdFX, execute_bind_ok _ (digitOperand_of_le (t := s.fetched) hx h)]
  exact execute_ok rfl

theorem ldBX_raises_of_none (hx : s.v[x] = none) : Raises (.ldBX x) s (.uninitializedRead (.reg x)) := by
  rw [Raises, exec, execLdBX]
  exact execute_reg_of_none _ hx

theorem ldBX_raises_of_index_none (hx : s.v[x] = some a) (hi : s.index = none) :
    Raises (.ldBX x) s (.uninitializedRead .index) := by
  rw [Raises, exec, execLdBX, execute_reg_of_some _ hx]
  exact execute_index_of_none _ hi

/-- With Vx and I set, LD B is its three writes. -/
theorem exec_ldBX_of_some (hx : s.v[x] = some a) (hi : s.index = some i) :
    exec (.ldBX x) s = execute s (storeBcd a i) := by
  rw [exec, execLdBX, execute_reg_of_some _ hx, execute_index_of_some _ hi]
  rfl

theorem ldMemX_raises {c : Cause} (h : storeRegs (regsUpTo x) s.fetched = .error c) : Raises (.ldMemX x) s c := by
  rw [Raises, exec, execLdMemX]
  exact execute_error h

theorem exec_ldMemX_of_ok {t : State} (h : storeRegs (regsUpTo x) s.fetched = .ok t) : exec (.ldMemX x) s = .next t := by
  rw [exec, execLdMemX]
  exact execute_ok h

theorem ldXMem_raises {c : Cause} (h : loadRegs (regsUpTo x) s.fetched = .error c) : Raises (.ldXMem x) s c := by
  rw [Raises, exec, execLdXMem]
  exact execute_error h

theorem exec_ldXMem_of_ok {t : State} (h : loadRegs (regsUpTo x) s.fetched = .ok t) : exec (.ldXMem x) s = .next t := by
  rw [exec, execLdXMem]
  exact execute_ok h

/-- LD [I], Vx raises for the first register that is unset, before the bounds of its address are checked, -/
theorem ldMemX_raises_of_unset {k : Reg} (hk : k ≤ x) (hi : s.index = some i)
    (hlow : ∀ j : Reg, j < k → s.v[j] ≠ none ∧ effAddr i j.val < memSize) (h : s.v[k] = none) :
    Raises (.ldMemX x) s (.uninitializedRead (.reg k)) := by
  refine ldMemX_raises (storeRegs_of_first_error (t := s.fetched) hk hi hlow fun u post hu => ?_)
  have hi' : u.index = some i := (congrArg State.index hu).trans hi
  have hv : u.v = s.fetched.v := by rw [hu]
  rw [storeRegs, State.readIndex_of_some hi', ok_bind, State.reg_of_none (by rw [hv]; exact h), error_bind]

/-- and then for the first address past the end. -/
theorem ldMemX_raises_of_ge {k : Reg} (hk : k ≤ x) (hi : s.index = some i)
    (hlow : ∀ j : Reg, j < k → s.v[j] ≠ none ∧ effAddr i j.val < memSize) (hset : s.v[k] ≠ none)
    (h : memSize ≤ effAddr i k.val) : Raises (.ldMemX x) s (.memoryBoundsFault (effAddr i k.val)) := by
  obtain ⟨b, hb⟩ := Option.ne_none_iff_exists'.mp hset
  refine ldMemX_raises (storeRegs_of_first_error (t := s.fetched) hk hi hlow fun u post hu => ?_)
  have hi' : u.index = some i := (congrArg State.index hu).trans hi
  have hv : u.v = s.fetched.v := by rw [hu]
  rw [storeRegs, State.readIndex_of_some hi', ok_bind, State.reg_of_some (by rw [hv]; exact hb), ok_bind,
    State.writeByte_of_ge _ h, error_bind]

theorem skp_raises {c : Cause} (h : keyOperand x s.fetched = .error c) : Raises (.skp x) s c := by
  rw [Raises, exec, execSkp]
  exact execute_bind_error _ h

theorem sknp_raises {c : Cause} (h : keyOperand x s.fetched = .error c) : Raises (.sknp x) s c := by
  rw [Raises, exec, execSknp]
  exact execute_bind_error _ h

theorem exec_skp_of_ok {down : Bool} (h : keyOperand x s.fetched = .ok down) :
    exec (.skp x) s = .next (s.fetched.skipIf down) := by
  rw [exec, execSkp, execute_bind_ok _ h]
  exact execute_ok rfl

theorem exec_sknp_of_ok {down : Bool} (h : keyOperand x s.fetched = .ok down) :
    exec (.sknp x) s = .next (s.fetched.skipIf (!down)) := by
  rw [exec, execSknp, execute_bind_ok _ h]
  exact execute_ok rfl

end Sys2Proof.Machine
end

section
/-! The obligations of the family. -/

namespace Sys2Proof.Machine

/-- Settles O45, by the two reads in their order and whether the exact sum fits. -/
theorem addIndexExactOrOverflow : Obligations.AddIndexExactOrOverflow := by
  intro x s
  refine ⟨Laws.ClassifyEncode.addIX x rfl, addIX_raises_of_index_none x, fun i hi hx => addIX_raises_of_none hi hx,
    fun i a hi hx => ⟨addIX_raises_of_overflow hi hx, fun hle => ?_⟩⟩
  exact ⟨_, _, exec_addIX_of_le hi hx hle, rfl, rfl, Nat.mod_eq_of_lt (by omega), (Frame.fetched _ s).setIndex rfl _⟩

/-- Settles O46: the digit is at most 15, and then the glyph's address is exact. -/
theorem digitSpriteAddress : Obligations.DigitSpriteAddress := by
  intro x s
  refine ⟨Laws.ClassifyEncode.ldFX x rfl, ldFX_raises_of_none, fun d hx => ⟨ldFX_raises_of_gt hx, fun hle => ?_⟩⟩
  exact ⟨_, _, exec_ldFX_of_le hx hle, rfl, rfl, glyphAddr_toNat s.params.font d.toNat hle,
    (Frame.fetched _ s).setIndex rfl _⟩

/-- Settles O48: the reads of Vx and I, then the three writes, of which all or none are kept. -/
theorem bcdStoresThreeDigits : Obligations.BcdStoresThreeDigits := by
  intro x s
  refine ⟨Laws.ClassifyEncode.ldBX x rfl, ldBX_raises_of_none, fun hx hi => ?_,
    fun v i hx hi => ⟨fun hgt => ?_, fun hle => ?_⟩⟩
  · obtain ⟨a, ha⟩ := Option.ne_none_iff_exists'.mp hx
    exact ldBX_raises_of_index_none ha hi
  · rw [Raises, exec_ldBX_of_some hx hi]
    exact execute_error (storeBcd_of_gt v s.fetched hgt)
  · obtain ⟨hh, hm, hl⟩ := withBcd_byteAt v s.fetched hle
    exact ⟨_, _, _, _, (exec_ldBX_of_some hx hi).trans (execute_ok (storeBcd_of_le v s.fetched hle)), rfl, hh, hm, hl,
      bcdHundreds_toNat v, bcdTens_toNat v, bcdOnes_toNat v, withBcd_frame v hle (Frame.fetched _ s) rfl⟩

/-- Settles O49: the registers below the first that fails are stored, and its error then discards the cycle. -/
theorem storeRegisters : Obligations.StoreRegisters := by
  intro x s
  refine ⟨Laws.ClassifyEncode.ldMemX x rfl, fun hi => ldMemX_raises (storeRegs_of_index_none (t := s.fetched) hi),
    fun i hi => ⟨fun k hk hlow => ⟨ldMemX_raises_of_unset hk hi hlow, ldMemX_raises_of_ge hk hi hlow⟩, fun hset hlt => ?_⟩⟩
  have haddr : ∀ k ∈ regsUpTo x, effAddr i k.val < memSize := fun k hk =>
    (effAddr_le_effAddr i (Fin.val_le_of_le (mem_regsUpTo.mp hk))).trans_lt hlt
  obtain ⟨t, ht, hin, hout⟩ := storeRegs_ok (regsUpTo x) s.fetched i hi (fun k hk => hset k (mem_regsUpTo.mp hk)) haddr
  have hframe : ∀ a, a ∉ (List.range (x.val + 1)).map (effAddr i) → t.byteAt a = s.byteAt a := fun a ha =>
    hout a fun k hk e => ha (List.mem_map.mpr
      ⟨k.val, List.mem_range.mpr (Nat.lt_succ_of_le (Fin.val_le_of_le (mem_regsUpTo.mp hk))), e.symm⟩)
  refine ⟨t, exec_ldMemX_of_ok ht, ?_, fun k hk => hin k (mem_regsUpTo.mpr hk), ?_⟩
  · rw [(storeRegs_inv ht).1]; rfl
  · obtain ⟨m, rfl⟩ : ∃ m, t = { s.fetched with mem := m } := ⟨_, (storeRegs_inv ht).1⟩
    exact ⟨fun _ _ => rfl, fun _ => rfl, fun _ => ⟨rfl, rfl⟩, fun _ => rfl, fun _ => rfl, hframe, fun _ => rfl,
      rfl, rfl, rfl, rfl, rfl, rfl⟩

/-- Settles O50: the registers below the first address that fails are loaded, and its error then discards the cycle. -/
theorem loadRegisters : Obligations.LoadRegisters := by
  intro x s
  refine ⟨Laws.ClassifyEncode.ldXMem x rfl, fun hi => ldXMem_raises (loadRegs_of_index_none (t := s.fetched) hi),
    fun i hi => ⟨fun k hk hlow => ⟨fun hge => ?_, fun hlt hunset => ?_⟩, fun hset => ?_⟩⟩
  · exact ldXMem_raises (loadRegs_of_first_error (t := s.fetched) hk hi hlow (State.readByte_of_ge hge))
  · exact ldXMem_raises (loadRegs_of_first_error (t := s.fetched) hk hi hlow (State.readByte_of_none hlt hunset))
  · obtain ⟨t, ht, hin⟩ := loadRegs_ok (regsUpTo x) s.fetched i hi fun k hk => hset k (mem_regsUpTo.mp hk)
    obtain ⟨heq, hregs⟩ := loadRegs_inv ht
    refine ⟨t, exec_ldXMem_of_ok ht, ?_, fun k hk => hin k (mem_regsUpTo.mpr hk), ?_⟩
    · rw [heq]; rfl
    · obtain ⟨v, rfl⟩ : ∃ v, t = { s.fetched with v := v } := ⟨_, heq⟩
      exact ⟨hregs, fun _ => rfl, fun _ => ⟨rfl, rfl⟩, fun _ => rfl, fun _ => rfl, fun _ _ => rfl, fun _ => rfl,
        rfl, rfl, rfl, rfl, rfl, rfl⟩

/-- Settles O55: both skips read the key operand, and differ in their condition alone. -/
theorem skipsOnKey : Obligations.SkipsOnKey := by
  intro x s
  refine ⟨Laws.ClassifyEncode.skp x rfl, Laws.ClassifyEncode.sknp x rfl, ?errors, fun a k hx hk => ⟨?down, ?up⟩⟩
  case errors =>
    simp only [List.forall_mem_cons, List.not_mem_nil, false_imp_iff, implies_true, and_true]
    exact ⟨⟨fun hx => skp_raises (keyOperand_of_none (t := s.fetched) hx),
        fun a hx hgt => skp_raises (keyOperand_of_gt (t := s.fetched) hx hgt)⟩,
      fun hx => sknp_raises (keyOperand_of_none (t := s.fetched) hx),
      fun a hx hgt => sknp_raises (keyOperand_of_gt (t := s.fetched) hx hgt)⟩
  case down =>
    exact ⟨_, exec_skp_of_ok (keyOperand_of_key (t := s.fetched) hx hk), State.fetched_skipIf_pc s _,
      (Frame.fetched _ s).skipIf _⟩
  case up =>
    refine ⟨_, exec_sknp_of_ok (keyOperand_of_key (t := s.fetched) hx hk), ?_, (Frame.fetched _ s).skipIf _⟩
    rw [State.fetched_skipIf_pc]
    simp

/-- Settles O16: the first operand each form reads raises. -/
theorem unsetReadRaises : Obligations.UnsetReadRaises := by
  intro s x y nn n nnn
  refine ⟨fun hx => ?_, jpV0_raises_of_none nnn, fun i hi hv => ?_, fun i hi hx => addIX_raises_of_none hi hx, fun hi => ?_,
    fun a hx hi => ldBX_raises_of_index_none hx hi⟩
  · simp only [List.forall_mem_cons, List.not_mem_nil, false_imp_iff, implies_true, and_true]
    exact ⟨seImm_raises_of_none nn hx, sneImm_raises_of_none nn hx, (seReg_raises_unset x y s).1 hx,
      (sneReg_raises_unset x y s).1 hx, addImm_raises_of_none nn hx, ldReg_raises_of_none y hx,
      (or_raises_unset x y s).1 hx, (and_raises_unset x y s).1 hx, (xor_raises_unset x y s).1 hx,
      (addReg_raises_unset x y s).1 hx, (sub_raises_unset x y s).1 hx, shr_raises_of_none y hx,
      (subn_raises_unset x y s).1 hx, shl_raises_of_none y hx, (drw_raises_unset x y s n).1 hx,
      skp_raises (keyOperand_of_none (t := s.fetched) hx), sknp_raises (keyOperand_of_none (t := s.fetched) hx),
      ldDtX_raises_of_none hx, ldStX_raises_of_none hx, ldFX_raises_of_none hx, ldBX_raises_of_none hx⟩
  · exact ldMemX_raises_of_unset (Fin.zero_le x) hi (fun j hj => absurd hj (Fin.not_lt_zero j)) hv
  · simp only [List.forall_mem_cons, List.not_mem_nil, false_imp_iff, implies_true, and_true]
    exact ⟨addIX_raises_of_index_none x hi, ldMemX_raises (storeRegs_of_index_none (t := s.fetched) hi),
      ldXMem_raises (loadRegs_of_index_none (t := s.fetched) hi)⟩

end Sys2Proof.Machine
end

/-! ## Display: DRW (O52, O53, O54) -/

section
/-! SUPPORT. The rows DRW reads, the composition it draws, and the pixels and the collision of that composition. -/

namespace Sys2Proof.Machine

variable {s t : State} {x y : Reg} {n : Nibble} {ox oy : Byte} {i : Word} {rows : Nat → Byte}

/-- The bytes of the sprite's rows, with I where there are rows to read (R202). -/
def RowsAt (s : State) (n : Nibble) (i : Word) (rows : Nat → Byte) : Prop :=
  (0 < n.toNat → s.index = some i) ∧ ∀ k : Nat, k < n.toNat → s.byteAt (effAddr i k) = some (rows k)

/-- The composition of a sprite of n rows onto the display. -/
def drawn (ox oy : Byte) (n : Nibble) (rows : Nat → Byte) (d : Display) : Composite :=
  composeRows ox oy rows (List.range n.toNat) ⟨d, false⟩

/-- The state DRW leaves when it composes `out`. -/
def withDrawn (s : State) (out : Composite) : State := (s.fetched.setDisplay out.display).setFlag (collisionFlag out.hit)

theorem drawRows_of_rowsAt (h : RowsAt s n i rows) :
    drawRows ox oy s.fetched (List.range n.toNat) ⟨s.display, false⟩ = .ok (drawn ox oy n rows s.display) := by
  obtain ⟨hi, hb⟩ := h
  refine drawRows_ok ox oy s.fetched i rows _ _ (fun hne => hi ?_) fun k hk => hb k (List.mem_range.mp hk)
  exact Nat.pos_of_ne_zero fun h0 => hne (by rw [h0, List.range_zero])

theorem State.byteAt_eq_some_getD {a : Nat} (h : s.byteAt a ≠ none) : s.byteAt a = some ((s.byteAt a).getD 0) := by
  obtain ⟨b, hb⟩ := Option.ne_none_iff_exists'.mp h
  rw [hb, Option.getD_some]

/-- Rows that were drawn were read. -/
theorem rowsAt_of_drawRows {acc out : Composite}
    (h : drawRows ox oy s.fetched (List.range n.toNat) acc = .ok out) : ∃ i rows, RowsAt s n i rows := by
  by_cases hn : 0 < n.toNat
  · cases hi : s.index with
    | none =>
      obtain ⟨m, hm⟩ := Nat.exists_eq_succ_of_ne_zero hn.ne'
      rw [hm, List.range_succ_eq_map, drawRows, State.readIndex_of_none (s := s.fetched) hi, error_bind] at h
      cases h
    | some i =>
      have hset := drawRows_inv (t := s.fetched) hi h
      exact ⟨i, fun k => (s.byteAt (effAddr i k)).getD 0, fun _ => hi,
        fun k hk => State.byteAt_eq_some_getD (hset k (List.mem_range.mpr hk))⟩
  · exact ⟨0, fun _ => 0, fun h0 => absurd h0 hn, fun k hk => absurd (Nat.zero_lt_of_lt hk) hn⟩

/-- A lit pixel of the rows 0 to n - 1 is one of `SpriteLit` (R203, R204). -/
theorem rowsLit_iff_spriteLit (ox oy : Byte) (rows : Nat → Byte) (n : Nat) (c : Fin 64) (r : Fin 32) :
    RowsLit ox oy rows (List.range n) c r ↔ SpriteLit ox oy n rows c r := by
  have hcols : ∀ j, j ∈ ([0, 1, 2, 3, 4, 5, 6, 7] : List Nat) ↔ j < 8 := by simp; omega
  simp only [RowsLit, BitsLit, SpriteLit, spriteBit, spriteCol, spriteRow, List.mem_range, hcols, Fin.ext_iff]
  constructor
  · rintro ⟨k, hk, ⟨j, hj, hbit, hc⟩, hr⟩
    exact ⟨k, hk, j, hj, hbit, hc, hr⟩
  · rintro ⟨k, hk, j, hj, hbit, hc, hr⟩
    exact ⟨k, hk, ⟨j, hj, hbit, hc⟩, hr⟩

/-- Drawing inverts the lit pixels and no other, and hits when one of them was true. -/
theorem drawn_spec (ox oy : Byte) (n : Nibble) (rows : Nat → Byte) (d : Display) :
    (∀ c r, (SpriteLit ox oy n.toNat rows c r → pix (drawn ox oy n rows d).display c r = !pix d c r) ∧
      (¬ SpriteLit ox oy n.toNat rows c r → pix (drawn ox oy n rows d).display c r = pix d c r)) ∧
    ((drawn ox oy n rows d).hit = true ↔ ∃ c r, SpriteLit ox oy n.toNat rows c r ∧ pix d c r = true) := by
  have h := composeRows_spec ox oy rows (List.range n.toNat) List.nodup_range
    (fun r hr => (List.mem_range.mp hr).trans n.isLt) ⟨d, false⟩
  simp only [rowsLit_iff_spriteLit, Bool.false_eq_true, false_or] at h
  exact h

/-- A pixel that was cleared was lit and true, so the drawing hit. -/
theorem drawn_hit_of_cleared {d : Display} {c : Fin 64} {r : Fin 32} (h : pix d c r = true)
    (h' : pix (drawn ox oy n rows d).display c r = false) : (drawn ox oy n rows d).hit = true := by
  obtain ⟨hpix, hhit⟩ := drawn_spec ox oy n rows d
  refine hhit.mpr ⟨c, r, ?_, h⟩
  by_contra hlit
  rw [(hpix c r).2 hlit, h] at h'
  cases h'

/-- When no true pixel was cleared the drawing did not hit. -/
theorem drawn_not_hit {d : Display}
    (h : ∀ (c : Fin 64) (r : Fin 32), pix d c r = true → pix (drawn ox oy n rows d).display c r = true) :
    (drawn ox oy n rows d).hit = false := by
  obtain ⟨hpix, hhit⟩ := drawn_spec ox oy n rows d
  rw [Bool.eq_false_iff]
  intro hh
  obtain ⟨c, r, hlit, htrue⟩ := hhit.mp hh
  have := h c r htrue
  rw [(hpix c r).1 hlit, htrue] at this
  cases this

theorem drawn_twice (ox oy : Byte) (n : Nibble) (rows : Nat → Byte) (d : Display) :
    (drawn ox oy n rows (drawn ox oy n rows d).display).display = d := by
  obtain ⟨hpix, -⟩ := drawn_spec ox oy n rows d
  obtain ⟨hpix', -⟩ := drawn_spec ox oy n rows (drawn ox oy n rows d).display
  refine display_ext fun c r => ?_
  by_cases hlit : SpriteLit ox oy n.toNat rows c r
  · rw [(hpix' c r).1 hlit, (hpix c r).1 hlit, Bool.not_not]
  · rw [(hpix' c r).2 hlit, (hpix c r).2 hlit]

theorem withDrawn_flag (s : State) (out : Composite) : (withDrawn s out).v[(15 : Reg)] = some (collisionFlag out.hit) :=
  State.setReg_v_self _ 15 _

theorem withDrawn_v_of_ne (s : State) (out : Composite) (h : x ≠ 15) : (withDrawn s out).v[x] = s.v[x] :=
  State.setReg_v_of_ne _ _ h

theorem withDrawn_frame (s : State) (out : Composite) : Frame { regs := [15], display := true } s (withDrawn s out) :=
  ((Frame.fetched _ s).setDisplay rfl out.display).setReg (List.mem_singleton.mpr rfl) _

/-- Drawing leaves I and memory, so the rows stand. -/
theorem RowsAt.withDrawn (h : RowsAt s n i rows) (out : Composite) : RowsAt (withDrawn s out) n i rows := h

end Sys2Proof.Machine
end

section
/-! SUPPORT. What DRW answers, one equation per outcome. -/

namespace Sys2Proof.Machine

variable {s : State} {x y : Reg} {n : Nibble} {ox oy : Byte}

/-- With both origins set, DRW is the drawing of its rows. -/
theorem exec_drw_of_some (n : Nibble) (hx : s.v[x] = some ox) (hy : s.v[y] = some oy) :
    exec (.drw x y n) s = execute s (fun t =>
      drawRows ox oy t (List.range n.toNat) ⟨t.display, false⟩ >>= fun out =>
        .ok ((t.setDisplay out.display).setFlag (collisionFlag out.hit))) := by
  rw [exec, execDrw, execute_two_regs_of_some _ hx hy]

theorem exec_drw_of_rowsAt {i : Word} {rows : Nat → Byte} (hx : s.v[x] = some ox) (hy : s.v[y] = some oy)
    (h : RowsAt s n i rows) : exec (.drw x y n) s = .next (withDrawn s (drawn ox oy n rows s.display)) := by
  rw [exec_drw_of_some n hx hy]
  refine execute_ok ?_
  rw [State.fetched_display, drawRows_of_rowsAt h, ok_bind, withDrawn]

theorem drw_raises {c : Cause} (hx : s.v[x] ≠ none) (hy : s.v[y] ≠ none)
    (h : ∀ ox oy acc, drawRows ox oy s.fetched (List.range n.toNat) acc = .error c) : Raises (.drw x y n) s c := by
  obtain ⟨ox, hox⟩ := Option.ne_none_iff_exists'.mp hx
  obtain ⟨oy, hoy⟩ := Option.ne_none_iff_exists'.mp hy
  rw [Raises, exec_drw_of_some n hox hoy]
  exact execute_error (by rw [h, error_bind])

/-- The first row that cannot be read decides the error: the rows above it are drawn. -/
theorem drawRows_of_first_error {t : State} {i : Word} {m k : Nat} {c : Cause} (hi : t.index = some i) (hk : k < m)
    (hlow : ∀ j : Nat, j < k → t.byteAt (effAddr i j) ≠ none) (herr : t.readByte (effAddr i k) = .error c)
    (acc : Composite) : drawRows ox oy t (List.range m) acc = .error c := by
  obtain ⟨d, rfl⟩ : ∃ d, m = k + (d + 1) := ⟨m - k - 1, by omega⟩
  rw [List.range_add, drawRows_append,
    drawRows_ok ox oy t i (fun j => (t.byteAt (effAddr i j)).getD 0) _ acc (fun _ => hi)
      fun j hj => State.byteAt_eq_some_getD (hlow j (List.mem_range.mp hj)), ok_bind,
    List.range_succ_eq_map, List.map_cons, drawRows, State.readIndex_of_some hi, ok_bind, Nat.add_zero, herr, error_bind]

end Sys2Proof.Machine
end

section
/-! The obligations of the family. -/

namespace Sys2Proof.Machine

/-- Settles O52: the rows are composed onto the display, and the flag is whether a lit pixel was true. -/
theorem drawComposites : Obligations.DrawComposites := by
  intro x y n s ox oy i rows
  refine ⟨Laws.ClassifyEncode.drw x y n rfl, fun hx hy hi hb => ?_⟩
  obtain ⟨hpix, -⟩ := drawn_spec ox oy n rows s.display
  refine ⟨_, exec_drw_of_rowsAt hx hy ⟨hi, hb⟩, rfl, hpix, ?_, fun h => ?_, withDrawn_frame s _⟩
  · rintro ⟨c, r, htrue, hfalse⟩
    rw [withDrawn_flag, drawn_hit_of_cleared htrue hfalse]
    rfl
  · rw [withDrawn_flag, drawn_not_hit h]
    rfl

/-- Settles O53: the two registers, then I, then the rows in their order, each by its bounds and its byte. -/
theorem drawErrorsInOrder : Obligations.DrawErrorsInOrder := by
  intro x y n s
  obtain ⟨hnone, hnone'⟩ := drw_raises_unset x y s n
  refine ⟨hnone, hnone', fun hx hy hn hi => drw_raises hx hy fun ox oy acc => ?_,
    fun i k hx hy hi hk hlow => ⟨fun hge => ?_, fun hlt hunset => ?_⟩⟩
  · obtain ⟨m, hm⟩ := Nat.exists_eq_succ_of_ne_zero hn.ne'
    rw [hm, List.range_succ_eq_map, drawRows, State.readIndex_of_none (s := s.fetched) hi, error_bind]
  · exact drw_raises hx hy fun ox oy =>
      drawRows_of_first_error (t := s.fetched) hi hk hlow (State.readByte_of_ge hge)
  · exact drw_raises hx hy fun ox oy =>
      drawRows_of_first_error (t := s.fetched) hi hk hlow (State.readByte_of_none hlt hunset)

/-- Settles O54: the first draw leaves the origins, I and the rows, so the second inverts the same pixels. -/
theorem drawTwiceRestoresDisplay : Obligations.DrawTwiceRestoresDisplay := by
  intro x y n s t hx15 hy15 _ h ht
  have hraise : ¬ ∃ c, t = s.raise c := by
    rintro ⟨c, rfl⟩
    cases ht
  obtain ⟨ox, oy, out, hx, hy, hrows, -⟩ := (execDrw_cases x y n h).resolve_left hraise
  obtain ⟨i, rows, hat⟩ := rowsAt_of_drawRows hrows
  obtain rfl : withDrawn s (drawn ox oy n rows s.display) = t :=
    Host.Outcome.next.inj ((exec_drw_of_rowsAt hx hy hat).symm.trans h)
  have hback : (drawn ox oy n rows (withDrawn s (drawn ox oy n rows s.display)).display).display = s.display :=
    drawn_twice ox oy n rows s.display
  refine ⟨_, exec_drw_of_rowsAt ((withDrawn_v_of_ne s _ hx15).trans hx) ((withDrawn_v_of_ne s _ hy15).trans hy)
    (hat.withDrawn _), hback, ?_, fun hkept => ?_⟩
  · rintro ⟨c, r, hfalse, htrue⟩
    rw [withDrawn_flag, drawn_hit_of_cleared htrue ((congrArg (pix · c r) hback).trans hfalse)]
    rfl
  · rw [withDrawn_flag, drawn_not_hit fun c r hpix => (congrArg (pix · c r) hback).trans (hkept c r hpix)]
    rfl

end Sys2Proof.Machine
end

/-! ## What an instruction reads: the rows of R24, and neither the accumulator nor ST (O15, O18) -/

section
/-! SUPPORT. Two states that differ in unread parts alone, and the computations that keep them so. The two runs start in s
and s'; t and t' are where they stand. -/

namespace Sys2Proof.Machine

variable {s s' t t' : State} {rs : List Reg}

/-- The state with other registers, another accumulator and another ST: the parts an instruction may leave unread. -/
def withUnread (t : State) (v : Vector (Option Byte) 16) (acc : Rat) (st : Byte) : State :=
  { t with v := v, acc := acc, st := st }

/-- The runs from s and s' agree but for registers, accumulator and ST, and of these each is overwritten alike or keeps what
it held at the start. -/
structure Alike (s s' t t' : State) : Prop where
  others : t' = withUnread t t'.v t'.acc t'.st
  regs : ∀ r : Reg, t'.v[r] = t.v[r] ∨ (t.v[r] = s.v[r] ∧ t'.v[r] = s'.v[r])
  acc : t'.acc = s'.acc
  st : t'.st = t.st ∨ (t.st = s.st ∧ t'.st = s'.st)

/-- What `f` computes depends on no register outside `rs`, nor on the accumulator or ST. -/
def DependsOn {α : Type} (rs : List Reg) (f : State → α) : Prop :=
  ∀ (t : State) (v : Vector (Option Byte) 16) (acc : Rat) (st : Byte), (∀ r ∈ rs, v[r] = t.v[r]) →
    f (withUnread t v acc st) = f t

/-- An update keeps two runs alike. -/
def Keeps (u : State → State) : Prop := ∀ s s' t t' : State, Alike s s' t t' → Alike s s' (u t) (u t')

/-- Two computations of a cycle end alike: in states that are, or in the same error. -/
def AlikeExec (s s' : State) : Exec State → Exec State → Prop
  | .ok t, .ok t' => Alike s s' t t'
  | .error c, .error c' => c' = c
  | _, _ => False

/-- From starts that agree on the registers `rs`, the body keeps the runs alike. -/
def Insensitive (rs : List Reg) (body : State → Exec State) : Prop :=
  ∀ s s' t t' : State, (∀ r ∈ rs, s'.v[r] = s.v[r]) → Alike s s' t t' → AlikeExec s s' (body t) (body t')

theorem AlikeExec.cases {x x' : Exec State} (h : AlikeExec s s' x x') :
    (∃ t t', x = .ok t ∧ x' = .ok t' ∧ Alike s s' t t') ∨ ∃ c, x = .error c ∧ x' = .error c := by
  cases x with
  | ok t =>
    cases x' with
    | ok t' => exact .inl ⟨t, t', rfl, rfl, h⟩
    | error _ => exact h.elim
  | error c =>
    cases x' with
    | ok _ => exact h.elim
    | error _ => exact .inr ⟨c, rfl, congrArg Except.error h⟩

/-- Starts that agree but for the unread parts are alike. -/
theorem Alike.start (h : s' = withUnread s s'.v s'.acc s'.st) : Alike s s' s s' :=
  ⟨h, fun _ => .inr ⟨rfl, rfl⟩, rfl, .inr ⟨rfl, rfl⟩⟩

theorem Alike.reads (h : Alike s s' t t') (hrs : ∀ r ∈ rs, s'.v[r] = s.v[r]) : ∀ r ∈ rs, t'.v[r] = t.v[r] := by
  intro r hr
  obtain heq | ⟨ht, ht'⟩ := h.regs r
  · exact heq
  · rw [ht, ht', hrs r hr]

theorem Alike.apply {α : Type} {f : State → α} (h : Alike s s' t t') (hf : DependsOn rs f)
    (hrs : ∀ r ∈ rs, s'.v[r] = s.v[r]) : f t' = f t :=
  (congrArg f h.others).trans (hf t t'.v t'.acc t'.st (h.reads hrs))

/-! ### Updates -/

/-- An update that touches no unread part keeps runs alike. -/
theorem Keeps.of_commutes {u : State → State} (hu : ∀ t v acc st, u (withUnread t v acc st) = withUnread (u t) v acc st) :
    Keeps u := by
  intro s s' t t' h
  have hself : ∀ t : State, u t = withUnread (u t) t.v t.acc t.st := fun t => hu t t.v t.acc t.st
  have hv : ∀ t, (u t).v = t.v := fun t => by rw [hself t]; rfl
  have hacc : ∀ t, (u t).acc = t.acc := fun t => by rw [hself t]; rfl
  have hst : ∀ t, (u t).st = t.st := fun t => by rw [hself t]; rfl
  refine ⟨?_, ?_, ?_, ?_⟩
  · rw [hv, hacc, hst]
    exact (congrArg u h.others).trans (hu _ _ _ _)
  · rw [hv, hv]; exact h.regs
  · rw [hacc]; exact h.acc
  · rw [hst, hst]; exact h.st

theorem Keeps.setReg (x : Reg) (b : Byte) : Keeps (State.setReg x b) := by
  intro s s' t t' h
  refine ⟨congrArg (State.setReg x b) h.others, fun r => ?_, h.acc, h.st⟩
  by_cases hr : r = x
  · subst hr
    exact .inl (by rw [State.setReg_v_self, State.setReg_v_self])
  · rw [State.setReg_v_of_ne t b hr, State.setReg_v_of_ne t' b hr]
    exact h.regs r

theorem Keeps.setSoundTimer (b : Byte) : Keeps (State.setSoundTimer b) :=
  fun _ _ _ _ h => ⟨congrArg (State.setSoundTimer b) h.others, h.regs, h.acc, .inl rfl⟩

theorem Keeps.comp {u w : State → State} (hu : Keeps u) (hw : Keeps w) : Keeps fun t => w (u t) :=
  fun s s' t t' h => hw s s' _ _ (hu s s' t t' h)

theorem Keeps.skipIf (c : Bool) : Keeps (State.skipIf c) := by
  cases c with
  | true => exact .of_commutes fun _ _ _ _ => rfl
  | false => exact .of_commutes fun _ _ _ _ => rfl

theorem Keeps.writeWithFlag (x : Reg) (result flag : Byte) : Keeps (writeWithFlag x result flag) :=
  (Keeps.setReg x result).comp (.setReg 15 flag)

/-! ### Reads -/

/-- What is computed from no unread part depends on no register. -/
theorem DependsOn.of_other {α : Type} {f : State → α} (hf : ∀ t v acc st, f (withUnread t v acc st) = f t) :
    DependsOn rs f := fun t v acc st _ => hf t v acc st

theorem DependsOn.reg {x : Reg} (hx : x ∈ rs) : DependsOn rs (State.reg x) := by
  intro t v acc st hv
  have : (withUnread t v acc st).v[x] = t.v[x] := hv x hx
  unfold State.reg
  rw [this]

theorem DependsOn.digitOperand {x : Reg} (hx : x ∈ rs) : DependsOn rs (digitOperand x) := by
  intro t v acc st hv
  unfold Machine.digitOperand
  rw [DependsOn.reg hx t v acc st hv]

theorem DependsOn.keyOperand {x : Reg} (hx : x ∈ rs) : DependsOn rs (keyOperand x) := by
  intro t v acc st hv
  unfold Machine.keyOperand
  rw [DependsOn.reg hx t v acc st hv]
  rfl

/-! ### Bodies -/

theorem Insensitive.ok {u : State → State} (hu : Keeps u) : Insensitive rs fun t => .ok (u t) :=
  fun s s' t t' _ h => hu s s' t t' h

theorem Insensitive.error (c : Cause) : Insensitive rs fun _ => .error c := fun _ _ _ _ _ _ => rfl

theorem Insensitive.after {u : State → State} {body : State → Exec State} (hu : Keeps u) (hb : Insensitive rs body) :
    Insensitive rs fun t => body (u t) :=
  fun s s' t t' hrs h => hb s s' _ _ hrs (hu s s' t t' h)

theorem Insensitive.ite {c : Prop} [Decidable c] {body body' : State → Exec State} (hb : Insensitive rs body)
    (hb' : Insensitive rs body') : Insensitive rs fun t => if c then body t else body' t := by
  split
  · exact hb
  · exact hb'

theorem Insensitive.read {α : Type} {f : State → α} {body : α → State → Exec State} (hf : DependsOn rs f)
    (hb : ∀ a, Insensitive rs (body a)) : Insensitive rs fun t => body (f t) t := by
  intro s s' t t' hrs h
  have hread : f t' = f t := h.apply hf hrs
  show AlikeExec s s' (body (f t) t) (body (f t') t')
  rw [hread]
  exact hb (f t) s s' t t' hrs h

theorem Insensitive.bind {α : Type} {f : State → Exec α} {body : α → State → Exec State} (hf : DependsOn rs f)
    (hb : ∀ a, Insensitive rs (body a)) : Insensitive rs fun t => f t >>= fun a => body a t := by
  intro s s' t t' hrs h
  have hread : f t' = f t := h.apply hf hrs
  simp only [hread]
  cases f t with
  | ok a => exact hb a s s' t t' hrs h
  | error c => rfl

/-- One body after the other. -/
theorem Insensitive.seq {body body' : State → Exec State} (hb : Insensitive rs body) (hb' : Insensitive rs body') :
    Insensitive rs fun t => body t >>= body' := by
  intro s s' t t' hrs h
  show AlikeExec s s' (body t >>= body') (body t' >>= body')
  obtain ⟨u, u', hu, hu', halike⟩ | ⟨c, hc, hc'⟩ := (hb s s' t t' hrs h).cases
  · rw [hu, hu']
    exact hb' s s' u u' hrs halike
  · rw [hc, hc']
    rfl

theorem Insensitive.writeByte (a : Nat) (b : Byte) : Insensitive rs (State.writeByte a b) :=
  .ite (.error _) (.ok (.of_commutes fun _ _ _ _ => rfl))

/-- A store reads only the registers it stores. -/
theorem Insensitive.storeRegs {is : List Reg} (h : ∀ k ∈ is, k ∈ rs) : Insensitive rs (storeRegs is) := by
  induction is with
  | nil => exact fun _ _ _ _ _ h => h
  | cons k is ih =>
    exact .bind (.of_other fun _ _ _ _ => rfl) fun base => .bind (.reg (h k List.mem_cons_self)) fun b =>
      .seq (.writeByte _ b) (ih fun j hj => h j (List.mem_cons_of_mem _ hj))

/-- A load reads no register. -/
theorem Insensitive.loadRegs (is : List Reg) : Insensitive rs (loadRegs is) := by
  induction is with
  | nil => exact fun _ _ _ _ _ h => h
  | cons k is ih =>
    exact .bind (.of_other fun _ _ _ _ => rfl) fun base => .bind (.of_other fun _ _ _ _ => rfl) fun b =>
      .after (.setReg k b) ih

end Sys2Proof.Machine
end

section
/-! SUPPORT. Every instruction depends on the registers of its row of R24 alone. -/

namespace Sys2Proof.Machine

variable {i : Instr} {s s' : State}

/-- From s and s' the instruction answers alike: each next state from s has its like from s'. -/
def AnswersAlike (s s' : State) (o o' : Outcome) : Prop := ∀ t, o = .next t → ∃ t', o' = .next t' ∧ Alike s s' t t'

theorem AnswersAlike.next {t t' : State} (h : Alike s s' t t') : AnswersAlike s s' (.next t) (.next t') := by
  intro u hu
  cases hu
  exact ⟨t', rfl, h⟩

theorem AnswersAlike.raise (h : Alike s s' s s') (c : Cause) :
    AnswersAlike s s' (.next (s.raise c)) (.next (s'.raise c)) :=
  .next (Keeps.of_commutes (u := State.raise c) (fun _ _ _ _ => rfl) s s' s s' h)

theorem AnswersAlike.execute {rs : List Reg} {body : State → Exec State} (h : Alike s s' s s')
    (hrs : ∀ r ∈ rs, s'.v[r] = s.v[r]) (hb : Insensitive rs body) :
    AnswersAlike s s' (execute s body) (execute s' body) := by
  have hfetched := Keeps.of_commutes (u := State.fetched) (fun _ _ _ _ => rfl) s s' s s' h
  obtain ⟨u, u', hu, hu', halike⟩ | ⟨c, hc, hc'⟩ := (hb s s' s.fetched s'.fetched hrs hfetched).cases
  · rw [execute_ok hu, execute_ok hu']
    exact .next halike
  · rw [execute_error hc, execute_error hc']
    exact .raise h c

/-- RET reads the call stack, which the two starts share. -/
theorem ret_answersAlike (h : Alike s s' s s') : AnswersAlike s s' (exec .ret s) (exec .ret s') := by
  have hsp : s'.sp = s.sp := by rw [h.others]; rfl
  have hstack : s'.stack = s.stack := by rw [h.others]; rfl
  have hfetched := Keeps.of_commutes (u := State.fetched) (fun _ _ _ _ => rfl) s s' s s' h
  by_cases h0 : s.sp = 0
  · rw [show exec .ret s = _ from ret_raises_of_empty h0, show exec .ret s' = _ from ret_raises_of_empty (hsp.trans h0)]
    exact .raise h _
  · cases hra : s.stack[s.sp] with
    | some ra =>
      have hra' : s'.stack[s'.sp] = some ra := by simpa only [hsp, hstack] using hra
      rw [exec_ret_of_some h0 hra, exec_ret_of_some (hsp ▸ h0) hra']
      exact .next (Keeps.of_commutes (u := State.popReturn ra) (fun _ _ _ _ => rfl) s s' _ _ hfetched)
    | none =>
      intro t ht
      rw [exec, execRet, if_neg h0, hra] at ht
      cases ht

/-- LD Vx, K reads the keypad, which the two starts share. -/
theorem ldXK_answersAlike (x : Reg) (h : Alike s s' s s') : AnswersAlike s s' (exec (.ldXK x) s) (exec (.ldXK x) s') := by
  have hkeys : s'.keys = s.keys := by rw [h.others]; rfl
  have hfetched := Keeps.of_commutes (u := State.fetched) (fun _ _ _ _ => rfl) s s' s s' h
  cases hk : firstKeyDown s.keys with
  | some k =>
    rw [exec_ldXK_of_down x hk, exec_ldXK_of_down x ((congrArg firstKeyDown hkeys).trans hk)]
    exact .next (Keeps.setReg x _ s s' _ _ hfetched)
  | none =>
    rw [exec_ldXK_of_up x hk, exec_ldXK_of_up x ((congrArg firstKeyDown hkeys).trans hk)]
    exact .next h

/-- From starts that agree but for the unread parts, and on the registers of the instruction's row, an instruction answers
alike. -/
theorem exec_answersAlike (h : Alike s s' s s') (hrs : ∀ r ∈ readsOf i, s'.v[r] = s.v[r]) :
    AnswersAlike s s' (exec i s) (exec i s') := by
  have body {b : State → Exec State} (hb : Insensitive (readsOf i) b) :
      AnswersAlike s s' (execute s b) (execute s' b) := .execute h hrs hb
  have left {x y : Reg} : x ∈ [x, y] := List.mem_cons_self
  have right {x y : Reg} : y ∈ [x, y] := List.mem_cons_of_mem _ List.mem_cons_self
  have only {x : Reg} : x ∈ [x] := List.mem_cons_self
  rw [exec.eq_def, exec.eq_def]
  cases i with
  | ret => exact ret_answersAlike h
  | cls => exact body (.ok (.of_commutes fun _ _ _ _ => rfl))
  | sys nnn => exact body (.ok (.of_commutes (u := fun t => t) fun _ _ _ _ => rfl))
  | jp nnn => exact body (.ok (.of_commutes fun _ _ _ _ => rfl))
  | call nnn =>
    exact body (.read (f := State.sp) (.of_other fun _ _ _ _ => rfl) fun sp =>
      .ite (c := sp = 15) (.error _) (.ok (.of_commutes (u := fun t => t.pushReturn.setPc (zext16 nnn)) fun _ _ _ _ => rfl)))
  | seImm x nn => exact body (.bind (.reg only) fun a => .ok (.skipIf _))
  | sneImm x nn => exact body (.bind (.reg only) fun a => .ok (.skipIf _))
  | seReg x y => exact body (.bind (.reg left) fun a => .bind (.reg right) fun b => .ok (.skipIf _))
  | sneReg x y => exact body (.bind (.reg left) fun a => .bind (.reg right) fun b => .ok (.skipIf _))
  | ldImm x nn => exact body (.ok (.setReg x nn))
  | addImm x nn => exact body (.bind (.reg only) fun a => .ok (.setReg x _))
  | ldReg x y => exact body (.bind (.reg only) fun b => .ok (.setReg x b))
  | or x y => exact body (.bind (.reg left) fun a => .bind (.reg right) fun b => .ok (.setReg x _))
  | and x y => exact body (.bind (.reg left) fun a => .bind (.reg right) fun b => .ok (.setReg x _))
  | xor x y => exact body (.bind (.reg left) fun a => .bind (.reg right) fun b => .ok (.setReg x _))
  | addReg x y => exact body (.bind (.reg left) fun a => .bind (.reg right) fun b => .ok (.writeWithFlag x _ _))
  | sub x y => exact body (.bind (.reg left) fun a => .bind (.reg right) fun b => .ok (.writeWithFlag x _ _))
  | shr x y => exact body (.bind (.reg only) fun a => .ok (.writeWithFlag x _ _))
  | subn x y => exact body (.bind (.reg left) fun a => .bind (.reg right) fun b => .ok (.writeWithFlag x _ _))
  | shl x y => exact body (.bind (.reg only) fun a => .ok (.writeWithFlag x _ _))
  | ldI nnn => exact body (.ok (.of_commutes fun _ _ _ _ => rfl))
  | jpV0 nnn => exact body (.bind (.reg only) fun a => .ok (.of_commutes fun _ _ _ _ => rfl))
  | rnd x nn => exact body (.read (f := State.drawRnd) (.of_other fun _ _ _ _ => rfl) fun d => .ok (.setReg x (d &&& nn)))
  | drw x y n =>
    exact body (.bind (.reg left) fun ox => .bind (.reg right) fun oy =>
      .bind (.of_other fun t v acc st => drawRows_congr ox oy t (withUnread t v acc st) rfl rfl rfl _ _) fun out =>
        .ok ((Keeps.of_commutes fun _ _ _ _ => rfl).comp (.setReg 15 _)))
  | skp x => exact body (.bind (.keyOperand only) fun down => .ok (.skipIf down))
  | sknp x => exact body (.bind (.keyOperand only) fun down => .ok (.skipIf _))
  | ldXDt x => exact body (.read (f := State.dt) (.of_other fun _ _ _ _ => rfl) fun d => .ok (.setReg x d))
  | ldXK x => exact ldXK_answersAlike x h
  | ldDtX x => exact body (.bind (.reg only) fun a => .ok (.of_commutes fun _ _ _ _ => rfl))
  | ldStX x => exact body (.bind (.reg only) fun a => .ok (.setSoundTimer a))
  | addIX x =>
    exact body (.bind (.of_other fun _ _ _ _ => rfl) fun i => .bind (.reg only) fun a =>
      .ite (.error _) (.ok (.of_commutes fun _ _ _ _ => rfl)))
  | ldFX x => exact body (.bind (.digitOperand only) fun d => .ok (.of_commutes fun _ _ _ _ => rfl))
  | ldBX x =>
    exact body (.bind (.reg only) fun v => .bind (.of_other fun _ _ _ _ => rfl) fun i =>
      .seq (.writeByte _ _) (.seq (.writeByte _ _) (.writeByte _ _)))
  | ldMemX x => exact body (.storeRegs fun _ hk => hk)
  | ldXMem x => exact body (.loadRegs _)


end Sys2Proof.Machine
end

section
/-! The obligations of the family. -/

namespace Sys2Proof.Machine

theorem registers_ext {v w : Vector (Option Byte) 16} (h : ∀ r : Reg, v[r] = w[r]) : v = w :=
  Vector.ext fun k hk => h ⟨k, hk⟩

/-- Settles O15: the effect of an instruction leaves the registers outside its writes; and from a start in which a register
outside its reads is another, it answers alike, with that register overwritten or kept. -/
theorem registerReadersAndWriters : Obligations.RegisterReadersAndWriters := by
  refine ⟨fun i s t r h hr => ?writes, fun i s t r b hr h => ?reads⟩
  case writes =>
    obtain ⟨c, rfl⟩ | heff := exec_effect h
    · rfl
    · exact heff.regs r hr
  case reads =>
    have hother : ∀ q : Reg, q ≠ r → (s.v.set r b)[q] = s.v[q] := fun q hq => by
      rw [State.getElem_set_reg, if_neg hq]
    obtain ⟨t', ht', halike⟩ := exec_answersAlike (i := i) (s' := { s with v := s.v.set r b }) (.start rfl)
      (fun q hq => hother q (ne_of_mem_of_not_mem hq hr)) t h
    refine ⟨t', ht', ?_⟩
    obtain ⟨-, -, -, -, -, -, -, hacc, -⟩ := onlyTheListedInstructionsWrite i s t h
    have hacc' : t'.acc = t.acc := halike.acc.trans hacc.symm
    have hst' : t'.st = t.st := halike.st.elim id fun ⟨hs, hs'⟩ => hs'.trans hs.symm
    have hv : ∀ q : Reg, q ≠ r → t'.v[q] = t.v[q] := fun q hq =>
      (halike.regs q).elim id fun ⟨hs, hs'⟩ => (hs'.trans (hother q hq)).trans hs.symm
    rw [halike.others, hacc', hst']
    obtain hr' | ⟨-, hr'⟩ := halike.regs r
    · have heq : t'.v = t.v := registers_ext fun q => by
        by_cases hq : q = r
        · exact hq ▸ hr'
        · exact hv q hq
      rw [heq]
      exact .inl rfl
    · have heq : t'.v = t.v.set r b := registers_ext fun q => by
        rw [State.getElem_set_reg] at hr' ⊢
        split
        next hq => rw [hq, hr', if_pos rfl]
        next hq => exact hv q hq
      rw [heq]
      exact .inr rfl

/-- Settles O18: the two starts have the same registers, and only LD ST, Vx writes ST. -/
theorem accumulatorAndSoundTimerUnread : Obligations.AccumulatorAndSoundTimerUnread := by
  intro i s t acc st h
  obtain ⟨t', ht', halike⟩ := exec_answersAlike (i := i) (s' := { s with acc := acc, st := st }) (.start rfl)
    (fun _ _ => rfl) t h
  have hv : t'.v = t.v := registers_ext fun q => (halike.regs q).elim id fun ⟨hs, hs'⟩ => hs'.trans hs.symm
  obtain ⟨-, -, -, -, -, hwrites, -⟩ := onlyTheListedInstructionsWrite i _ t' ht'
  refine ⟨t', ht', halike.acc, halike.others.trans (by rw [hv]; rfl), fun hi => ?_⟩
  by_contra hne
  obtain ⟨x, rfl⟩ := hwrites hne
  exact hi x rfl

end Sys2Proof.Machine
end
